-- ==== Sys2Proof/Word.lean ====
section
/-! DEFINITION. The two word types of the block: every controller register is 32 bits (R52), the
payload and the FIFO carry bytes (R71, R75). -/

namespace Sys2Proof

/-- A payload or FIFO byte. -/
abbrev Byte := BitVec 8

/-- A controller register, a command header, a FIFO command word or a result word. -/
abbrev Word := BitVec 32

end Sys2Proof
end

