-- ==== Sys2Proof/Config.lean ====
section
/-! DEFINITION. The parameters of the block (R5): the constants the spec fixes, the OPEN ones as opaque
constants nothing can evaluate, and the free values of the environment (R57, U3). -/

namespace Sys2Proof

/-- ZERO_POLICY (R5, R108, D14): what WRITE does when the retry counter is zero and the abort bit read clear. -/
inductive ZeroPolicy where
  | abort
  | proceed
deriving DecidableEq, Repr, Inhabited

/-- What becomes of the reference environment when a word is written to its full FIFO (R65 c, U3):
the word is lost, or anything else. -/
inductive OverflowFate where
  | lost
  | becomes (fifo bus : List Word) (abrt : Bool)
deriving DecidableEq, Repr, Inhabited

/-- The parameters of R5 that are OPEN or that the spec keeps as parameters. The bounds of R5 hold by the
shape of the fields: BASE is four times `baseQuad`, INIT_CMDS has fifteen bytes, WINDOW_CMDS has a first
byte, FIFO_DEPTH is one more than `fifoDepthPred`. No other bound is put on a parameter (U11).
DESIGN CHOICE (log 1): they travel in `State.par`. -/
structure Params where
  baseQuad      : Nat
  funcselI2c    : Word
  paceN         : Nat
  initCmds      : Vector Byte 15
  windowFirst   : Byte
  windowTail    : List Byte
  textMax       : Nat
  fifoDepthPred : Nat
  zeroPolicy    : ZeroPolicy
  ctrlInit      : Word
  addrByte      : Byte
deriving DecidableEq, Repr

namespace Params

/-- BASE, a multiple of 4 (R5, R52, D3). -/
def base (p : Params) : Nat := 4 * p.baseQuad

/-- WINDOW_CMDS, at least one byte (R5, D9). -/
def windowCmds (p : Params) : List Byte := p.windowFirst :: p.windowTail

/-- FIFO_DEPTH, at least one word (R5, D18). -/
def fifoDepth (p : Params) : Nat := p.fifoDepthPred + 1

end Params

namespace Config

/-- SLAVE_ADDR (R5). -/
def slaveAddr : BitVec 7 := 0x3C
/-- CTL_CMD, command mode (R5, R77). -/
def ctlCmd : Byte := 0x00
/-- CTL_DATA, data mode (R5, R77). -/
def ctlData : Byte := 0x40
/-- RETRY_INIT (R5). -/
def retryInit : BitVec 2 := 3
/-- POLL_INIT (R5). -/
def pollInit : BitVec 4 := 10
/-- STOP_BIT (R5). -/
def stopBit : Nat := 9
/-- TFNF_BIT (R5). -/
def tfnfBit : Nat := 1
/-- ABRT_BIT (R5). -/
def abrtBit : Nat := 9
/-- PAGES (R5). -/
def pages : Nat := 8
/-- COLS (R5). -/
def cols : Nat := 64
/-- BLANK (R5, R134). -/
def blank : Byte := 0xFF
/-- LEN_MAX (R5, R84). -/
def lenMax : Nat := 65535

/-- BASE divided by 4: OPEN (D3). -/
opaque baseQuad : Nat
/-- FUNCSEL_I2C: OPEN (D5). -/
opaque funcselI2c : Word
/-- PACE_N: OPEN (D6). -/
opaque paceN : Nat
/-- INIT_CMDS: OPEN, fifteen bytes (D8, R138). -/
opaque initCmds : Vector Byte 15
/-- The first byte of WINDOW_CMDS: OPEN (D9). -/
opaque windowFirst : Byte
/-- The rest of WINDOW_CMDS: OPEN (D9). -/
opaque windowTail : List Byte
/-- TEXT_MAX: OPEN (D11). -/
opaque textMax : Nat
/-- FIFO_DEPTH less one: OPEN (D18). -/
opaque fifoDepthPred : Nat

/-- The value the environment's `k`-th read of STATUS or RAW_INTR_STAT returns: a free value (R57, U4, log 4). -/
opaque freeRead : Nat → Word
/-- The value the `k`-th read of DATA_CMD returns: a free value, the spec states none (R57, log 16). -/
opaque freeDataRead : Nat → Word
/-- What the 16 bits of `n` hold of a buffer of more than 65535 bytes: a free value (R30, log 11). -/
opaque freeCount : List Byte → BitVec 16
/-- What the `k`-th write to a full reference FIFO does: a free value (R65 c, U3, log 6). -/
opaque freeFate : Nat → OverflowFate

/-- The parameters of this machine: the OPEN ones opaque, CTRL_INIT by D4, ADDR_BYTE = SLAVE_ADDR << 1 by
R79 and D7, ZERO_POLICY by D14. -/
def params : Params where
  baseQuad      := baseQuad
  funcselI2c    := funcselI2c
  paceN         := paceN
  initCmds      := initCmds
  windowFirst   := windowFirst
  windowTail    := windowTail
  textMax       := textMax
  fifoDepthPred := fifoDepthPred
  zeroPolicy    := .abort
  ctrlInit      := 0x00000003
  addrByte      := slaveAddr.setWidth 8 <<< 1

end Config

end Sys2Proof
end

