-- ==== Sys2Proof/Syntax.lean ====
section
/-! DEFINITION. The seven host commands (R72) as syntax, and the form in which the host hands one over
(R70, R71): a 32-bit header and the payload bytes behind it. -/

namespace Sys2Proof

/-- The operation names of R72. -/
inductive Op where
  | init | write | sendCommand | sendData | initDisplay | clearDisplay | displayText
deriving DecidableEq, Repr

/-- One constructor per row of the opcode table, with the payload it carries (R72). -/
inductive Instr where
  /-- INIT, the document's initialize() (R100). -/
  | init
  /-- WRITE, the document's write(bytes) (R102). -/
  | write (buf : List Byte)
  /-- SEND_COMMAND, sendCommand(cmd_bytes) (R131). -/
  | sendCommand (c : List Byte)
  /-- SEND_DATA, sendData(data_bytes) (R132). -/
  | sendData (d : List Byte)
  /-- INIT_DISPLAY, initializeDisplay() (R133). -/
  | initDisplay
  /-- CLEAR_DISPLAY, clearDisplay() (R134). -/
  | clearDisplay
  /-- DISPLAY_TEXT, displayText(text) (R135). -/
  | displayText (t : List Byte)
deriving DecidableEq, Repr

namespace Instr

/-- The operation of a command. -/
def op : Instr → Op
  | .init          => .init
  | .write _       => .write
  | .sendCommand _ => .sendCommand
  | .sendData _    => .sendData
  | .initDisplay   => .initDisplay
  | .clearDisplay  => .clearDisplay
  | .displayText _ => .displayText

/-- The payload bytes of a command, index 0 first (R71). -/
def payload : Instr → List Byte
  | .init          => []
  | .write buf     => buf
  | .sendCommand c => c
  | .sendData d    => d
  | .initDisplay   => []
  | .clearDisplay  => []
  | .displayText t => t

end Instr

/-- What stands on the host port: a header and the payload beats behind it (R6 c, R70, R71). -/
structure Offer where
  header  : Word
  payload : List Byte
deriving DecidableEq, Repr

end Sys2Proof
end

