-- ==== Sys2Proof/WellFormed.lean ====
section
/-! DEFINITION. The static check on a command: its payload fits the 16-bit LEN field (R70, R84). -/

namespace Sys2Proof

/-- A payload the header can announce: at most LEN_MAX bytes (R84). -/
abbrev payloadFits (b : List Byte) : Prop := b.length ≤ Config.lenMax

/-- A command the host can hand over. The three commands without a payload are always well formed. -/
abbrev Instr.WellFormed : Instr → Prop
  | .init          => True
  | .write buf     => payloadFits buf
  | .sendCommand c => payloadFits c
  | .sendData d    => payloadFits d
  | .initDisplay   => True
  | .clearDisplay  => True
  | .displayText t => payloadFits t

end Sys2Proof
end

