-- ==== Sys2Proof/Decode.lean ====
section
/-! DEFINITION. The decoder of the host port, total on every header and payload, and after it the encoder,
both from R70 to R74 and R81. -/

namespace Sys2Proof

/-- Field OP, bits 3:0 (R70). -/
def headerOp (h : Word) : BitVec 4 := h.extractLsb' 0 4

/-- Field RSV, bits 15:4 (R70). -/
def headerRsv (h : Word) : BitVec 12 := h.extractLsb' 4 12

/-- Field LEN, bits 31:16 (R70). -/
def headerLen (h : Word) : BitVec 16 := h.extractLsb' 16 16

/-- The codes of R72. -/
def Op.code : Op → BitVec 4
  | .init         => 0
  | .write        => 1
  | .sendCommand  => 2
  | .sendData     => 3
  | .initDisplay  => 4
  | .clearDisplay => 5
  | .displayText  => 6

/-- The operation of a code; codes 7 to 15 are reserved (R72). -/
def Op.ofCode (c : BitVec 4) : Option Op :=
  match c.toNat with
  | 0 => some .init
  | 1 => some .write
  | 2 => some .sendCommand
  | 3 => some .sendData
  | 4 => some .initDisplay
  | 5 => some .clearDisplay
  | 6 => some .displayText
  | _ => none

/-- The operations whose header announces payload bytes (R72). -/
def Op.takesPayload : Op → Bool
  | .init         => false
  | .write        => true
  | .sendCommand  => true
  | .sendData     => true
  | .initDisplay  => false
  | .clearDisplay => false
  | .displayText  => true

/-- The command of an operation and its payload. -/
def Op.instr (payload : List Byte) : Op → Instr
  | .init         => .init
  | .write        => .write payload
  | .sendCommand  => .sendCommand payload
  | .sendData     => .sendData payload
  | .initDisplay  => .initDisplay
  | .clearDisplay => .clearDisplay
  | .displayText  => .displayText payload

/-- Why a header is illegal (R74). -/
inductive HeaderError where
  | reservedOp
  | reservedBits
  | lengthNotZero
deriving DecidableEq, Repr

/-- A header is legal when RSV is 0, OP is at most 6, and LEN is 0 for the commands without payload (R73). -/
def decodeHeader (h : Word) : Except HeaderError (Op × Nat) :=
  match Op.ofCode (headerOp h) with
  | none => .error .reservedOp
  | some op =>
    if headerRsv h ≠ 0 then .error .reservedBits
    else if op.takesPayload = false ∧ headerLen h ≠ 0 then .error .lengthNotZero
    else .ok (op, (headerLen h).toNat)

/-- Why an offer is not a command: its header is illegal (R74), or payload beats it announces have not
been handed over yet (log 8). -/
inductive DecodeError where
  | illegal (why : HeaderError)
  | incomplete
deriving DecidableEq, Repr

/-- Whether at least `k` beats stand on the port. -/
def hasBeats : Nat → List Byte → Bool
  | 0, _ => true
  | _ + 1, [] => false
  | k + 1, _ :: rest => hasBeats k rest

/-- The command on offer: OP names the operation and LEN the number of payload beats taken (R73). -/
def decode (o : Offer) : Except DecodeError Instr :=
  match decodeHeader o.header with
  | .error why => .error (.illegal why)
  | .ok (op, len) =>
    if hasBeats len o.payload then .ok (op.instr (o.payload.take len)) else .error .incomplete

/-- The payload beats of a numeral whose lowest eight bits are payload byte 0 (log 17). -/
def payloadOfNat : Nat → Nat → List Byte
  | 0, _ => []
  | k + 1, w => BitVec.ofNat 8 w :: payloadOfNat k (w / 256)

/-- The offer a numbered instruction stands for: bits 31:0 are the header, the bits above it payload
bytes in index order, every bit from `nbits` up being 0 (log 17). -/
def offerOfBits (nbits w : Nat) : Offer :=
  let bits := w % 2 ^ nbits
  let header := BitVec.ofNat 32 bits
  { header := header, payload := payloadOfNat (headerLen header).toNat (bits / 2 ^ 32) }

/-- What the decoder reads from an instruction numbered as the opcode table numbers it. -/
def decodeTableWord (nbits w : Nat) : Option Instr :=
  match decode (offerOfBits nbits w) with
  | .ok i => some i
  | .error _ => none

/-- The assembled header `(LEN << 16) | OP` (R81). -/
def encodeHeader (op : Op) (len : Nat) : Word :=
  BitVec.ofNat 32 len <<< 16 ||| op.code.setWidth 32

/-- The header and payload of a command (R70, R71, R81). -/
def encode (i : Instr) : Offer :=
  { header := encodeHeader i.op i.payload.length, payload := i.payload }

/-- A row of the opcode table in match-and-mask form (R73). -/
structure OpcodeRow where
  op      : Op
  pattern : Word
  mask    : Word
deriving DecidableEq, Repr

/-- The seven patterns of R73. -/
def opcodeRows : List OpcodeRow :=
  [ ⟨.init,         0x00000000, 0xFFFFFFFF⟩,
    ⟨.write,        0x00000001, 0x0000FFFF⟩,
    ⟨.sendCommand,  0x00000002, 0x0000FFFF⟩,
    ⟨.sendData,     0x00000003, 0x0000FFFF⟩,
    ⟨.initDisplay,  0x00000004, 0xFFFFFFFF⟩,
    ⟨.clearDisplay, 0x00000005, 0xFFFFFFFF⟩,
    ⟨.displayText,  0x00000006, 0x0000FFFF⟩ ]

/-- A header fits a row. -/
def OpcodeRow.fits (r : OpcodeRow) (h : Word) : Prop := h &&& r.mask = r.pattern

end Sys2Proof
end

