-- ==== Sys2Proof/Machine/State.lean ====
section
/-! DEFINITION. The state of the block (R20), its reset value (R38), and the reasons a step can stop. -/

namespace Sys2Proof.Machine

/-- The seven registers of the Controller Register Set (R21); no other offset can be written down (R29). -/
inductive Reg where
  | funcsel | ctrl | tar | dataCmd | rawIntrStat | enable | status
deriving DecidableEq, Repr

/-- One of the four storage registers: the 32-bit word it holds and whether it was written since reset.
Until then the spec gives it no value (R38, D20); `val` is then the reset value log 2 names. -/
structure Stored where
  val     : Word
  written : Bool
deriving DecidableEq, Repr

/-- The storage registers of R21 (R22, R23, R26, R28). -/
structure RegSet where
  funcsel : Stored
  ctrl    : Stored
  tar     : Stored
  enable  : Stored
deriving DecidableEq, Repr

/-- Which backoff point consumed the latest retry of a byte (R30, R156). -/
inductive Cause where
  | none | fifoTimeout | txAborted
deriving DecidableEq, Repr

/-- The result fields (R32 b, c, d). -/
structure Result where
  fail    : Bool
  cause   : Cause
  call    : BitVec 3
  idx     : BitVec 16
  illegal : Bool
deriving DecidableEq, Repr

/-- The phases of the sequencer (R31). -/
inductive Phase where
  | idle
  | i1 | i2 | i3 | i4 | i5
  | wBuild | wPoll | wIssue | wPace | wCheck
  | fault
deriving DecidableEq, Repr

/-- The ghost display state (R35, R136). -/
inductive Disp where
  | uninitialized | initialized | cleared | displayingText | unknown
deriving DecidableEq, Repr

/-- The events of the event history (R11). -/
inductive Event where
  | acc (op : Op) (len : Nat) (payload : List Byte)
  | rej (h : Word)
  | wr (r : Reg) (v : Word)
  | rd (r : Reg) (v : Word)
  | delay (n : Nat)
  | diag (call : BitVec 3) (idx : BitVec 16) (cause : Cause)
  | done (result : Word)
deriving DecidableEq, Repr

/-- One move of the reference environment (R65 d). -/
inductive EnvMove where
  | drain | setAbrt | clearAbrt
deriving DecidableEq, Repr

/-- The reference environment (R65): its FIFO, the words it has sent, its abort bit. `moves` says what it
does at its successive turns (R58), `fates` what writes to its full FIFO do, and `draws` counts the free
values taken when `fates` is used up (log 6). -/
structure RefEnv where
  fifo  : List Word
  bus   : List Word
  abrt  : Bool
  moves : List (List EnvMove)
  fates : List OverflowFate
  draws : Nat
deriving DecidableEq, Repr

/-- What stands behind the registers (R10 c, R34). -/
inductive Env where
  /-- The normative oracle (R57): every read is a free value; `draws` counts the reads made (log 4). -/
  | oracle (draws : Nat)
  /-- ENV_SCRIPT(S, A) of R65; with both lists empty it is ENV_IDEAL. -/
  | script (status raw : List Word)
  /-- The reference environment of R65. -/
  | reference (r : RefEnv)
  /-- No controller at BASE, or a wrong BASE (R63, R154, log 5). -/
  | absent
deriving DecidableEq, Repr

/-- A stretch of the run that a reset ended: its event history, and whether the reset came in the middle of
a command (R170). -/
structure Epoch where
  events : List Event
  cut    : Bool
deriving DecidableEq, Repr

/-- The whole state: parameters (log 1), the Controller Register Set, the working registers and position
of the sequencer, the result fields, the environment, the event history, the ghosts, the inputs, the
model's own counter `draws` of the free values that reads of DATA_CMD took (log 16), and its own ghost `past`,
the stretches of the run that resets ended, for the claims about the bus (R170, log 20). -/
structure State where
  par     : Params
  regs    : RegSet
  calls   : List (List Byte)
  callNo  : BitVec 3
  buf     : List Byte
  n       : BitVec 16
  idx     : BitVec 16
  retries : BitVec 2
  pollCnt : BitVec 4
  word    : Word
  cause   : Cause
  phase   : Phase
  res     : Result
  env     : Env
  hist    : List Event
  disp    : Disp
  op      : Op
  host    : List Offer
  rst     : Bool
  draws   : Nat
  past    : List Epoch
deriving DecidableEq, Repr

/-- Why a step stops. It guards states no run reaches (log 16). -/
inductive Fault where
  /-- Raised by phase W_BUILD when `buf` has no byte at `idx`; R30 and R31 rule such a position out. Safe. -/
  | noSuchByte
deriving DecidableEq, Repr

/-- Why an instruction has no meaning in the model. -/
inductive Refusal where
  /-- Raised by `exec` alone, for an instruction the model gives no meaning; no arm does so. Safe. -/
  | notModelled (mnemonic : String)
deriving DecidableEq, Repr

/-- A storage register after reset: never written, so the spec gives it no value (R38); the word it holds is
DESIGN CHOICE 0 (log 2). -/
def Stored.reset : Stored := { val := 0, written := false }

/-- The storage registers after reset (R38). -/
def RegSet.reset : RegSet := { funcsel := .reset, ctrl := .reset, tar := .reset, enable := .reset }

/-- The result fields cleared (R32, R38). -/
def Result.clear : Result := { fail := false, cause := .none, call := 0, idx := 0, illegal := false }

/-- The state right after reset (R38, R170): IDLE, no calls, result fields 0, history empty, display
UNINITIALIZED, no storage register written. The working registers are not defined by the spec: DESIGN
CHOICE 0 (log 3). The environment is the oracle (log 4), nothing is offered, reset is released. -/
def State.reset : State where
  par     := Config.params
  regs    := .reset
  calls   := []
  callNo  := 0
  buf     := []
  n       := 0
  idx     := 0
  retries := 0
  pollCnt := 0
  word    := 0
  cause   := .none
  phase   := .idle
  res     := .clear
  env     := .oracle 0
  hist    := []
  disp    := .uninitialized
  op      := .init
  host    := []
  rst     := false
  draws   := 0
  past    := []

end Sys2Proof.Machine
end

