-- ==== Sys2Proof/Machine/Operands.lean ====
section
/-! DEFINITION. Operand forms: register offsets (R21), the FIFO command word (R75), and the expansion of
each command into write calls (R130). -/

namespace Sys2Proof.Machine

/-- The byte offset of a register (R21). -/
def Reg.offset : Reg → Nat
  | .funcsel     => 0x1000
  | .ctrl        => 0x00
  | .tar         => 0x04
  | .dataCmd     => 0x10
  | .rawIntrStat => 0x34
  | .enable      => 0x6c
  | .status      => 0x70

/-- The address of an access, BASE + off(r) (R51). Used in statements only: the step keeps the name. -/
def Reg.address (p : Params) (r : Reg) : Nat := p.base + r.offset

/-- The FIFO command word: the byte zero-extended, with the stop flag at bit 9 (R75). -/
def fifoWord (b : Byte) (last : Bool) : Word :=
  b.setWidth 32 ||| (BitVec.ofBool last).setWidth 32 <<< Config.stopBit

/-- The byte a FIFO command word carries, bits 7:0 (R75). -/
def wordByte (w : Word) : Byte := w.extractLsb' 0 8

/-- The stop flag of a FIFO command word, bit 9 (R75). -/
def wordStop (w : Word) : Bool := w.getLsbD Config.stopBit

/-- What call start puts into `n` (R30, R111): the buffer's length. The parameters WINDOW_LEN and TEXT_MAX, on
which R5 puts no upper bound, can build a buffer whose length 16 bits do not hold; the spec does not say what
`n` is then, and it is a free value (log 11). -/
def countOf (buf : List Byte) : BitVec 16 :=
  if buf.length ≤ Config.lenMax then BitVec.ofNat 16 buf.length else Config.freeCount buf

/-- The bytes a write call goes through, `idx` from 0 to `n - 1` (R31, R102): the buffer, when `n` holds its
length. -/
def callBytes (buf : List Byte) : List Byte := buf.take (countOf buf).toNat

/-- WRITE buf (R130). -/
def writeCalls (buf : List Byte) : List (List Byte) := [buf]

/-- SEND_COMMAND c: slave-address byte, control byte 0x00, then c (R131). -/
def sendCommandCalls (p : Params) (c : List Byte) : List (List Byte) :=
  [[p.addrByte], [Config.ctlCmd], c]

/-- SEND_DATA d: slave-address byte, control byte 0x40, then d (R132). -/
def sendDataCalls (p : Params) (d : List Byte) : List (List Byte) :=
  [[p.addrByte], [Config.ctlData], d]

/-- INIT_DISPLAY: the control byte 0x00 and INIT_CMDS in one buffer (R133). -/
def initDisplayCalls (p : Params) : List (List Byte) :=
  [Config.ctlCmd :: p.initCmds.toList]

/-- CLEAR_DISPLAY: the window as a command frame, then PAGES * COLS blank bytes as a data frame (R134). -/
def clearDisplayCalls (p : Params) : List (List Byte) :=
  sendCommandCalls p p.windowCmds ++
    sendDataCalls p (List.replicate (Config.pages * Config.cols) Config.blank)

/-- DISPLAY_TEXT t: the control byte 0x40 and the first TEXT_MAX bytes of the text (R135). -/
def displayTextCalls (p : Params) (t : List Byte) : List (List Byte) :=
  [Config.ctlData :: t.take p.textMax]

end Sys2Proof.Machine
end

