-- ==== Sys2Proof/Machine/Flags.lean ====
section
/-! DEFINITION. Flags and tests: BUSY (R32), the bit tests on read values (R76), the codes (R156), the
result word (R82), and the ghost display state (R136). -/

namespace Sys2Proof.Machine

/-- BUSY = (phase != IDLE) (R32 a). -/
def State.busy (s : State) : Bool := s.phase ≠ .idle

/-- "Transmit FIFO not full", bit 1 of STATUS (R76). -/
def tfnf (v : Word) : Bool := v.getLsbD Config.tfnfBit

/-- "Transmission abort/error", bit 9 of RAW_INTR_STAT (R76). -/
def abrt (v : Word) : Bool := v.getLsbD Config.abrtBit

/-- The saturating decrement of a retry counter (R8, R107). -/
def satdec (r : BitVec 2) : BitVec 2 := if r = 0 then 0 else r - 1

/-- The code of a cause (R156). -/
def Cause.code : Cause → BitVec 2
  | .none        => 0
  | .fifoTimeout => 1
  | .txAborted   => 2

/-- The result word (R82): FAIL 0, CAUSE 2:1, ILLEGAL 3, CALL 6:4, zeros 15:7, IDX 31:16. -/
def Result.word (r : Result) : Word :=
  r.idx.setWidth 32 <<< 16 ||| r.call.setWidth 32 <<< 4 |||
    (BitVec.ofBool r.illegal).setWidth 32 <<< 3 ||| r.cause.code.setWidth 32 <<< 1 |||
    (BitVec.ofBool r.fail).setWidth 32

/-- The result fields after the first or a later aborted write call of a command: only the first is
recorded (R32 c, R102 label S6). -/
def Result.recordAbort (r : Result) (cause : Cause) (call : BitVec 3) (idx : BitVec 16) : Result :=
  if r.fail then r
  else { r with fail := true, cause := cause, call := call, idx := idx }

/-- The result fields after a refused header (R74). -/
def Result.refusedHeader : Result := { Result.clear with illegal := true }

/-- A clean CLEAR_DISPLAY or DISPLAY_TEXT leaves UNINITIALIZED and UNKNOWN as they are (R136). -/
def Disp.moved (target : Disp) : Disp → Disp
  | .uninitialized => .uninitialized
  | .unknown => .unknown
  | .initialized | .cleared | .displayingText => target

/-- The ghost display state when a command's Done is emitted (R136): INIT leaves it, a failed command
makes it UNKNOWN, CLEAR_DISPLAY and DISPLAY_TEXT move it only once the display is initialised, and raw
bytes make it UNKNOWN (log 12). -/
def Disp.after (op : Op) (fail : Bool) (d : Disp) : Disp :=
  match op with
  | .init => d
  | .write | .sendCommand | .sendData => .unknown
  | .initDisplay => if fail then .unknown else .initialized
  | .clearDisplay => if fail then .unknown else Disp.moved .cleared d
  | .displayText => if fail then .unknown else Disp.moved .displayingText d

end Sys2Proof.Machine
end

