-- ==== Sys2Proof/Machine/Ops.lean ====
section
/-! DEFINITION. The named operations: events, the environment's turns and answers (R57, R58, R65), RegRead,
RegWrite and Delay (R90, R91, R120), and the failures (R154, R155, R153) with the reset that is the only
way back from a fault (R170). There is no return from an exception: a failure is not a context (R160). -/

namespace Sys2Proof.Machine

/-- Append an event to the history (R8, R11). -/
def State.emit (e : Event) (s : State) : State := { s with hist := s.hist ++ [e] }

/-! ### The reference environment (R65) -/

/-- One move: the head of the FIFO goes to the bus, only while ENABLE holds 1, or the abort bit is set or
cleared (R65 d). -/
def RefEnv.move (enabled : Bool) (r : RefEnv) : EnvMove → RefEnv
  | .drain =>
    match enabled, r.fifo with
    | true, w :: ws => { r with fifo := ws, bus := r.bus ++ [w] }
    | _, _ => r
  | .setAbrt => { r with abrt := true }
  | .clearAbrt => { r with abrt := false }

/-- One turn: the next batch of moves, none when the schedule is used up (R58, log 6). -/
def RefEnv.turn (enabled : Bool) (r : RefEnv) : RefEnv :=
  match r.moves with
  | [] => r
  | batch :: later => batch.foldl (RefEnv.move enabled) { r with moves := later }

/-- A write to the full FIFO: the word is lost, or anything else (R65 c, U3). -/
def RefEnv.suffer (depth : Nat) (r : RefEnv) : OverflowFate → RefEnv
  | .lost => r
  | .becomes fifo bus abrt => { r with fifo := fifo.take depth, bus := bus, abrt := abrt }

/-- A word offered to the FIFO (R65 c). -/
def RefEnv.offer (depth : Nat) (w : Word) (r : RefEnv) : RefEnv :=
  if r.fifo.length < depth then { r with fifo := r.fifo ++ [w] }
  else
    match r.fates with
    | f :: fs => RefEnv.suffer depth { r with fates := fs } f
    | [] => RefEnv.suffer depth { r with draws := r.draws + 1 } (Config.freeFate r.draws)

/-- After reset the FIFO and the bus are empty and the abort bit is clear (R65 e). -/
def RefEnv.afterReset (r : RefEnv) : RefEnv := { r with fifo := [], bus := [], abrt := false }

/-! ### The environment's answers -/

/-- The environment's turn between two accesses or inside a delay (R58). -/
def Env.turn (enabled : Bool) : Env → Env
  | .reference r => .reference (r.turn enabled)
  | e => e

/-- What a read of STATUS returns (R57, R65 a). -/
def Env.readStatus (depth : Nat) : Env → Word × Env
  | .oracle k => (Config.freeRead k, .oracle (k + 1))
  | .script (v :: vs) raw => (v, .script vs raw)
  | .script [] raw => (0x2, .script [] raw)
  | .reference r => (if r.fifo.length < depth then 0x2 else 0x0, .reference r)
  | .absent => (0, .absent)

/-- What a read of RAW_INTR_STAT returns (R57, R65 b). -/
def Env.readRaw : Env → Word × Env
  | .oracle k => (Config.freeRead k, .oracle (k + 1))
  | .script status (v :: vs) => (v, .script status vs)
  | .script status [] => (0x0, .script status [])
  | .reference r => (if r.abrt then 0x200 else 0x0, .reference r)
  | .absent => (0, .absent)

/-- A word offered to the transmit FIFO (R56, R65 c); the oracle's FIFO is not modelled (R34). -/
def Env.offer (depth : Nat) (w : Word) : Env → Env
  | .reference r => .reference (r.offer depth w)
  | e => e

/-- The environment at a reset: it is the environment's own affair (R38, R170), but for R65 e. -/
def Env.afterReset : Env → Env
  | .reference r => .reference r.afterReset
  | e => e

/-! ### Register access (R90, R91) -/

/-- The last value written to ENABLE is 1 (R65 d, R114). -/
def RegSet.enabled (g : RegSet) : Bool := g.enable.written && g.enable.val == 1

/-- The environment takes its turn (R58). -/
def State.envTurn (s : State) : State := { s with env := s.env.turn s.regs.enabled }

/-- The outcome of a register access: it completes with a value (R92), or it raises Fault (R63). -/
inductive Access (α : Type) where
  | ok (a : α) (s : State)
  | fault (s : State)

/-- Taking the fault: the block is in phase FAULT for good, and nothing is recorded (R154). -/
def State.raiseFault (s : State) : State := { s with phase := .fault }

/-- A storage register with a word written to it: it keeps all 32 bits (R56, R91). -/
def Stored.put (v : Word) : Stored := { val := v, written := true }

/-- The value last written to a storage register, and none if none was written since reset (R57, D20). -/
def Stored.get (r : Stored) : Option Word := if r.written then some r.val else none

/-- What a register write does to the storage registers (R56). -/
def RegSet.write (g : RegSet) (v : Word) : Reg → RegSet
  | .funcsel => { g with funcsel := Stored.put v }
  | .ctrl => { g with ctrl := Stored.put v }
  | .tar => { g with tar := Stored.put v }
  | .enable => { g with enable := Stored.put v }
  | .dataCmd | .rawIntrStat | .status => g

/-- The value last written to a register; DATA_CMD, STATUS and RAW_INTR_STAT are not storage (R24, R57). -/
def RegSet.lastWritten (g : RegSet) : Reg → Option Word
  | .funcsel => g.funcsel.get
  | .ctrl => g.ctrl.get
  | .tar => g.tar.get
  | .enable => g.enable.get
  | .dataCmd | .rawIntrStat | .status => none

/-- A read that returned `v`: the event is emitted (R90). -/
def readReturns (r : Reg) (v : Word) (s : State) : Access Word := .ok v (s.emit (.rd r v))

/-- RegRead(r) at a controller that is present, after the environment's turn (R57, R90): it always completes
(R92). A storage register returns the value last written, or its reset value (log 2); a read of DATA_CMD, for
which the spec states no value, returns a free one (log 16). -/
def readPresent (r : Reg) (s : State) : Access Word :=
  match r with
  | .funcsel => readReturns .funcsel s.regs.funcsel.val s
  | .ctrl => readReturns .ctrl s.regs.ctrl.val s
  | .tar => readReturns .tar s.regs.tar.val s
  | .enable => readReturns .enable s.regs.enable.val s
  | .dataCmd => readReturns .dataCmd (Config.freeDataRead s.draws) { s with draws := s.draws + 1 }
  | .status =>
    readReturns .status (s.env.readStatus s.par.fifoDepth).1
      { s with env := (s.env.readStatus s.par.fifoDepth).2 }
  | .rawIntrStat =>
    readReturns .rawIntrStat s.env.readRaw.1 { s with env := s.env.readRaw.2 }

/-- RegRead(r): one volatile 32-bit access (R90), a fault when the controller is absent (R63). -/
def regRead (r : Reg) (s : State) : Access Word :=
  if s.env = .absent then .fault s.raiseFault else readPresent r s.envTurn

/-- A write of `v` that completed: the event is emitted (R91). -/
def writeCompletes (r : Reg) (v : Word) (s : State) : Access Unit := .ok () (s.emit (.wr r v))

/-- RegWrite(r, v) at a controller that is present, after the environment's turn: the four storage
registers keep `v`, DATA_CMD offers `v` to the transmit FIFO (R56, R91). A write of STATUS or RAW_INTR_STAT
completes like any other (R92); the spec gives it no effect on either (log 16). -/
def writePresent (r : Reg) (v : Word) (s : State) : Access Unit :=
  match r with
  | .dataCmd => writeCompletes .dataCmd v { s with env := s.env.offer s.par.fifoDepth v }
  | .funcsel | .ctrl | .tar | .enable | .rawIntrStat | .status =>
    writeCompletes r v { s with regs := s.regs.write v r }

/-- RegWrite(r, v): one volatile 32-bit access (R91), a fault when the controller is absent (R63). -/
def regWrite (r : Reg) (v : Word) (s : State) : Access Unit :=
  if s.env = .absent then .fault s.raiseFault else writePresent r v s.envTurn

/-- Delay(n): the event, and the environment's turn; no other change (R120, R58). -/
def delay (n : Nat) (s : State) : State := s.envTurn.emit (.delay n)

/-- Go on after an access; a Fault ends the step (R63). -/
def Access.andThen {α : Type} (a : Access α) (k : α → State → Host.Outcome State Fault Refusal) :
    Host.Outcome State Fault Refusal :=
  match a with
  | .ok v s => k v s
  | .fault s => .next s

/-! ### Failures, completion and reset -/

/-- Refusing an illegal header (R74, R155): the result fields are cleared and `res_illegal` set, `Rej` and
`Done` are emitted, and nothing else changes. -/
def reject (h : Word) (s : State) : State :=
  (({ s with res := Result.refusedHeader }.emit (.rej h)).emit (.done Result.refusedHeader.word))

/-- The record of an aborted write call (R102 label S6, R153): `Diag`, and the result fields if it is the
command's first. -/
def recordAbort (s : State) : State :=
  { s with res := s.res.recordAbort s.cause s.callNo s.idx }.emit (.diag s.callNo s.idx s.cause)

/-- The end of a command run by write calls: `Done(result)`, back to IDLE (R111, R130), and the ghost
display state moves (R136). -/
def finish (s : State) : State :=
  { s with phase := .idle, disp := s.disp.after s.op s.res.fail }.emit (.done s.res.word)

/-- The effect of `rst` (R170): the values of R38; the parameters, the environment (but for R65 e), the host
and the count of free values are not the block's to reset. The input is released (log 9). The history that
ends here goes to the ghost `past`, with whether a command was in flight (log 20). -/
def applyReset (s : State) : State :=
  { State.reset with
    par   := s.par
    env   := s.env.afterReset
    host  := s.host
    draws := s.draws
    past  := s.past ++ [{ events := s.hist, cut := s.busy }] }

end Sys2Proof.Machine
end

