-- ==== Sys2Proof/Machine/Sequencer.lean ====
section
/-! DEFINITION. The sequencer as transitions (R111): command acceptance, the start and end of a write call,
and the action of every phase. One row of the table is one step, with at most one access or delay. -/

namespace Sys2Proof.Machine

/-- start_call (R111): an empty list of calls finishes the command, a buffer whose `n` is 0 is passed over,
and any other becomes the current write call with a fresh budget for its first byte. -/
def startCall : List (List Byte) → State → State
  | [], s => finish { s with calls := [] }
  | buf :: later, s =>
    if countOf buf = 0 then startCall later { s with callNo := s.callNo + 1, buf := buf, n := 0, idx := 0 }
    else
      { s with
        calls   := later
        buf     := buf
        n       := countOf buf
        idx     := 0
        retries := Config.retryInit
        cause   := .none
        phase   := .wBuild }

/-- end_call (R111). It adds 1 to `callNo` after the last call too, as R111 writes it, so that after the six
calls of CLEAR_DISPLAY `callNo` is 6 in IDLE, where R31 and R113 say at most 5: DESIGN CHOICE (log 21). -/
def endCall (s : State) : State := startCall s.calls { s with callNo := s.callNo + 1 }

/-- What every accepted command does first (R111 row IDLE): `Acc`, result fields cleared, call_no 0. -/
def acceptHeader (op : Op) (payload : List Byte) (s : State) : State :=
  { s with res := .clear, callNo := 0, op := op }.emit (.acc op payload.length payload)

/-- Accepting a command that is a list of write calls (R111, R130). A header offered while the block is
BUSY waits and changes nothing (R181, log 10). -/
def acceptCalls (op : Op) (payload : List Byte) (calls : List (List Byte)) (s : State) : State :=
  if s.phase = .idle then startCall calls (acceptHeader op payload s) else s

/-- Accepting INIT: on to phase I1 (R100, R111). -/
def acceptInit (s : State) : State :=
  if s.phase = .idle then { acceptHeader .init [] s with phase := .i1 } else s

/-- One step of INIT: a register write, then the next phase (R100, R111). -/
def initStep (r : Reg) (v : Word) (next : Phase) (s : State) : Host.Outcome State Fault Refusal :=
  (regWrite r v s).andThen fun _ t => .next { t with phase := next }

/-- Phase I5: ENABLE is written 1, then `Done(0)` (R100, R111). -/
def initLast (s : State) : Host.Outcome State Fault Refusal :=
  (regWrite .enable 0x00000001 s).andThen fun _ t =>
    .next ({ t with phase := .idle }.emit (.done 0x00000000))

/-- Phase W_BUILD, step S1: the word of the current byte, and the poll counter loaded (R103, R111). -/
def buildStep (s : State) : Host.Outcome State Fault Refusal :=
  match s.buf[s.idx.toNat]? with
  | some b =>
    .next { s with
      word    := fifoWord b (s.idx + 1 == s.n)
      pollCnt := Config.pollInit
      phase   := .wPoll }
  | none => .fault .noSuchByte

/-- What one read of STATUS does to the poll (R104): not full ends it; full costs one count, and the tenth
costs one retry and ends it all the same. -/
def pollResult (v : Word) (s : State) : State :=
  if tfnf v then { s with phase := .wIssue }
  else if s.pollCnt - 1 = 0 then
    { s with
      pollCnt := 0
      retries := s.retries - 1
      cause   := .fifoTimeout
      phase   := .wIssue }
  else { s with pollCnt := s.pollCnt - 1 }

/-- Phase W_POLL, step S2 (R104). -/
def pollStep (s : State) : Host.Outcome State Fault Refusal :=
  (regRead .status s).andThen fun v t => .next (pollResult v t)

/-- Phase W_ISSUE, step S3 (R105). -/
def issueStep (s : State) : Host.Outcome State Fault Refusal :=
  (regWrite .dataCmd s.word s).andThen fun _ t => .next { t with phase := .wPace }

/-- Phase W_PACE, step S4 (R106). -/
def paceStep (s : State) : Host.Outcome State Fault Refusal :=
  .next { delay s.par.paceN s with phase := .wCheck }

/-- Step S5: an observed abort bit costs one retry, never below 0 (R107). -/
def chargeAbort (aborted : Bool) (s : State) : State :=
  if aborted then { s with retries := satdec s.retries, cause := .txAborted } else s

/-- Step S6 gives the call up: no retry is left, and the abort bit was read set or ZERO_POLICY is ABORT
(R108, D14). -/
def givesUp (aborted : Bool) (s : State) : Bool :=
  s.retries == 0 && (aborted || s.par.zeroPolicy == .abort)

/-- Step S6 after the charge (R108, R111 row W_CHECK): give the call up, or repeat the byte, or end the
call after its last byte, or go on to the next byte with a fresh budget (R109). -/
def settle (aborted : Bool) (s : State) : State :=
  if givesUp aborted s then endCall (recordAbort s)
  else if aborted then { s with phase := .wBuild }
  else if s.idx + 1 = s.n then endCall s
  else { s with idx := s.idx + 1, retries := Config.retryInit, cause := .none, phase := .wBuild }

/-- What the read of RAW_INTR_STAT decides, steps S5 and S6 (R107, R108). -/
def checkResult (v : Word) (s : State) : State := settle (abrt v) (chargeAbort (abrt v) s)

/-- Phase W_CHECK (R107, R108). -/
def checkStep (s : State) : Host.Outcome State Fault Refusal :=
  (regRead .rawIntrStat s).andThen fun v t => .next (checkResult v t)

/-- The action of each phase (R111). In IDLE the block waits for a header; in FAULT it does nothing, ever. -/
def sequencerStep (s : State) : Host.Outcome State Fault Refusal :=
  match s.phase with
  | .idle   => .next s
  | .i1     => initStep .funcsel s.par.funcselI2c .i2 s
  | .i2     => initStep .enable 0x00000000 .i3 s
  | .i3     => initStep .ctrl s.par.ctrlInit .i4 s
  | .i4     => initStep .tar 0x0000003C .i5 s
  | .i5     => initLast s
  | .wBuild => buildStep s
  | .wPoll  => pollStep s
  | .wIssue => issueStep s
  | .wPace  => paceStep s
  | .wCheck => checkStep s
  | .fault  => .next s

end Sys2Proof.Machine
end

