-- ==== Sys2Proof/Machine/Display.lean ====
section
/-! DEFINITION. The meanings of the five operations of the frame assembler (R131 to R135): each is its list
of write calls (R130). -/

namespace Sys2Proof.Machine

/-- SEND_COMMAND c (R131): three write calls. -/
def execSendCommand (c : List Byte) (s : State) : Host.Outcome State Fault Refusal :=
  .next (acceptCalls .sendCommand c (sendCommandCalls s.par c) s)

/-- SEND_DATA d (R132): three write calls. -/
def execSendData (d : List Byte) (s : State) : Host.Outcome State Fault Refusal :=
  .next (acceptCalls .sendData d (sendDataCalls s.par d) s)

/-- INIT_DISPLAY (R133): one write call of sixteen bytes. -/
def execInitDisplay (s : State) : Host.Outcome State Fault Refusal :=
  .next (acceptCalls .initDisplay [] (initDisplayCalls s.par) s)

/-- CLEAR_DISPLAY (R134): six write calls. -/
def execClearDisplay (s : State) : Host.Outcome State Fault Refusal :=
  .next (acceptCalls .clearDisplay [] (clearDisplayCalls s.par) s)

/-- DISPLAY_TEXT t (R135): one write call of the control byte and at most TEXT_MAX text bytes. -/
def execDisplayText (t : List Byte) (s : State) : Host.Outcome State Fault Refusal :=
  .next (acceptCalls .displayText t (displayTextCalls s.par t) s)

end Sys2Proof.Machine
end

