-- ==== Sys2Proof/Machine/Master.lean ====
section
/-! DEFINITION. The meanings of INIT and WRITE (R100, R102): what the block does when it takes the command.
The phases that follow are Sequencer.lean's (R111). -/

namespace Sys2Proof.Machine

/-- INIT (R100): accepted with no payload, then the five writes of phases I1 to I5. -/
def execInit (s : State) : Host.Outcome State Fault Refusal := .next (acceptInit s)

/-- WRITE buf (R102): one write call. -/
def execWrite (buf : List Byte) (s : State) : Host.Outcome State Fault Refusal :=
  .next (acceptCalls .write buf (writeCalls buf) s)

end Sys2Proof.Machine
end

