-- ==== Sys2Proof/Machine/Dispatch.lean ====
section
/-! DEFINITION. One arm per command of the opcode table. -/

namespace Sys2Proof.Machine

def exec (i : Instr) (s : State) : Host.Outcome State Fault Refusal :=
  match i with
  | .init => Sys2Proof.Machine.execInit s
  | .write buf => Sys2Proof.Machine.execWrite buf s
  | .sendCommand c => Sys2Proof.Machine.execSendCommand c s
  | .sendData d => Sys2Proof.Machine.execSendData d s
  | .initDisplay => Sys2Proof.Machine.execInitDisplay s
  | .clearDisplay => Sys2Proof.Machine.execClearDisplay s
  | .displayText t => Sys2Proof.Machine.execDisplayText t s

end Sys2Proof.Machine
end

