-- ==== Sys2Proof/Machine/Fetch.lean ====
section
/-! DEFINITION. Taking the offer that stands on the host port (R6 c, R61, R181). -/

namespace Sys2Proof.Machine

/-- What the host port gives a block that is IDLE. -/
inductive Fetched where
  /-- Nothing complete is on offer: the block waits in IDLE (R171, log 8). -/
  | wait
  /-- A legal command was taken. -/
  | run (i : Instr) (s : State)
  /-- An illegal header was taken, and none of its payload (R74). -/
  | illegal (h : Word) (s : State)

/-- Take the offer at the head of the port (R73, R74). -/
def fetch (s : State) : Fetched :=
  match s.host with
  | [] => .wait
  | o :: later =>
    match decode o with
    | .ok i => .run i { s with host := later }
    | .error (.illegal _) => .illegal o.header { s with host := later }
    | .error .incomplete => .wait

end Sys2Proof.Machine
end

