-- ==== Sys2Proof/Machine/Step.lean ====
section
/-! DEFINITION. One step of the machine: a reset if it is asserted (R170), else one row of the transition
table (R111). -/

namespace Sys2Proof.Machine

/-- The row IDLE of R111: a legal command is executed, an illegal header refused, else the block waits. -/
def idleStep (s : State) : Host.Outcome State Fault Refusal :=
  match fetch s with
  | .wait => .next s
  | .run i t => exec i t
  | .illegal h t => .next (reject h t)

/-- One step. -/
def step (s : State) : Host.Outcome State Fault Refusal :=
  if s.rst then .next (applyReset s)
  else if s.phase = .idle then idleStep s
  else sequencerStep s

/-- `s` with the numbered instruction on offer first, reset released and the block in IDLE, so that the
next step takes it (log 8, log 17). -/
def State.withFetchWord (s : State) (nbits w : Nat) : State :=
  { s with host := offerOfBits nbits w :: s.host, phase := .idle, rst := false }

end Sys2Proof.Machine
end

