-- ==== Sys2Proof/Machine/Bus.lean ====
section
/-! DEFINITION. What the bus may be said to carry (R137): clean histories (R9), the words offered, their
projection onto transactions, and the premises without which the projection is refused (R114, R170, R177, D34).
The form is the model's (log 20). -/

namespace Sys2Proof.Machine

/-! ### Words offered -/

/-- The word of a write to DATA_CMD. -/
def Event.dataWord : Event → Option Word
  | .wr .dataCmd w => some w
  | _ => none

/-- The FIFO command words of a history, in order (R11). -/
def dataWords (es : List Event) : List Word := es.filterMap Event.dataWord

/-! ### Clean histories -/

/-- No retry is consumed in a history (R9): no abort bit is read set, and never do ten reads of STATUS in a
row return "full"; `k` counts those just read. -/
def cleanFrom : Nat → List Event → Bool
  | _, [] => true
  | k, .rd .status v :: es => if tfnf v then cleanFrom 0 es else decide (k + 1 < 10) && cleanFrom (k + 1) es
  | _, .rd .rawIntrStat v :: es => !abrt v && cleanFrom 0 es
  | _, .wr _ _ :: es => cleanFrom 0 es
  | k, _ :: es => cleanFrom k es

/-- A clean history (R9). -/
abbrev Clean (es : List Event) : Prop := cleanFrom 0 es = true

/-! ### Transactions -/

/-- The direction of a transaction; the block is write-only (R4 b). -/
inductive Direction where
  | write
  | read
deriving DecidableEq, Repr

/-- A start/stop-bounded transaction (R137). -/
structure Transaction where
  address   : BitVec 7
  direction : Direction
  data      : List Byte
deriving DecidableEq, Repr

/-- A transaction of the block: in the write direction (R137). -/
def writeTransaction (address : BitVec 7) (data : List Byte) : Transaction :=
  { address := address, direction := .write, data := data }

/-- Words split into transactions after each word whose bit 9 is 1; `cur` holds the data bytes of the
transaction under way, and one that is still open at the end is not counted (R137). -/
def transactionsFrom (address : BitVec 7) (cur : List Byte) : List Word → List Transaction
  | [] => []
  | w :: ws =>
    if wordStop w then writeTransaction address (cur ++ [wordByte w]) :: transactionsFrom address [] ws
    else transactionsFrom address (cur ++ [wordByte w]) ws

/-- The transactions of a sequence of FIFO command words, addressed to `address` (R137). -/
def transactions (address : BitVec 7) (ws : List Word) : List Transaction := transactionsFrom address [] ws

/-- The 7-bit address TAR holds, bits 6:0 (R23). -/
def RegSet.targetAddress (g : RegSet) : BitVec 7 := g.tar.val.extractLsb' 0 7

/-! ### The run, over resets -/

/-- A run as one sequence: what the block did, the resets and whether each cut a command off (R170), and, in a
run with the sending written in, the words the environment sent to the bus. -/
inductive RunEvent where
  | block (e : Event)
  | reset (cut : Bool)
  | sent (w : Word)
deriving DecidableEq, Repr

/-- The word a run event offers. -/
def RunEvent.offered : RunEvent → Option Word
  | .block e => e.dataWord
  | .reset _ => none
  | .sent _ => none

/-- The word a run event sends. -/
def RunEvent.sentWord : RunEvent → Option Word
  | .block _ => none
  | .reset _ => none
  | .sent w => some w

/-- Whether a run event is the block's, not the environment's sending. -/
def RunEvent.isOfBlock (e : RunEvent) : Bool := e.sentWord.isNone

/-- The words offered in a run, in order. -/
def offeredWords (run : List RunEvent) : List Word := run.filterMap RunEvent.offered

/-- The words sent in a run, in order. -/
def sentWords (run : List RunEvent) : List Word := run.filterMap RunEvent.sentWord

/-- A stretch of the run with the reset that ended it. -/
def Epoch.run (e : Epoch) : List RunEvent := e.events.map .block ++ [.reset e.cut]

/-- The whole run of the block: the stretches that resets ended, then the history (R11, R170). -/
def State.run (s : State) : List RunEvent := s.past.flatMap Epoch.run ++ s.hist.map .block

/-! ### The premises -/

/-- The storage registers are as the launch premise of a claim about the bus asks (R114): the last write to
ENABLE was 1, and CTRL, TAR and FUNCSEL hold their INIT values. -/
abbrev RegSet.Configured (g : RegSet) (p : Params) : Prop :=
  g.enable.get = some 0x00000001 ∧ g.ctrl.get = some p.ctrlInit ∧ g.tar.get = some 0x0000003C ∧
    g.funcsel.get = some p.funcselI2c

/-- The launch premise of any claim about the bus (R114). -/
abbrev State.BusPremise (s : State) : Prop := s.regs.Configured s.par

/-- The storage registers after an event (R56). -/
def Event.applied (g : RegSet) : Event → RegSet
  | .wr r v => g.write v r
  | _ => g

/-- The storage registers after the events of a history since reset. -/
def regsAfter (es : List Event) : RegSet := es.foldl Event.applied .reset

/-- The storage registers hold what the history since reset says was written to them (R57, R91). -/
def State.RegsRecorded (s : State) : Prop := s.regs = regsAfter s.hist

/-- Every word is offered under the launch premise, the storage registers being `g` at the start: of words
offered before an INIT no claim is made (R114, U6). -/
def underPremise (p : Params) : RegSet → List Event → Bool
  | _, [] => true
  | g, e :: es => (e.dataWord.isNone || decide (g.Configured p)) && underPremise p (e.applied g) es

/-- A stretch of the run of which the bus may be spoken: every write call clean (R137, R177), every word
offered under the launch premise (R114). -/
abbrev Speakable (p : Params) (es : List Event) : Prop := Clean es ∧ underPremise p .reset es = true

/-- The run so far is one of which the bus may be spoken, and no reset came in the middle of a command
(R170). -/
abbrev State.RunSpeakable (s : State) : Prop :=
  Speakable s.par s.hist ∧ ∀ e ∈ s.past, Speakable s.par e.events ∧ e.cut = false

/-- A claim about the bus may be made: no command is under way, the launch premise holds, and the run is one of
which the bus may be spoken. The spec does not say whether a write call that has not ended is clean (R9, R137,
R177): DESIGN CHOICE, no claim is made while the block is BUSY (log 20). -/
abbrev State.BusClaims (s : State) : Prop := s.busy = false ∧ s.BusPremise ∧ s.RunSpeakable

/-- A write to a storage register, as INIT makes them. -/
def Event.isConfiguration : Event → Bool
  | .wr .funcsel _ => true
  | .wr .ctrl _ => true
  | .wr .tar _ => true
  | .wr .enable _ => true
  | _ => false

/-- The environment sends every word it is offered, in order (R137), and has sent all of them by each write of
an INIT that comes after them (U5); `pending` holds the words offered and not yet sent. -/
def sendsInOrder (pending : List Word) : List RunEvent → Bool
  | [] => pending.isEmpty
  | .sent w :: run =>
    match pending with
    | [] => false
    | q :: later => q == w && sendsInOrder later run
  | .reset _ :: run => sendsInOrder pending run
  | .block e :: run =>
    (!e.isConfiguration || pending.isEmpty) && sendsInOrder (pending ++ e.dataWord.toList) run

/-! ### The claim -/

/-- What the bus has carried in a run given with the environment's sending written in: an answer only for the
run of this state, only if a claim may be made of it, and only of an environment that sends in order;
otherwise the claim is refused (R137, D34). While a command is under way it is refused (DESIGN CHOICE, log 20). -/
def State.carried (s : State) (run : List RunEvent) : Option (List Transaction) :=
  if s.BusClaims ∧ run.filter RunEvent.isOfBlock = s.run ∧ sendsInOrder [] run = true then
    some (transactions s.regs.targetAddress (offeredWords run))
  else none

end Sys2Proof.Machine
end

