-- ==== Sys2Proof/Machine/Pseudocode.lean ====
section
/-! DEFINITION. The pseudocode of R100, R102 and R130 as one function over a whole command. The machine does
not call it: it is the other formulation the spec gives of the same behaviour, which R111 unfolds into steps,
and the statements compare the two. -/

namespace Sys2Proof.Machine

/-- How a piece of pseudocode ends: it goes on, an access raised Fault (R63), or the bound on the attempts at
a byte, which R112 b gives, was not enough. -/
inductive Flow where
  | go (s : State)
  | raised (s : State)
  | stuck
deriving DecidableEq, Repr

/-- Sequencing. -/
def Flow.next (f : Flow) (k : State → Flow) : Flow :=
  match f with
  | .go s => k s
  | .raised s => .raised s
  | .stuck => .stuck

/-- A register access inside pseudocode. -/
def Access.flow {α : Type} (a : Access α) (k : α → State → Flow) : Flow :=
  match a with
  | .ok v s => k v s
  | .fault s => .raised s

/-- `RegWrite(r, v)` as a statement (R8). -/
def writeStmt (r : Reg) (v : Word) (s : State) : Flow := (regWrite r v s).flow fun _ t => .go t

/-- The loop of S2, at most `k` more reads (R102, R104). -/
def pollLoop : Nat → State → Flow
  | 0, s => .go s
  | k + 1, s =>
    (regRead .status s).flow fun v t =>
      if tfnf v then .go t
      else
        let u := { t with pollCnt := t.pollCnt - 1 }
        if u.pollCnt = 0 then .go { u with retries := u.retries - 1, cause := .fifoTimeout }
        else pollLoop k u

/-- S1 to S5: one attempt at a byte (R102). `k` receives the abort bit read and the state after it. -/
def attemptOnce (b : Byte) (last : Bool) (s : State) (k : Bool → State → Flow) : Flow :=
  (pollLoop 10 { s with word := fifoWord b last, pollCnt := Config.pollInit }).next fun t =>
    (writeStmt .dataCmd t.word t).next fun t =>
      (regRead .rawIntrStat (delay t.par.paceN t)).flow fun r t =>
        if abrt r then k true { t with retries := satdec t.retries, cause := .txAborted }
        else k false t

/-- The attempts at one byte with S6 after each, at most `k` of them (R102, R112 b). A call that is given
up returns at once; a byte that counts as sent goes on with `sent`. -/
def sendByte : Nat → Byte → Bool → State → (State → Flow) → Flow
  | 0, _, _, _, _ => .stuck
  | k + 1, b, last, s, sent =>
    attemptOnce b last s fun aborted t =>
      if t.retries = 0 ∧ (aborted = true ∨ t.par.zeroPolicy = .abort) then .go (recordAbort t)
      else if aborted then sendByte k b last t sent
      else sent t

/-- "For each byte in order", with a fresh budget per byte (R102, R109). -/
def writeBytes : List Byte → State → Flow
  | [], s => .go s
  | b :: rest, s =>
    sendByte 3 b (s.idx == s.n - 1) { s with retries := Config.retryInit, cause := .none } fun t =>
      if rest = [] then .go t else writeBytes rest { t with idx := t.idx + 1 }

/-- WriteCall(buf) (R102), over the bytes `n` counts. -/
def writeCall (buf : List Byte) (s : State) : Flow :=
  writeBytes (callBytes buf) { s with buf := buf, n := countOf buf, idx := 0 }

/-- WriteCall on every buffer of the list in order, whatever the earlier ones did (R130, D17). -/
def writeCallList : List (List Byte) → State → Flow
  | [], s => .go { s with calls := [] }
  | c :: later, s =>
    (writeCall c { s with calls := later }).next fun t =>
      writeCallList later { t with callNo := t.callNo + 1 }

/-- The table of R130; INIT is no expansion. -/
def callsOf (p : Params) : Instr → List (List Byte)
  | .init => []
  | .write buf => [buf]
  | .sendCommand c => [[p.addrByte], [0x00], c]
  | .sendData d => [[p.addrByte], [0x40], d]
  | .initDisplay => [[0x00] ++ p.initCmds.toList]
  | .clearDisplay =>
    [[p.addrByte], [0x00], p.windowCmds, [p.addrByte], [0x40], List.replicate (8 * 64) 0xFF]
  | .displayText t => [[0x40] ++ t.take p.textMax]

/-- The five writes of INIT (R100). -/
def initPseudocode (s : State) : Flow :=
  (writeStmt .funcsel s.par.funcselI2c (acceptHeader .init [] s)).next fun t =>
    (writeStmt .enable 0x00000000 t).next fun t =>
      (writeStmt .ctrl t.par.ctrlInit t).next fun t =>
        (writeStmt .tar 0x0000003C t).next fun t =>
          (writeStmt .enable 0x00000001 t).next fun t => .go (t.emit (.done 0x00000000))

/-- A whole command as pseudocode (R100, R102, R130). -/
def commandPseudocode (i : Instr) (s : State) : Flow :=
  match i with
  | .init => initPseudocode s
  | i =>
    (writeCallList (callsOf s.par i) (acceptHeader i.op i.payload s)).next fun t => .go (finish t)

end Sys2Proof.Machine
end

