-- ==== Sys2Proof/Safety.lean ====
section
/-! DEFINITION. The vocabulary of the statements: running steps, commands that complete, counting events, the
histories and words a command should have, and the invariant of the machine. -/

namespace Sys2Proof.Machine

/-! ### Runs -/

/-- `k` steps, ending early at a stop. -/
def runSteps : Nat → State → Host.Outcome State Fault Refusal
  | 0, s => .next s
  | k + 1, s =>
    match step s with
    | .next t => runSteps k t
    | .fault r => .fault r
    | .refused r => .refused r

/-- The command `i` taken in `s` brings the block back to IDLE, for the first time, in `u`, `k` steps after
its acceptance. -/
def CompletesIn (k : Nat) (i : Instr) (s u : State) : Prop :=
  ∃ t, exec i s = .next t ∧ runSteps k t = .next u ∧ u.phase = .idle ∧
    ∀ j < k, ∃ v, runSteps j t = .next v ∧ v.phase ≠ .idle

/-- The command completes, in whatever number of steps. -/
def Completes (i : Instr) (s u : State) : Prop := ∃ k, CompletesIn k i s u

/-- The commands complete one after another, the next one taken in the state the one before leaves. -/
def CompletesAll : List Instr → State → State → Prop
  | [], s, u => u = s
  | i :: later, s, u => ∃ t, Completes i s t ∧ CompletesAll later t u

/-- The events `u` has beyond those of `s`. -/
def newEvents (s u : State) : List Event := u.hist.drop s.hist.length

/-- The number of bytes a command hands to write calls (R130). -/
def bytesOf (p : Params) (i : Instr) : Nat := ((callsOf p i).map List.length).sum

/-- WINDOW_LEN and TEXT_MAX within what the 16 bits of `n` can count, the control byte of DISPLAY_TEXT with the
text (R30, R102); a bound R5 does not give, named by the statements that need it (log 11). -/
abbrev BuffersFit (p : Params) : Prop :=
  payloadFits p.windowCmds ∧ p.textMax + 1 ≤ Config.lenMax

/-- The block is ready for a command: in IDLE, reset released, the controller present (R32, R63). -/
def State.Ready (s : State) : Prop := s.phase = .idle ∧ s.rst = false ∧ s.env ≠ .absent

/-! ### Events -/

/-- A read of STATUS. -/
def Event.isStatusRead : Event → Bool
  | .rd .status _ => true
  | _ => false

/-- A read of RAW_INTR_STAT. -/
def Event.isRawRead : Event → Bool
  | .rd .rawIntrStat _ => true
  | _ => false

/-- A delay. -/
def Event.isDelay : Event → Bool
  | .delay _ => true
  | _ => false

/-- A register access. -/
def Event.isAccess : Event → Bool
  | .wr _ _ => true
  | .rd _ _ => true
  | _ => false

/-- A completion. -/
def Event.isDone : Event → Bool
  | .done _ => true
  | _ => false

/-- A diagnostic. -/
def Event.isDiag : Event → Bool
  | .diag _ _ _ => true
  | _ => false

/-- The table of R93: the register accesses the block can ever make, with their values. -/
def Event.listedAccess (p : Params) : Event → Prop
  | .wr .funcsel v => v = p.funcselI2c
  | .wr .enable v => v = 0x00000000 ∨ v = 0x00000001
  | .wr .ctrl v => v = p.ctrlInit
  | .wr .tar v => v = 0x0000003C
  | .wr .dataCmd v => v.toNat ≤ 0x0FF ∨ (0x200 ≤ v.toNat ∧ v.toNat ≤ 0x2FF)
  | .wr .rawIntrStat _ => False
  | .wr .status _ => False
  | .rd r _ => r = .status ∨ r = .rawIntrStat
  | _ => True

/-! ### Words -/

/-- The words of a buffer in order, bit 9 on the last and on no other (R75, R112 f). -/
def bufferWords : List Byte → List Word
  | [] => []
  | [b] => [fifoWord b true]
  | b :: b' :: rest => fifoWord b false :: bufferWords (b' :: rest)

/-- The events of one byte under ENV_IDEAL (R65, R102). -/
def idealByteTrace (p : Params) (w : Word) : List Event :=
  [.rd .status 0x2, .wr .dataCmd w, .delay p.paceN, .rd .rawIntrStat 0x0]

/-- The events of a list of write calls under ENV_IDEAL (R102, R130). -/
def idealTrace (p : Params) (calls : List (List Byte)) : List Event :=
  calls.flatMap fun c => (bufferWords (callBytes c)).flatMap (idealByteTrace p)

/-! ### The invariant -/

/-- A write call is under way at one of the bytes `n` counts (R30, R31); it and the calls to come are at most
six (R30, R31); and a consumed retry has a cause (R30). -/
def State.InCall (s : State) : Prop :=
  s.n = countOf s.buf ∧ s.idx.toNat < s.n.toNat ∧ s.callNo.toNat + s.calls.length ≤ 5 ∧
    (s.retries ≠ Config.retryInit → s.cause ≠ .none) ∧ s.res.illegal = false

/-- `word` is the FIFO command word of the current byte (R103). -/
def State.WordIsCurrent (s : State) : Prop :=
  ∃ b, s.buf[s.idx.toNat]? = some b ∧ s.word = fifoWord b (decide (s.idx + 1 = s.n))

/-- INIT is under way with no result recorded (R100). -/
def State.InInit (s : State) : Prop := s.res = .clear ∧ s.op = .init

/-- What each phase may rely on: the counters in their ranges (R112 a, R122), the word built (R103), and the
enable order of INIT (R26, R101). -/
def State.PhaseInv (s : State) : Prop :=
  match s.phase with
  | .idle => True
  | .i1 => s.InInit
  | .i2 => s.InInit ∧ s.regs.funcsel.get = some s.par.funcselI2c
  | .i3 => s.InInit ∧ s.regs.funcsel.get = some s.par.funcselI2c ∧ s.regs.enable.get = some 0x00000000
  | .i4 => s.InInit ∧ s.regs.funcsel.get = some s.par.funcselI2c ∧ s.regs.enable.get = some 0x00000000 ∧
      s.regs.ctrl.get = some s.par.ctrlInit
  | .i5 => s.InInit ∧ s.regs.funcsel.get = some s.par.funcselI2c ∧ s.regs.enable.get = some 0x00000000 ∧
      s.regs.ctrl.get = some s.par.ctrlInit ∧ s.regs.tar.get = some 0x0000003C
  | .wBuild => s.InCall ∧ 1 ≤ s.retries.toNat
  | .wPoll => s.InCall ∧ 1 ≤ s.retries.toNat ∧ s.WordIsCurrent ∧ 1 ≤ s.pollCnt.toNat ∧ s.pollCnt.toNat ≤ 10
  | .wIssue => s.InCall ∧ s.WordIsCurrent
  | .wPace => s.InCall ∧ s.WordIsCurrent
  | .wCheck => s.InCall ∧ s.WordIsCurrent
  | .fault => True

/-- A storage register holds one of the words the block ever writes to it (R93). -/
def State.RegsInv (s : State) : Prop :=
  (∀ v, s.regs.funcsel.get = some v → v = s.par.funcselI2c) ∧
  (∀ v, s.regs.ctrl.get = some v → v = s.par.ctrlInit) ∧
  (∀ v, s.regs.tar.get = some v → v = 0x0000003C) ∧
  (∀ v, s.regs.enable.get = some v → v = 0x00000000 ∨ v = 0x00000001)

/-- The result fields are consistent (R32): a failure has a cause, no failure leaves the others 0, and an
illegal header is no failure. -/
def State.ResultInv (s : State) : Prop :=
  (s.res.fail = true → s.res.cause ≠ .none ∧ s.res.illegal = false) ∧
  (s.res.fail = false → s.res.cause = .none ∧ s.res.call = 0 ∧ s.res.idx = 0)

/-- The reference environment's FIFO holds at most FIFO_DEPTH words (R65). -/
def State.EnvInv (s : State) : Prop :=
  match s.env with
  | .reference r => r.fifo.length ≤ s.par.fifoDepth
  | _ => True

/-- The invariant every step keeps. -/
def State.Inv (s : State) : Prop := s.PhaseInv ∧ s.RegsInv ∧ s.ResultInv ∧ s.EnvInv

end Sys2Proof.Machine
end

