-- ==== Sys2Proof/Certificates/Slice0/Obligations.lean ====
section
/-! DEFINITION. The statements about the model, one per obligation; each docstring names the rule of the
spec it formalises. -/

open Sys2Proof Sys2Proof.Machine

/-! ### Encoding -/

/-- R70, R72, R81: decoding the header and payload of a command gives the command back, with every payload
the 16-bit LEN field admits. -/
def Obligations.DecodeOfEncodeIsTheCommand : Prop :=
  ∀ i : Instr, i.WellFormed → decode (encode i) = .ok i

/-- The other direction: whatever is decoded is well formed and encodes to the header that was on offer and
to the LEN beats taken. -/
def Obligations.EncodeOfDecodeIsTheOffer : Prop :=
  ∀ (o : Offer) (i : Instr), decode o = .ok i →
    i.WellFormed ∧ (encode i).header = o.header ∧
      (encode i).payload = o.payload.take (headerLen o.header).toNat

/-- R73: which headers are legal, by fields and in match-and-mask form, the seven patterns disjoint, and the
command occupying the header and LEN payload beats. -/
def Obligations.LegalHeadersAreTheSevenPatterns : Prop :=
  ∀ h : Word,
    ((∃ op len, decodeHeader h = .ok (op, len)) ↔
      h.extractLsb' 4 12 = 0 ∧ (h.extractLsb' 0 4).toNat ≤ 6 ∧
        ((h.extractLsb' 0 4 = 0 ∨ h.extractLsb' 0 4 = 4 ∨ h.extractLsb' 0 4 = 5) →
          h.extractLsb' 16 16 = 0)) ∧
    ((∃ len, decodeHeader h = .ok (.init, len)) ↔ h &&& 0xFFFFFFFF = 0x00000000) ∧
    ((∃ len, decodeHeader h = .ok (.initDisplay, len)) ↔ h &&& 0xFFFFFFFF = 0x00000004) ∧
    ((∃ len, decodeHeader h = .ok (.clearDisplay, len)) ↔ h &&& 0xFFFFFFFF = 0x00000005) ∧
    ((∃ len, decodeHeader h = .ok (.write, len)) ↔ h &&& 0x0000FFFF = 0x00000001) ∧
    ((∃ len, decodeHeader h = .ok (.sendCommand, len)) ↔ h &&& 0x0000FFFF = 0x00000002) ∧
    ((∃ len, decodeHeader h = .ok (.sendData, len)) ↔ h &&& 0x0000FFFF = 0x00000003) ∧
    ((∃ len, decodeHeader h = .ok (.displayText, len)) ↔ h &&& 0x0000FFFF = 0x00000006) ∧
    (∀ r ∈ opcodeRows, ∀ r' ∈ opcodeRows, r.fits h → r'.fits h → r = r') ∧
    (∀ op len, decodeHeader h = .ok (op, len) →
      len = (h.extractLsb' 16 16).toNat ∧
      ∀ payload : List Byte, len ≤ payload.length →
        decode { header := h, payload := payload } = .ok (op.instr (payload.take len)))

/-- R70, R72: words written out from the encoding decode to the commands they stand for, and words with a
reserved code, a reserved bit or a forbidden length do not decode. -/
def Obligations.WrittenOutHeadersDecode : Prop :=
  decode { header := 0b00000000000000000000000000000000, payload := [] } = .ok .init ∧
  decode { header := 0b00000000000000100000000000000001, payload := [0x41, 0x42] } =
    .ok (.write [0x41, 0x42]) ∧
  decode { header := 0b00000000000000010000000000000010, payload := [0xAE] } =
    .ok (.sendCommand [0xAE]) ∧
  decode { header := 0b00000000000000100000000000000011, payload := [0xFF, 0xFF] } =
    .ok (.sendData [0xFF, 0xFF]) ∧
  decode { header := 0b00000000000000000000000000000100, payload := [] } = .ok .initDisplay ∧
  decode { header := 0b00000000000000000000000000000101, payload := [] } = .ok .clearDisplay ∧
  decode { header := 0b00000000000000100000000000000110, payload := [0x48, 0x69] } =
    .ok (.displayText [0x48, 0x69]) ∧
  decode { header := 0x00000007, payload := [] } = .error (.illegal .reservedOp) ∧
  decode { header := 0x00020011, payload := [0x41, 0x42] } = .error (.illegal .reservedBits) ∧
  decode { header := 0x00010000, payload := [0x00] } = .error (.illegal .lengthNotZero)

/-- R81: the assembled header is `(LEN << 16) | OP`. -/
def Obligations.EncodedHeaderIsLengthAndCode : Prop :=
  ∀ i : Instr, i.WellFormed →
    (encode i).header = BitVec.ofNat 32 (i.payload.length * 65536 + i.op.code.toNat) ∧
    headerOp (encode i).header = i.op.code ∧ headerRsv (encode i).header = 0 ∧
    (headerLen (encode i).header).toNat = i.payload.length

/-- R75: the FIFO command word of a byte and its last-flag, field by field, its range, and its decoding. -/
def Obligations.FifoWordCarriesByteAndStopFlag : Prop :=
  ∀ (b : Byte) (last : Bool),
    (fifoWord b last).extractLsb' 0 8 = b ∧ (fifoWord b last).getLsbD 8 = false ∧
    (fifoWord b last).getLsbD 9 = last ∧ (fifoWord b last).extractLsb' 10 22 = 0 ∧
    (last = false → (fifoWord b last).toNat = b.toNat) ∧
    (last = true → (fifoWord b last).toNat = 0x200 + b.toNat) ∧
    wordByte (fifoWord b last) = b ∧ wordStop (fifoWord b last) = last

/-- R82: the fields of the result word. -/
def Obligations.ResultWordFields : Prop :=
  ∀ r : Result,
    r.word.getLsbD 0 = r.fail ∧
    r.word.extractLsb' 1 2 = (match r.cause with | .none => 0 | .fifoTimeout => 1 | .txAborted => 2) ∧
    r.word.getLsbD 3 = r.illegal ∧ r.word.extractLsb' 4 3 = r.call ∧
    r.word.extractLsb' 7 9 = 0 ∧ r.word.extractLsb' 16 16 = r.idx

/-- R52 and R21: every register access is naturally aligned, and the seven offsets are distinct. -/
def Obligations.RegisterAddressesAreAligned : Prop :=
  ∀ (p : Params) (r r' : Reg), 4 ∣ r.address p ∧ (r.address p = r'.address p → r = r')

/-! ### Reset, waiting, illegal headers, faults -/

/-- R170: reset may come in any phase, and leads to IDLE with no calls, result fields 0, an empty history,
the display UNINITIALIZED and no value in a storage register; a command in flight is lost without a Done.
That the working registers become 0 is the model's (log 3) and not said here. -/
def Obligations.ResetFromAnyState : Prop :=
  ∀ s : State, s.rst = true → ∃ t, step s = .next t ∧
    t.phase = .idle ∧ t.calls = [] ∧ t.hist = [] ∧ t.disp = .uninitialized ∧
    t.res.fail = false ∧ t.res.cause = .none ∧ t.res.call = 0 ∧ t.res.idx = 0 ∧ t.res.illegal = false ∧
    t.regs.lastWritten .funcsel = none ∧ t.regs.lastWritten .ctrl = none ∧ t.regs.lastWritten .tar = none ∧
    t.regs.lastWritten .enable = none

/-- R171: after reset the block is in IDLE, and in any IDLE state with nothing on offer it waits: no step
changes anything, however many are taken. -/
def Obligations.IdleBlockWaitsForAHeader : Prop :=
  State.reset.phase = .idle ∧
  ∀ (s : State) (k : Nat), s.phase = .idle → s.host = [] → s.rst = false → runSteps k s = .next s

/-- R181, last sentence: a header offered while the block is BUSY waits: no step of a command takes or drops
an offer, and `exec` of a command changes nothing (the model's form of waiting, log 10). -/
def Obligations.OffersWaitWhileBusy : Prop :=
  (∀ s t : State, s.busy = true → step s = .next t → t.host = s.host) ∧
  (∀ (i : Instr) (s : State), s.busy = true → exec i s = .next s)

/-- The step takes the command on offer: when the head of the host port decodes to `i`, the step is `exec i`
with the offer taken, and a numbered instruction placed for fetching is the one that runs. How the host port
is held and how an instruction is numbered are the model's choice (log 8, log 17). -/
def Obligations.StepRunsTheDecodedCommand : Prop :=
  (∀ (s : State) (o : Offer) (later : List Offer) (i : Instr),
    s.phase = .idle → s.rst = false → s.host = o :: later → decode o = .ok i →
      step s = exec i { s with host := later }) ∧
  (∀ (s : State) (nbits w : Nat) (i : Instr), decodeTableWord nbits w = some i →
    step (s.withFetchWord nbits w) = exec i { s with phase := .idle, rst := false })

/-- R74: a header that is not legal is refused with no payload taken and no register access: `Rej` and
`Done(0x00000008)`, `res_illegal` set, the other result fields cleared, and everything else as it was. That
the refused offer leaves the port whole, its untaken payload with it, is the model's choice (log 8). -/
def Obligations.IllegalHeaderIsRefused : Prop :=
  ∀ (s : State) (o : Offer) (later : List Offer) (why : HeaderError),
    s.phase = .idle → s.rst = false → s.host = o :: later → decodeHeader o.header = .error why →
      step s = .next { s with
        host := later
        res  := { fail := false, cause := .none, call := 0, idx := 0, illegal := true }
        hist := s.hist ++ [.rej o.header, .done 0x00000008] }

/-- R154: an access with the controller absent raises Fault: phase FAULT, no event, nothing recorded; the
block then does nothing, ever, until reset. The phases named are those whose step makes an access. The
environment `absent` is the model's form of the rule's cause (log 5). -/
def Obligations.AbsentControllerFaultsForGood : Prop :=
  (∀ s : State, s.env = .absent → s.rst = false →
    (s.phase = .i1 ∨ s.phase = .i2 ∨ s.phase = .i3 ∨ s.phase = .i4 ∨ s.phase = .i5 ∨
      s.phase = .wPoll ∨ s.phase = .wIssue ∨ s.phase = .wCheck) →
    step s = .next { s with phase := .fault }) ∧
  (∀ (s : State) (k : Nat), s.phase = .fault → s.rst = false → runSteps k s = .next s)

/-- A command that makes an access never completes when the controller is absent: it ends in FAULT with no
event but its `Acc` (R154 and vector V53). INIT makes one, and so does every command with a write call of which
`n` counts a byte, which is every call of 1 to 65535 bytes (log 11). -/
def Obligations.CommandOnAbsentControllerEndsInFault : Prop :=
  ∀ (i : Instr) (s : State), s.phase = .idle → s.rst = false → s.env = .absent →
    (i = .init ∨ ∃ c ∈ callsOf s.par i, countOf c ≠ 0) →
    ∃ t u k, exec i s = .next t ∧ runSteps k t = .next u ∧ u.phase = .fault ∧
      u.hist = s.hist ++ [.acc i.op i.payload.length i.payload] ∧ u.regs = s.regs ∧ u.disp = s.disp

/-! ### INIT -/

/-- R100: INIT is accepted with its result fields cleared, makes its five writes in order and nothing else,
and completes with Done(0); the whole of the state it leaves is given, but for the environment's own moves
and the model's own ghost `op` (log 12). -/
def Obligations.InitMakesItsFiveWrites : Prop :=
  ∀ s : State, s.Ready →
    (∃ t, exec .init s = .next t ∧ t = { s with
      res := .clear, callNo := 0, op := t.op, phase := .i1
      hist := s.hist ++ [.acc .init 0 []] }) ∧
    ∃ u, Completes .init s u ∧
      u = { s with
        regs :=
          { funcsel := { val := s.par.funcselI2c, written := true }
            ctrl    := { val := s.par.ctrlInit, written := true }
            tar     := { val := 0x0000003C, written := true }
            enable  := { val := 0x00000001, written := true } }
        res := .clear, callNo := 0, op := u.op
        env := u.env
        hist := s.hist ++
          [.acc .init 0 [], .wr .funcsel s.par.funcselI2c, .wr .enable 0x00000000,
            .wr .ctrl s.par.ctrlInit, .wr .tar 0x0000003C, .wr .enable 0x00000001,
            .done 0x00000000] } ∧
      ((∀ r, s.env ≠ .reference r) → u.env = s.env)

/-- The property of the document, "calling it twice produces the same final register values as calling it
once", with the launch premise of R114 standing after each; the history is not the same. -/
def Obligations.InitIsIdempotentOnRegisters : Prop :=
  ∀ s u v : State, s.Ready → Completes .init s u → Completes .init u v →
    v.regs = u.regs ∧ u.BusPremise ∧ v.BusPremise ∧ v.hist.length = u.hist.length + 7

/-- R173: in every step from a state that keeps the invariant, CTRL and TAR are written only while ENABLE
holds 0, and ENABLE becomes 1 only when both hold their INIT values. -/
def Obligations.EnableIsLowWhileConfiguring : Prop :=
  ∀ s t : State, s.Inv → s.rst = false → step s = .next t →
    (∀ v, t.hist = s.hist ++ [.wr .ctrl v] ∨ t.hist = s.hist ++ [.wr .tar v] →
      s.regs.enable.get = some 0x00000000 ∧ t.regs.enable.get = some 0x00000000) ∧
    (t.regs.enable.get = some 0x00000001 → s.regs.enable.get ≠ some 0x00000001 →
      t.regs.ctrl.get = some t.par.ctrlInit ∧ t.regs.tar.get = some 0x0000003C)

/-- Outside the five phases of INIT and outside reset no step changes a storage register: "the Controller
Register Set is untouched by the abort" (R159), and by everything else WRITE and the display do. -/
def Obligations.OnlyInitChangesStorageRegisters : Prop :=
  ∀ s t : State, s.rst = false → step s = .next t →
    s.phase ≠ .i1 → s.phase ≠ .i2 → s.phase ≠ .i3 → s.phase ≠ .i4 → s.phase ≠ .i5 →
    t.regs = s.regs

/-- R57, R91: a write to a storage register at a present controller completes; a read of that register then
returns the word written, and what was last written to every other register is as before. -/
def Obligations.StorageReadsBackTheLastWrite : Prop :=
  ∀ (s : State) (r r' : Reg) (v : Word), s.env ≠ .absent →
    (r = .funcsel ∨ r = .ctrl ∨ r = .tar ∨ r = .enable) →
    ∃ t u, regWrite r v s = .ok () t ∧ t.hist = s.hist ++ [.wr r v] ∧
      t.regs.lastWritten r = some v ∧ (r' ≠ r → t.regs.lastWritten r' = s.regs.lastWritten r') ∧
      regRead r t = .ok v u ∧ u.hist = t.hist ++ [.rd r v] ∧ u.regs = t.regs

/-- R92: with the controller present every RegRead and every RegWrite completes, of every register and with
every word: one event, and of the state nothing changes but the environment, the storage register written, and
the model's own count of free values (log 16). That a read of a storage register never written since reset
completes with a value too, where R57 and D20 give it none, is the model's choice (log 2); so is the free value
of a read of DATA_CMD, and that a write of STATUS or RAW_INTR_STAT has no effect (log 16). -/
def Obligations.EveryAccessCompletes : Prop :=
  ∀ (s : State) (r : Reg), s.env ≠ .absent →
    (∃ v t, regRead r s = .ok v t ∧
      t = { s with env := t.env, draws := t.draws, hist := s.hist ++ [.rd r v] } ∧ t.env ≠ .absent) ∧
    (∀ v, ∃ t, regWrite r v s = .ok () t ∧
      t = { s with env := t.env, regs := t.regs, hist := s.hist ++ [.wr r v] } ∧ t.env ≠ .absent ∧
      ∀ r', r' ≠ r → t.regs.lastWritten r' = s.regs.lastWritten r')

/-! ### Acceptance of the write commands -/

/-- R102, R110: WRITE is accepted with its whole buffer as one write call at byte 0 and three tries; with no
bytes it completes at once with Done(0) and no access, and the display state becomes UNKNOWN (R136). Nothing
else changes but the model's own ghost `op` (log 12) and `callNo`, which counts the empty call (R111, log 21). One row of R111 is one step (log 7). -/
def Obligations.WriteIsAccepted : Prop :=
  ∀ s : State, s.phase = .idle →
    (∀ (b : Byte) (bs : List Byte), payloadFits (b :: bs) → exec (.write (b :: bs)) s = .next { s with
      res := .clear, op := .write, calls := [], callNo := 0
      buf := b :: bs, n := BitVec.ofNat 16 (bs.length + 1), idx := 0, retries := 3, cause := .none
      phase := .wBuild
      hist := s.hist ++ [.acc .write (bs.length + 1) (b :: bs)] }) ∧
    exec (.write []) s = .next { s with
      res := .clear, op := .write, calls := [], callNo := 1
      buf := [], n := 0, idx := 0, disp := .unknown
      hist := s.hist ++ [.acc .write 0 [], .done 0x00000000] }

/-- R131, R132: SEND_COMMAND and SEND_DATA are accepted as three write calls: the slave-address byte, the
control byte 0x00 or 0x40, then the bytes given, whatever they are. Nothing else changes but the model's own
ghost `op` (log 12). One row of R111 is one step (log 7). -/
def Obligations.FramesAreAcceptedAsThreeCalls : Prop :=
  ∀ (s : State) (bs : List Byte), s.phase = .idle →
    exec (.sendCommand bs) s = .next { s with
      res := .clear, op := .sendCommand, calls := [[0x00], bs], callNo := 0
      buf := [s.par.addrByte], n := 1, idx := 0, retries := 3, cause := .none, phase := .wBuild
      hist := s.hist ++ [.acc .sendCommand bs.length bs] } ∧
    exec (.sendData bs) s = .next { s with
      res := .clear, op := .sendData, calls := [[0x40], bs], callNo := 0
      buf := [s.par.addrByte], n := 1, idx := 0, retries := 3, cause := .none, phase := .wBuild
      hist := s.hist ++ [.acc .sendData bs.length bs] }

/-- R133, R134, R135: INIT_DISPLAY is one call of the control byte 0x00 and the fifteen INIT_CMDS bytes;
CLEAR_DISPLAY is six calls, the last of 512 bytes 0xFF; DISPLAY_TEXT is one call of the control byte 0x40
and at most TEXT_MAX text bytes, with `n` its length whenever 16 bits hold it (log 11); what the acceptance
does with a longer buffer is said by CallsRunInOrderToTheEnd. Nothing else changes but the model's own ghost
`op` (log 12). One row of R111 is one step (log 7). -/
def Obligations.DisplayCommandsAreAccepted : Prop :=
  ∀ s : State, s.phase = .idle →
    exec .initDisplay s = .next { s with
      res := .clear, op := .initDisplay, calls := [], callNo := 0
      buf := 0x00 :: s.par.initCmds.toList, n := 16, idx := 0, retries := 3, cause := .none
      phase := .wBuild
      hist := s.hist ++ [.acc .initDisplay 0 []] } ∧
    exec .clearDisplay s = .next { s with
      res := .clear, op := .clearDisplay, callNo := 0
      calls := [[0x00], s.par.windowCmds, [s.par.addrByte], [0x40], List.replicate 512 0xFF]
      buf := [s.par.addrByte], n := 1, idx := 0, retries := 3, cause := .none, phase := .wBuild
      hist := s.hist ++ [.acc .clearDisplay 0 []] } ∧
    (∀ text : List Byte, 1 + min text.length s.par.textMax ≤ 65535 → exec (.displayText text) s = .next { s with
      res := .clear, op := .displayText, calls := [], callNo := 0
      buf := 0x40 :: text.take s.par.textMax, n := BitVec.ofNat 16 (1 + min text.length s.par.textMax), idx := 0
      retries := 3, cause := .none, phase := .wBuild
      hist := s.hist ++ [.acc .displayText text.length text] }) ∧
    ∀ text : List Byte, exec (.displayText text) s =
      .next (startCall [0x40 :: text.take s.par.textMax] { s with
        res := .clear, op := .displayText, callNo := 0
        hist := s.hist ++ [.acc .displayText text.length text] })

/-! ### The steps of an attempt -/

/-- R103 and R104, first sentence: W_BUILD makes the word of the current byte, bit 9 set exactly on the last
byte of the buffer, loads the poll counter with 10, and changes nothing else. -/
def Obligations.BuildStepMakesTheWord : Prop :=
  ∀ (s : State) (b : Byte), s.phase = .wBuild → s.rst = false → s.buf[s.idx.toNat]? = some b →
    ∃ w, step s = .next { s with word := w, pollCnt := 10, phase := .wPoll } ∧
      w.extractLsb' 0 8 = b ∧ (w.getLsbD 9 = true ↔ s.idx + 1 = s.n) ∧
      w.getLsbD 8 = false ∧ w.extractLsb' 10 22 = 0

/-- R104, one read: W_POLL makes one read of STATUS; not full ends the poll with the retries untouched; full
costs one count, and the count that reaches 0 costs one retry, names the cause and ends the poll. Only the
environment and the fields given change. -/
def Obligations.PollStepCountsFullReads : Prop :=
  ∀ s : State, s.phase = .wPoll → s.rst = false → s.env ≠ .absent → ∃ v e, e ≠ .absent ∧
    (∀ x xs raw, s.env = .script (x :: xs) raw → v = x ∧ e = .script xs raw) ∧
    (v.getLsbD 1 = true → step s = .next { s with
      env := e, hist := s.hist ++ [.rd .status v], phase := .wIssue }) ∧
    (v.getLsbD 1 = false → s.pollCnt ≠ 1 → step s = .next { s with
      env := e, hist := s.hist ++ [.rd .status v], pollCnt := s.pollCnt - 1 }) ∧
    (v.getLsbD 1 = false → s.pollCnt = 1 → step s = .next { s with
      env := e, hist := s.hist ++ [.rd .status v], pollCnt := 0, retries := s.retries - 1
      cause := .fifoTimeout, phase := .wIssue })

/-- R105, R106: W_ISSUE makes one write of the word to DATA_CMD, and W_PACE one delay; neither changes
anything else but the environment. -/
def Obligations.IssueAndPaceSteps : Prop :=
  (∀ s : State, s.phase = .wIssue → s.rst = false → s.env ≠ .absent → ∃ e, e ≠ .absent ∧
    step s = .next { s with
      env := e, hist := s.hist ++ [.wr .dataCmd s.word], phase := .wPace }) ∧
  (∀ s : State, s.phase = .wPace → s.rst = false → ∃ e, (e = .absent ↔ s.env = .absent) ∧
    step s = .next { s with
      env := e, hist := s.hist ++ [.delay s.par.paceN], phase := .wCheck })

/-- R107, R108: W_CHECK reads RAW_INTR_STAT once. A set abort bit costs one retry, never below 0. With no
retry left the call is given up, under either ZERO_POLICY when the bit was set and under ABORT when it was
clear: `Diag`, and the next call starts. Else a set bit repeats the same byte; a clear one goes on to the
next byte with three tries, or ends the call after the last. That `callNo` rises by 1 at the end of the
command's last call too is R111 against R113, the model's choice (log 21). -/
def Obligations.CheckStepSettlesTheAttempt : Prop :=
  ∀ s : State, s.phase = .wCheck → s.rst = false → s.env ≠ .absent →
    ∃ v r, ∃ c : Cause, ∃ t : State, t.env ≠ .absent ∧
      (∀ x xs st, s.env = .script st (x :: xs) → v = x ∧ t.env = .script st xs) ∧
      t = { s with env := t.env, hist := s.hist ++ [.rd .rawIntrStat v], retries := r, cause := c } ∧
      (v.getLsbD 9 = true → r.toNat = s.retries.toNat - 1 ∧ c = .txAborted) ∧
      (v.getLsbD 9 = false → r = s.retries ∧ c = s.cause) ∧
      (r = 0 → (v.getLsbD 9 = true ∨ s.par.zeroPolicy = .abort) → ∃ u, step s = .next u ∧
        u = startCall s.calls { t with
          callNo := s.callNo + 1
          res :=
            if s.res.fail then s.res
            else { s.res with fail := true, cause := c, call := s.callNo, idx := s.idx }
          hist := s.hist ++ [.rd .rawIntrStat v, .diag s.callNo s.idx c] }) ∧
      (r ≠ 0 → v.getLsbD 9 = true → step s = .next { t with phase := .wBuild }) ∧
      (v.getLsbD 9 = false → (r ≠ 0 ∨ s.par.zeroPolicy = .proceed) → s.idx + 1 ≠ s.n →
        step s = .next { t with idx := s.idx + 1, retries := 3, cause := .none, phase := .wBuild }) ∧
      (v.getLsbD 9 = false → (r ≠ 0 ∨ s.par.zeroPolicy = .proceed) → s.idx + 1 = s.n →
        step s = .next (startCall s.calls { t with callNo := s.callNo + 1 }))

/-- R130 with the start and end of calls of R111: where `startCall` leads. With only buffers left of which `n`
counts nothing the command is finished: IDLE, `Done` with the result word of R82. Else the first of which it
counts a byte becomes the current one, at its byte 0, with three tries; each passed over is counted. For every
buffer of at most 65535 bytes what `n` counts is its length; that it is a free value beyond is the model's
(log 11), and so is the value of `callNo` after the last call (log 21). -/
def Obligations.CallsRunInOrderToTheEnd : Prop :=
  (∀ (s : State) (passed later : List (List Byte)), (∀ c ∈ passed, countOf c = 0) →
    (∃ t, startCall passed s = t ∧ t.phase = .idle ∧ t.calls = [] ∧
      t.callNo = s.callNo + BitVec.ofNat 3 passed.length ∧ t.hist = s.hist ++ [.done s.res.word] ∧
      t.regs = s.regs ∧ t.res = s.res ∧ t.env = s.env ∧ t.host = s.host) ∧
    ∀ buf : List Byte, countOf buf ≠ 0 →
      startCall (passed ++ buf :: later) s = { s with
        calls := later, callNo := s.callNo + BitVec.ofNat 3 passed.length
        buf := buf, n := countOf buf, idx := 0, retries := 3, cause := .none, phase := .wBuild }) ∧
  (∀ buf : List Byte, payloadFits buf → (countOf buf).toNat = buf.length ∧ (countOf buf = 0 ↔ buf = []))

/-- R30, R31, R102: a write call goes through the whole of every buffer of at most 65535 bytes, and through no
more than 65535 bytes of any; and with WINDOW_LEN at most 65535 and TEXT_MAX at most 65534, bounds R5 does not
give, through the whole of every buffer of every command (log 11). -/
def Obligations.CallsGoThroughTheirWholeBuffers : Prop :=
  (∀ buf : List Byte, (payloadFits buf → callBytes buf = buf) ∧ callBytes buf <+: buf ∧
    (callBytes buf).length ≤ 65535) ∧
  ∀ (p : Params) (i : Instr), p.windowCmds.length ≤ 65535 → p.textMax ≤ 65534 → i.WellFormed →
    (callsOf p i).map callBytes = callsOf p i

/-- The property of the document behind R104: with fewer than ten full reads in a row the poll consumes no
retry; ten full reads cost exactly one, and no eleventh is made. For every list of values read. -/
def Obligations.NineFullPollsAreFreeTenCostOneRetry : Prop :=
  ∀ (s : State) (full rest raw : List Word) (v : Word),
    s.phase = .wPoll → s.rst = false → s.pollCnt = 10 → (∀ w ∈ full, w.getLsbD 1 = false) →
    (full.length ≤ 9 → v.getLsbD 1 = true → s.env = .script (full ++ v :: rest) raw →
      ∃ t, runSteps (full.length + 1) s = .next t ∧ t = { s with
        phase := .wIssue, pollCnt := t.pollCnt, env := .script rest raw
        hist := s.hist ++ full.map (.rd .status) ++ [.rd .status v] }) ∧
    (full.length = 10 → s.env = .script (full ++ rest) raw →
      runSteps 10 s = .next { s with
        phase := .wIssue, pollCnt := 0, retries := s.retries - 1, cause := .fifoTimeout
        env := .script rest raw, hist := s.hist ++ full.map (.rd .status) })

/-- Every attempt makes one to ten reads of STATUS, then exactly one write of the word, one delay and one
read of RAW_INTR_STAT, in this order and with nothing between. -/
def Obligations.AttemptHasOneWordOneDelayOneCheck : Prop :=
  ∀ s : State, s.Inv → s.phase = .wBuild → s.rst = false → s.env ≠ .absent →
    ∃ (t u : State) (k : Nat) (reads : List Word) (v : Word),
      runSteps k s = .next t ∧ t.phase = .wCheck ∧ step t = .next u ∧
      1 ≤ reads.length ∧ reads.length ≤ 10 ∧ k = reads.length + 3 ∧
      t.hist = s.hist ++ reads.map (.rd .status) ++ [.wr .dataCmd t.word, .delay s.par.paceN] ∧
      t.hist ++ [.rd .rawIntrStat v] <+: u.hist ∧ t.buf = s.buf ∧ t.idx = s.idx

/-- The property of the document behind R153: when the abort bit is read set on three consecutive attempts
for one byte, the call is given up, the byte having been offered three times and no further byte at all.
The environment answers "not full" to every poll. -/
def Obligations.ThreeAbortsGiveTheCallUp : Prop :=
  ∀ (s : State) (b : Byte) (a₁ a₂ a₃ : Word) (raw : List Word),
    s.phase = .wBuild → s.rst = false → s.retries = 3 → s.res.fail = false →
    s.buf[s.idx.toNat]? = some b → s.calls = [] →
    a₁.getLsbD 9 = true → a₂.getLsbD 9 = true → a₃.getLsbD 9 = true →
    s.env = .script [] (a₁ :: a₂ :: a₃ :: raw) →
    ∃ t, runSteps 15 s = .next t ∧ t.phase = .idle ∧ t.res.fail = true ∧ t.res.cause = .txAborted ∧
      t.res.call = s.callNo ∧ t.res.idx = s.idx ∧
      dataWords (newEvents s t) = List.replicate 3 (fifoWord b (decide (s.idx + 1 = s.n))) ∧
      newEvents s t =
        (newEvents s t).take 12 ++ [.diag s.callNo s.idx .txAborted, .done t.res.word]

/-! ### Whole commands -/

/-- R100, R102, R130: stepping a command to its end does exactly what the pseudocode of the whole command
does, to the whole state, for every environment and either ZERO_POLICY, Faults included. What one step is,
is the model's reading of R111 (log 7). -/
def Obligations.StepsRefineThePseudocode : Prop :=
  ∀ (i : Instr) (s : State), s.phase = .idle → s.rst = false →
    ∃ (t : State) (k : Nat), exec i s = .next t ∧
      (∃ u, runSteps k t = .next u ∧
        ((commandPseudocode i s = .go u ∧ CompletesIn k i s u) ∨
         (commandPseudocode i s = .raised u ∧ u.phase = .fault)))

/-- Every command completes after a bounded number of steps whatever a present environment does, with one
`Acc` at the start, one `Done` carrying its result word at the end, and no other between; INIT alone
changes the storage registers, and no command the parameters or the inputs. The last clause is about the
model's own ghost `op` (log 12). -/
def Obligations.EveryCommandCompletes : Prop :=
  ∀ (i : Instr) (s : State), s.Ready →
    ∃ (t : State) (k : Nat) (u : State) (es : List Event),
      exec i s = .next t ∧ k ≤ 5 + 42 * bytesOf s.par i ∧ CompletesIn k i s u ∧
      u.hist = s.hist ++ [.acc i.op i.payload.length i.payload] ++ es ++ [.done u.res.word] ∧
      (∀ e ∈ es, e.isAccess = true ∨ e.isDelay = true ∨ e.isDiag = true) ∧
      (i ≠ .init → u.regs = s.regs) ∧ u.par = s.par ∧ u.host = s.host ∧ u.rst = s.rst ∧
      u.env ≠ .absent ∧ u.op = i.op

/-- R130 and R131 to R135, R112 f: in a clean command the words offered are exactly the words of each write
call in order, the stop flag on the last word of each and on no other, the result is 0 and nothing is
diagnosed. `callBytes` is the whole call unless it is longer than `n` can count (log 11). -/
def Obligations.CleanCommandOffersExactlyItsWords : Prop :=
  ∀ (i : Instr) (s u : State), s.Ready → Completes i s u → Clean (newEvents s u) →
    dataWords (newEvents s u) = ((callsOf s.par i).map callBytes).flatMap bufferWords ∧
    u.res = .clear ∧ (∀ e ∈ newEvents s u, e.isDiag = false)

/-- Under ENV_IDEAL every command but INIT has exactly the history the pseudocode gives: per byte one read of
STATUS, its word, one delay, one read of RAW_INTR_STAT. -/
def Obligations.IdealRunsHaveTheWrittenHistory : Prop :=
  ∀ (i : Instr) (s : State), s.phase = .idle → s.rst = false → s.env = .script [] [] →
    i ≠ .init →
    ∃ u, Completes i s u ∧ u.env = .script [] [] ∧ u.res = .clear ∧
      u.hist = s.hist ++ [.acc i.op i.payload.length i.payload] ++ idealTrace s.par (callsOf s.par i) ++
        [.done 0x00000000]

/-- R131, R132: the DATA_CMD words of SEND_COMMAND and SEND_DATA in a clean run, with the slave-address byte
the parameter ADDR_BYTE. -/
def Obligations.FrameWordsOfSendCommandAndSendData : Prop :=
  ∀ (s u : State) (b : Byte) (bs : List Byte), payloadFits (bs ++ [b]) → s.Ready → Clean (newEvents s u) →
    (Completes (.sendCommand (bs ++ [b])) s u → dataWords (newEvents s u) =
      [fifoWord s.par.addrByte true, 0x200] ++ bs.map (fifoWord · false) ++ [fifoWord b true]) ∧
    (Completes (.sendData (bs ++ [b])) s u → dataWords (newEvents s u) =
      [fifoWord s.par.addrByte true, 0x240] ++ bs.map (fifoWord · false) ++ [fifoWord b true]) ∧
    (Completes (.sendCommand []) s u →
      dataWords (newEvents s u) = [fifoWord s.par.addrByte true, 0x200]) ∧
    (Completes (.sendData []) s u →
      dataWords (newEvents s u) = [fifoWord s.par.addrByte true, 0x240])

/-- R133, R134, R135: the DATA_CMD words of the display commands in a clean run: sixteen for INIT_DISPLAY,
WINDOW_LEN + 516 for CLEAR_DISPLAY with 511 times 0x0FF and a last 0x2FF, one more than the text bytes kept
for DISPLAY_TEXT; the window and the text with its control byte no longer than `n` can count (log 11). -/
def Obligations.WordsOfTheDisplayCommands : Prop :=
  ∀ s u : State, s.Ready → Clean (newEvents s u) →
    (Completes .initDisplay s u → dataWords (newEvents s u) =
      0x000 :: bufferWords s.par.initCmds.toList ∧ (dataWords (newEvents s u)).length = 16) ∧
    (s.par.windowCmds.length ≤ 65535 → Completes .clearDisplay s u → dataWords (newEvents s u) =
      [fifoWord s.par.addrByte true, 0x200] ++ bufferWords s.par.windowCmds ++
        [fifoWord s.par.addrByte true, 0x240] ++ List.replicate 511 0x0FF ++ [0x2FF] ∧
      (dataWords (newEvents s u)).length = s.par.windowCmds.length + 516) ∧
    (∀ text : List Byte, 1 + min text.length s.par.textMax ≤ 65535 → Completes (.displayText text) s u →
      dataWords (newEvents s u) = bufferWords (0x40 :: text.take s.par.textMax) ∧
      (dataWords (newEvents s u)).length = 1 + min text.length s.par.textMax)

/-- Whatever the environment does, the words a WRITE offers are those of its buffer in order, each one to
three times; a call given up stops at the byte it names, and no later byte is offered. -/
def Obligations.WriteOffersAPrefixEachWordOneToThreeTimes : Prop :=
  ∀ (buf : List Byte) (s u : State), s.Ready → payloadFits buf → Completes (.write buf) s u →
    ∃ tries : List Nat, (∀ k ∈ tries, 1 ≤ k ∧ k ≤ 3) ∧
      dataWords (newEvents s u) = (List.zipWith List.replicate tries (bufferWords buf)).flatten ∧
      tries.length = (if u.res.fail then u.res.idx.toNat + 1 else buf.length) ∧
      tries.length ≤ buf.length

/-- The bounds on the accesses of a command, for every behaviour of the environment: per byte at most three
words, thirty reads of STATUS, three delays and three reads of RAW_INTR_STAT. -/
def Obligations.AccessesPerByteAreBounded : Prop :=
  ∀ (i : Instr) (s u : State), s.Ready → Completes i s u →
    (dataWords (newEvents s u)).length ≤ 3 * bytesOf s.par i ∧
    (newEvents s u).countP Event.isStatusRead ≤ 30 * bytesOf s.par i ∧
    (newEvents s u).countP Event.isDelay = (dataWords (newEvents s u)).length ∧
    (newEvents s u).countP Event.isRawRead = (dataWords (newEvents s u)).length

/-- R136: the ghost display state after a command's Done, by the command and the FAIL bit of its result. That
FAIL = 0 decides, whether or not a retry was consumed, is the model's reading of "clean" there (log 12). -/
def Obligations.DisplayStateAfterACommand : Prop :=
  ∀ (i : Instr) (s u : State), s.Ready → Completes i s u →
    (i = .init → u.disp = s.disp) ∧
    (i ≠ .init → u.res.fail = true → u.disp = .unknown) ∧
    (u.res.fail = false →
      (∀ b, i = .write b ∨ i = .sendCommand b ∨ i = .sendData b → u.disp = .unknown) ∧
      (i = .initDisplay → u.disp = .initialized) ∧
      (i = .clearDisplay →
        u.disp = if s.disp = .uninitialized ∨ s.disp = .unknown then s.disp else .cleared) ∧
      (∀ t, i = .displayText t →
        u.disp = if s.disp = .uninitialized ∨ s.disp = .unknown then s.disp else .displayingText))

/-- R137: in a run in which every write call is clean and every word is offered under the launch premise of
R114, no reset having come in the middle of a command, with the words before the command ending with a stop
flag and an environment that sends in order and has sent all by each INIT (U5): the command adds one
transaction for each write call that has a byte, carrying its bytes in order, addressed to 0x3C in the write
direction. The form of the premises is the model's (log 20). -/
def Obligations.CleanCommandIsOneTransactionPerCall : Prop :=
  ∀ (i : Instr) (s u : State) (run : List RunEvent), s.Ready → s.BusClaims → s.RegsRecorded →
    (∀ w ∈ (offeredWords s.run).getLast?, wordStop w = true) → Completes i s u → Clean u.hist →
    run.filter RunEvent.isOfBlock = u.run → sendsInOrder [] run = true →
    u.carried run = some (transactions 0x3C (offeredWords s.run) ++
      (((callsOf s.par i).map callBytes).filter (· ≠ [])).map (writeTransaction 0x3C)) ∧
    u.BusPremise

/-- R137 for a whole run: INIT first and then any commands, further INITs among them, every write call clean,
and an environment that sends every word in order and has sent all by each INIT (U5). The bus has carried one
transaction for each write call that has a byte, in order. The form of the premises is the model's (log 20). -/
def Obligations.CleanRunIsOneTransactionPerCall : Prop :=
  ∀ (is : List Instr) (s t u : State) (run : List RunEvent), s.Ready → s.hist = [] → s.past = [] →
    Completes .init s t → CompletesAll is t u → Clean u.hist →
    run.filter RunEvent.isOfBlock = u.run → sendsInOrder [] run = true →
    u.carried run = some
      ((((is.flatMap (callsOf s.par)).map callBytes).filter (· ≠ [])).map (writeTransaction 0x3C))

/-- R137, R177, U5, U6: no claim about the bus is made where the launch premise does not hold, or while a
command is under way, which is the model's choice (log 20); once a run has a
consumed retry, or a word offered without the launch premise, none is made after any later command; and none is
made of a run in which words offered before an INIT were not sent by then. The form, an answer `none`, is the
model's (log 20). -/
def Obligations.BusClaimsAreRefusedOutsideCleanRuns : Prop :=
  (∀ (s : State) (run : List RunEvent), ¬ s.BusPremise ∨ s.busy = true → s.carried run = none) ∧
  (∀ (i : Instr) (s u : State) (run : List RunEvent), s.Ready → Completes i s u →
    ¬ Clean s.hist ∨ underPremise s.par .reset s.hist = false → u.carried run = none) ∧
  (∀ (u : State) (before later : List RunEvent) (r : Reg) (v : Word),
    (r = .funcsel ∨ r = .enable ∨ r = .ctrl ∨ r = .tar) → sentWords before ≠ offeredWords before →
    u.carried (before ++ .block (.wr r v) :: later) = none)

/-- R170: "a model refuses bus-level claims about a run that was reset in mid-command". The step of a reset
records whether it cut a command off; no later step loses the record, so that from a reset in mid-command no
claim is made ever after, and after a reset of a run that was not clean none either (R177). The form, an answer
`none`, is the model's (log 20). -/
def Obligations.ResetInMidCommandRefusesBusClaims : Prop :=
  (∀ (s : State) (k : Nat) (u : State) (run : List RunEvent), s.rst = true →
    s.busy = true ∨ ¬ Clean s.hist → runSteps (k + 1) s = .next u → u.carried run = none) ∧
  (∀ s t : State, step s = .next t → s.past <+: t.past ∧ (s.rst = false → t.past = s.past)) ∧
  (∀ (s : State) (run : List RunEvent), (∃ e ∈ s.past, e.cut = true) → s.carried run = none)

/-! ### Whole-machine rules -/

/-- The invariant holds after reset. -/
def Obligations.InvariantHoldsAtReset : Prop := State.reset.Inv

/-- Every step keeps the invariant: the counters and the position in their ranges, the word current, the
enable order of INIT, the storage registers at the words the block writes, the result fields consistent, the
reference FIFO within its depth. -/
def Obligations.EveryStepKeepsTheInvariant : Prop :=
  ∀ s t : State, s.Inv → step s = .next t → t.Inv

/-- R57, R91: in every run the storage registers hold what the history since reset says was last written to
them; true after reset, and kept by every step from any state. -/
def Obligations.RegistersHoldWhatTheHistorySays : Prop :=
  State.reset.RegsRecorded ∧ ∀ s t : State, s.RegsRecorded → step s = .next t → t.RegsRecorded

/-- From a state that keeps the invariant no step stops; and no step is ever refused. -/
def Obligations.NoStepStopsUnderTheInvariant : Prop :=
  (∀ s : State, s.Inv → ∃ t, step s = .next t) ∧
  (∀ (s : State) (r : Refusal), step s ≠ .refused r)

/-- A step only adds to the history, makes at most one register access or one delay, and every access it
makes is one of the list of accesses the block can ever generate, with the values listed. -/
def Obligations.StepsMakeAtMostOneListedAccess : Prop :=
  ∀ s t : State, s.Inv → s.rst = false → step s = .next t →
    ∃ es, t.hist = s.hist ++ es ∧ (∀ e ∈ es, e.listedAccess s.par) ∧
      es.countP (fun e => e.isAccess || e.isDelay) ≤ 1

/-- R32: the result fields record the first aborted call of a command: once `res_fail` is set, no step of
that command changes them; and a step of a command changes them only to record an abort it diagnoses. -/
def Obligations.FirstAbortOfACommandIsKept : Prop :=
  ∀ s t : State, s.busy = true → s.rst = false → step s = .next t →
    (s.res.fail = true → t.res = s.res) ∧
    (t.res ≠ s.res → t.res.fail = true ∧ ∃ e ∈ newEvents s t, e = .diag s.callNo s.idx t.res.cause ∧
      t.res.call = s.callNo ∧ t.res.idx = s.idx)

/-- No step changes the parameters, a step takes an offer only in IDLE and out of reset, and a reset leaves
the host's offers and any environment but the reference one as they were. That a reset is released by its own
step is the model's choice (log 9). -/
def Obligations.ParametersAndInputsAreKept : Prop :=
  ∀ s t : State, step s = .next t →
    t.par = s.par ∧ t.rst = false ∧ (t.host ≠ s.host → s.phase = .idle ∧ s.rst = false) ∧
    (s.rst = true → (∀ r, s.env ≠ .reference r) → t.env = s.env)

/-- R114, R174: a step outside INIT makes the same accesses and reaches the same state whatever the storage
registers hold. The reference environment, which itself looks at ENABLE, is left out. -/
def Obligations.StorageRegistersNeverSteerTheBlock : Prop :=
  ∀ (s t : State) (g : RegSet), s.rst = false → (∀ r, s.env ≠ .reference r) →
    s.phase ≠ .i1 → s.phase ≠ .i2 → s.phase ≠ .i3 → s.phase ≠ .i4 → s.phase ≠ .i5 →
    step s = .next t → step { s with regs := g } = .next { t with regs := g }

/-- R20 f, R35: out of reset the history and the ghost display state are never read by the block: a step from
a state that differs in them alone leads to a state that differs in them alone. The same holds of the model's
own ghost `past` (DESIGN CHOICE, log 20); the step of a reset, which moves the history into `past`, is left out. -/
def Obligations.HistoryAndDisplayStateAreNeverRead : Prop :=
  ∀ (s t : State) (h : List Event) (p : List Epoch) (d : Disp), s.rst = false → step s = .next t →
    ∃ t', step { s with hist := h, past := p, disp := d } = .next t' ∧
      t' = { t with hist := h ++ newEvents s t, past := p, disp := t'.disp }

/-- R76: no bit of a read value but bit 1 of STATUS and bit 9 of RAW_INTR_STAT enters any rule: two values
that agree in that bit lead to states that differ in the recorded event alone. -/
def Obligations.OtherBitsOfReadValuesAreIgnored : Prop :=
  ∀ (s t : State) (v w : Word) (vs raw : List Word), s.rst = false →
    ((s.phase = .wPoll ∧ v.getLsbD 1 = w.getLsbD 1 ∧
        step { s with env := .script (v :: vs) raw } = .next t) →
      ∃ es, t.hist = s.hist ++ .rd .status v :: es ∧
        step { s with env := .script (w :: vs) raw } =
          .next { t with hist := s.hist ++ .rd .status w :: es }) ∧
    ((s.phase = .wCheck ∧ v.getLsbD 9 = w.getLsbD 9 ∧
        step { s with env := .script raw (v :: vs) } = .next t) →
      ∃ es, t.hist = s.hist ++ .rd .rawIntrStat v :: es ∧
        step { s with env := .script raw (w :: vs) } =
          .next { t with hist := s.hist ++ .rd .rawIntrStat w :: es })

/-! ### The reference environment -/

/-- R65 a, b, c, e: what the reference environment answers: STATUS has bit 1 set exactly when its FIFO, after
the environment's turn, has room, RAW_INTR_STAT bit 9 exactly when its abort bit is set, other bits 0; a word
offered to a FIFO with room is appended; a reset empties FIFO and bus and clears the abort bit. Where the
environment's turns fall is the model's choice (log 6). -/
def Obligations.ReferenceEnvironmentAnswers : Prop :=
  ∀ (s : State) (r : RefEnv), s.env = .reference r →
    ∃ r', s.envTurn.env = .reference r' ∧
      (∃ t, regRead .status s = .ok (if r'.fifo.length < s.par.fifoDepth then 0x2 else 0x0) t ∧
        t.env = .reference r') ∧
      (∃ t, regRead .rawIntrStat s = .ok (if r'.abrt then 0x200 else 0x0) t ∧ t.env = .reference r') ∧
      (∀ w, r'.fifo.length < s.par.fifoDepth → ∃ t q, regWrite .dataCmd w s = .ok () t ∧
        t.env = .reference q ∧ q.fifo = r'.fifo ++ [w] ∧ q.bus = r'.bus ∧ q.abrt = r'.abrt) ∧
      (s.rst = true → ∃ t q, step s = .next t ∧ t.env = .reference q ∧
        q.fifo = [] ∧ q.bus = [] ∧ q.abrt = false)

/-- R65 d: the reference environment moves words from its FIFO to its bus in order and only while the last
value written to ENABLE is 1: a turn never changes FIFO and bus taken together, and changes neither while
ENABLE does not hold 1. The schedule of moves is the model's own (log 6). -/
def Obligations.ReferenceFifoDrainsInOrderWhileEnabled : Prop :=
  ∀ (s : State) (r : RefEnv), s.env = .reference r →
    ∃ r', s.envTurn.env = .reference r' ∧ r'.bus ++ r'.fifo = r.bus ++ r.fifo ∧
      (s.regs.enable.get ≠ some 0x00000001 → r'.bus = r.bus ∧ r'.fifo = r.fifo)

/-- R65 c, d with R137: in a clean command the reference environment loses no word and keeps their order: the
words on its bus and in its FIFO are those of before and then those the command offered. With an empty FIFO its
bus is the in-order sending R137 asks for. The schedule of moves is the model's own (log 6). -/
def Obligations.ReferenceBusCarriesTheWordsOfACleanCommand : Prop :=
  ∀ (i : Instr) (s u : State) (r : RefEnv), s.Ready → s.env = .reference r →
    Completes i s u → Clean (newEvents s u) →
    ∃ r', u.env = .reference r' ∧ r'.bus ++ r'.fifo = r.bus ++ r.fifo ++ dataWords (newEvents s u)
end

