-- ==== Sys2Proof/Laws/State.lean ====
section
/-! SUPPORT. One lemma per field and named update of the state, so that no later proof unfolds a record
update. -/

namespace Sys2Proof.Machine

/-! ### emit -/

@[simp] theorem emit_par (e : Event) (s : State) : (s.emit e).par = s.par := rfl
@[simp] theorem emit_regs (e : Event) (s : State) : (s.emit e).regs = s.regs := rfl
@[simp] theorem emit_calls (e : Event) (s : State) : (s.emit e).calls = s.calls := rfl
@[simp] theorem emit_callNo (e : Event) (s : State) : (s.emit e).callNo = s.callNo := rfl
@[simp] theorem emit_buf (e : Event) (s : State) : (s.emit e).buf = s.buf := rfl
@[simp] theorem emit_n (e : Event) (s : State) : (s.emit e).n = s.n := rfl
@[simp] theorem emit_idx (e : Event) (s : State) : (s.emit e).idx = s.idx := rfl
@[simp] theorem emit_retries (e : Event) (s : State) : (s.emit e).retries = s.retries := rfl
@[simp] theorem emit_pollCnt (e : Event) (s : State) : (s.emit e).pollCnt = s.pollCnt := rfl
@[simp] theorem emit_word (e : Event) (s : State) : (s.emit e).word = s.word := rfl
@[simp] theorem emit_cause (e : Event) (s : State) : (s.emit e).cause = s.cause := rfl
@[simp] theorem emit_phase (e : Event) (s : State) : (s.emit e).phase = s.phase := rfl
@[simp] theorem emit_res (e : Event) (s : State) : (s.emit e).res = s.res := rfl
@[simp] theorem emit_env (e : Event) (s : State) : (s.emit e).env = s.env := rfl
@[simp] theorem emit_hist (e : Event) (s : State) : (s.emit e).hist = s.hist ++ [e] := rfl
@[simp] theorem emit_disp (e : Event) (s : State) : (s.emit e).disp = s.disp := rfl
@[simp] theorem emit_op (e : Event) (s : State) : (s.emit e).op = s.op := rfl
@[simp] theorem emit_host (e : Event) (s : State) : (s.emit e).host = s.host := rfl
@[simp] theorem emit_rst (e : Event) (s : State) : (s.emit e).rst = s.rst := rfl
@[simp] theorem emit_draws (e : Event) (s : State) : (s.emit e).draws = s.draws := rfl
@[simp] theorem emit_past (e : Event) (s : State) : (s.emit e).past = s.past := rfl

/-! ### envTurn -/

@[simp] theorem envTurn_par (s : State) : s.envTurn.par = s.par := rfl
@[simp] theorem envTurn_regs (s : State) : s.envTurn.regs = s.regs := rfl
@[simp] theorem envTurn_calls (s : State) : s.envTurn.calls = s.calls := rfl
@[simp] theorem envTurn_callNo (s : State) : s.envTurn.callNo = s.callNo := rfl
@[simp] theorem envTurn_buf (s : State) : s.envTurn.buf = s.buf := rfl
@[simp] theorem envTurn_n (s : State) : s.envTurn.n = s.n := rfl
@[simp] theorem envTurn_idx (s : State) : s.envTurn.idx = s.idx := rfl
@[simp] theorem envTurn_retries (s : State) : s.envTurn.retries = s.retries := rfl
@[simp] theorem envTurn_pollCnt (s : State) : s.envTurn.pollCnt = s.pollCnt := rfl
@[simp] theorem envTurn_word (s : State) : s.envTurn.word = s.word := rfl
@[simp] theorem envTurn_cause (s : State) : s.envTurn.cause = s.cause := rfl
@[simp] theorem envTurn_phase (s : State) : s.envTurn.phase = s.phase := rfl
@[simp] theorem envTurn_res (s : State) : s.envTurn.res = s.res := rfl
@[simp] theorem envTurn_env (s : State) : s.envTurn.env = s.env.turn s.regs.enabled := rfl
@[simp] theorem envTurn_hist (s : State) : s.envTurn.hist = s.hist := rfl
@[simp] theorem envTurn_disp (s : State) : s.envTurn.disp = s.disp := rfl
@[simp] theorem envTurn_op (s : State) : s.envTurn.op = s.op := rfl
@[simp] theorem envTurn_host (s : State) : s.envTurn.host = s.host := rfl
@[simp] theorem envTurn_rst (s : State) : s.envTurn.rst = s.rst := rfl
@[simp] theorem envTurn_draws (s : State) : s.envTurn.draws = s.draws := rfl
@[simp] theorem envTurn_past (s : State) : s.envTurn.past = s.past := rfl

/-! ### raiseFault -/

@[simp] theorem raiseFault_par (s : State) : s.raiseFault.par = s.par := rfl
@[simp] theorem raiseFault_regs (s : State) : s.raiseFault.regs = s.regs := rfl
@[simp] theorem raiseFault_calls (s : State) : s.raiseFault.calls = s.calls := rfl
@[simp] theorem raiseFault_callNo (s : State) : s.raiseFault.callNo = s.callNo := rfl
@[simp] theorem raiseFault_buf (s : State) : s.raiseFault.buf = s.buf := rfl
@[simp] theorem raiseFault_n (s : State) : s.raiseFault.n = s.n := rfl
@[simp] theorem raiseFault_idx (s : State) : s.raiseFault.idx = s.idx := rfl
@[simp] theorem raiseFault_retries (s : State) : s.raiseFault.retries = s.retries := rfl
@[simp] theorem raiseFault_pollCnt (s : State) : s.raiseFault.pollCnt = s.pollCnt := rfl
@[simp] theorem raiseFault_word (s : State) : s.raiseFault.word = s.word := rfl
@[simp] theorem raiseFault_cause (s : State) : s.raiseFault.cause = s.cause := rfl
@[simp] theorem raiseFault_phase (s : State) : s.raiseFault.phase = .fault := rfl
@[simp] theorem raiseFault_res (s : State) : s.raiseFault.res = s.res := rfl
@[simp] theorem raiseFault_env (s : State) : s.raiseFault.env = s.env := rfl
@[simp] theorem raiseFault_hist (s : State) : s.raiseFault.hist = s.hist := rfl
@[simp] theorem raiseFault_disp (s : State) : s.raiseFault.disp = s.disp := rfl
@[simp] theorem raiseFault_op (s : State) : s.raiseFault.op = s.op := rfl
@[simp] theorem raiseFault_host (s : State) : s.raiseFault.host = s.host := rfl
@[simp] theorem raiseFault_rst (s : State) : s.raiseFault.rst = s.rst := rfl
@[simp] theorem raiseFault_draws (s : State) : s.raiseFault.draws = s.draws := rfl
@[simp] theorem raiseFault_past (s : State) : s.raiseFault.past = s.past := rfl

/-! ### delay -/

@[simp] theorem delay_par (k : Nat) (s : State) : (delay k s).par = s.par := rfl
@[simp] theorem delay_regs (k : Nat) (s : State) : (delay k s).regs = s.regs := rfl
@[simp] theorem delay_calls (k : Nat) (s : State) : (delay k s).calls = s.calls := rfl
@[simp] theorem delay_callNo (k : Nat) (s : State) : (delay k s).callNo = s.callNo := rfl
@[simp] theorem delay_buf (k : Nat) (s : State) : (delay k s).buf = s.buf := rfl
@[simp] theorem delay_n (k : Nat) (s : State) : (delay k s).n = s.n := rfl
@[simp] theorem delay_idx (k : Nat) (s : State) : (delay k s).idx = s.idx := rfl
@[simp] theorem delay_retries (k : Nat) (s : State) : (delay k s).retries = s.retries := rfl
@[simp] theorem delay_pollCnt (k : Nat) (s : State) : (delay k s).pollCnt = s.pollCnt := rfl
@[simp] theorem delay_word (k : Nat) (s : State) : (delay k s).word = s.word := rfl
@[simp] theorem delay_cause (k : Nat) (s : State) : (delay k s).cause = s.cause := rfl
@[simp] theorem delay_phase (k : Nat) (s : State) : (delay k s).phase = s.phase := rfl
@[simp] theorem delay_res (k : Nat) (s : State) : (delay k s).res = s.res := rfl
@[simp] theorem delay_env (k : Nat) (s : State) : (delay k s).env = s.env.turn s.regs.enabled := rfl
@[simp] theorem delay_hist (k : Nat) (s : State) : (delay k s).hist = s.hist ++ [.delay k] := rfl
@[simp] theorem delay_disp (k : Nat) (s : State) : (delay k s).disp = s.disp := rfl
@[simp] theorem delay_op (k : Nat) (s : State) : (delay k s).op = s.op := rfl
@[simp] theorem delay_host (k : Nat) (s : State) : (delay k s).host = s.host := rfl
@[simp] theorem delay_rst (k : Nat) (s : State) : (delay k s).rst = s.rst := rfl
@[simp] theorem delay_draws (k : Nat) (s : State) : (delay k s).draws = s.draws := rfl
@[simp] theorem delay_past (k : Nat) (s : State) : (delay k s).past = s.past := rfl

/-! ### recordAbort -/

@[simp] theorem recordAbort_par (s : State) : (recordAbort s).par = s.par := rfl
@[simp] theorem recordAbort_regs (s : State) : (recordAbort s).regs = s.regs := rfl
@[simp] theorem recordAbort_calls (s : State) : (recordAbort s).calls = s.calls := rfl
@[simp] theorem recordAbort_callNo (s : State) : (recordAbort s).callNo = s.callNo := rfl
@[simp] theorem recordAbort_buf (s : State) : (recordAbort s).buf = s.buf := rfl
@[simp] theorem recordAbort_n (s : State) : (recordAbort s).n = s.n := rfl
@[simp] theorem recordAbort_idx (s : State) : (recordAbort s).idx = s.idx := rfl
@[simp] theorem recordAbort_retries (s : State) : (recordAbort s).retries = s.retries := rfl
@[simp] theorem recordAbort_pollCnt (s : State) : (recordAbort s).pollCnt = s.pollCnt := rfl
@[simp] theorem recordAbort_word (s : State) : (recordAbort s).word = s.word := rfl
@[simp] theorem recordAbort_cause (s : State) : (recordAbort s).cause = s.cause := rfl
@[simp] theorem recordAbort_phase (s : State) : (recordAbort s).phase = s.phase := rfl
@[simp] theorem recordAbort_res (s : State) : (recordAbort s).res = s.res.recordAbort s.cause s.callNo s.idx := rfl
@[simp] theorem recordAbort_env (s : State) : (recordAbort s).env = s.env := rfl
@[simp] theorem recordAbort_hist (s : State) : (recordAbort s).hist = s.hist ++ [.diag s.callNo s.idx s.cause] := rfl
@[simp] theorem recordAbort_disp (s : State) : (recordAbort s).disp = s.disp := rfl
@[simp] theorem recordAbort_op (s : State) : (recordAbort s).op = s.op := rfl
@[simp] theorem recordAbort_host (s : State) : (recordAbort s).host = s.host := rfl
@[simp] theorem recordAbort_rst (s : State) : (recordAbort s).rst = s.rst := rfl
@[simp] theorem recordAbort_draws (s : State) : (recordAbort s).draws = s.draws := rfl
@[simp] theorem recordAbort_past (s : State) : (recordAbort s).past = s.past := rfl

/-! ### finish -/

@[simp] theorem finish_par (s : State) : (finish s).par = s.par := rfl
@[simp] theorem finish_regs (s : State) : (finish s).regs = s.regs := rfl
@[simp] theorem finish_calls (s : State) : (finish s).calls = s.calls := rfl
@[simp] theorem finish_callNo (s : State) : (finish s).callNo = s.callNo := rfl
@[simp] theorem finish_buf (s : State) : (finish s).buf = s.buf := rfl
@[simp] theorem finish_n (s : State) : (finish s).n = s.n := rfl
@[simp] theorem finish_idx (s : State) : (finish s).idx = s.idx := rfl
@[simp] theorem finish_retries (s : State) : (finish s).retries = s.retries := rfl
@[simp] theorem finish_pollCnt (s : State) : (finish s).pollCnt = s.pollCnt := rfl
@[simp] theorem finish_word (s : State) : (finish s).word = s.word := rfl
@[simp] theorem finish_cause (s : State) : (finish s).cause = s.cause := rfl
@[simp] theorem finish_phase (s : State) : (finish s).phase = .idle := rfl
@[simp] theorem finish_res (s : State) : (finish s).res = s.res := rfl
@[simp] theorem finish_env (s : State) : (finish s).env = s.env := rfl
@[simp] theorem finish_hist (s : State) : (finish s).hist = s.hist ++ [.done s.res.word] := rfl
@[simp] theorem finish_disp (s : State) : (finish s).disp = Disp.after s.op s.res.fail s.disp := rfl
@[simp] theorem finish_op (s : State) : (finish s).op = s.op := rfl
@[simp] theorem finish_host (s : State) : (finish s).host = s.host := rfl
@[simp] theorem finish_rst (s : State) : (finish s).rst = s.rst := rfl
@[simp] theorem finish_draws (s : State) : (finish s).draws = s.draws := rfl
@[simp] theorem finish_past (s : State) : (finish s).past = s.past := rfl

/-! ### acceptHeader -/

@[simp] theorem acceptHeader_par (o : Op) (b : List Byte) (s : State) : (acceptHeader o b s).par = s.par := rfl
@[simp] theorem acceptHeader_regs (o : Op) (b : List Byte) (s : State) : (acceptHeader o b s).regs = s.regs := rfl
@[simp] theorem acceptHeader_calls (o : Op) (b : List Byte) (s : State) : (acceptHeader o b s).calls = s.calls := rfl
@[simp] theorem acceptHeader_callNo (o : Op) (b : List Byte) (s : State) : (acceptHeader o b s).callNo = 0 := rfl
@[simp] theorem acceptHeader_buf (o : Op) (b : List Byte) (s : State) : (acceptHeader o b s).buf = s.buf := rfl
@[simp] theorem acceptHeader_n (o : Op) (b : List Byte) (s : State) : (acceptHeader o b s).n = s.n := rfl
@[simp] theorem acceptHeader_idx (o : Op) (b : List Byte) (s : State) : (acceptHeader o b s).idx = s.idx := rfl
@[simp] theorem acceptHeader_retries (o : Op) (b : List Byte) (s : State) : (acceptHeader o b s).retries = s.retries := rfl
@[simp] theorem acceptHeader_pollCnt (o : Op) (b : List Byte) (s : State) : (acceptHeader o b s).pollCnt = s.pollCnt := rfl
@[simp] theorem acceptHeader_word (o : Op) (b : List Byte) (s : State) : (acceptHeader o b s).word = s.word := rfl
@[simp] theorem acceptHeader_cause (o : Op) (b : List Byte) (s : State) : (acceptHeader o b s).cause = s.cause := rfl
@[simp] theorem acceptHeader_phase (o : Op) (b : List Byte) (s : State) : (acceptHeader o b s).phase = s.phase := rfl
@[simp] theorem acceptHeader_res (o : Op) (b : List Byte) (s : State) : (acceptHeader o b s).res = .clear := rfl
@[simp] theorem acceptHeader_env (o : Op) (b : List Byte) (s : State) : (acceptHeader o b s).env = s.env := rfl
@[simp] theorem acceptHeader_hist (o : Op) (b : List Byte) (s : State) : (acceptHeader o b s).hist = s.hist ++ [.acc o b.length b] := rfl
@[simp] theorem acceptHeader_disp (o : Op) (b : List Byte) (s : State) : (acceptHeader o b s).disp = s.disp := rfl
@[simp] theorem acceptHeader_op (o : Op) (b : List Byte) (s : State) : (acceptHeader o b s).op = o := rfl
@[simp] theorem acceptHeader_host (o : Op) (b : List Byte) (s : State) : (acceptHeader o b s).host = s.host := rfl
@[simp] theorem acceptHeader_rst (o : Op) (b : List Byte) (s : State) : (acceptHeader o b s).rst = s.rst := rfl
@[simp] theorem acceptHeader_draws (o : Op) (b : List Byte) (s : State) : (acceptHeader o b s).draws = s.draws := rfl
@[simp] theorem acceptHeader_past (o : Op) (b : List Byte) (s : State) : (acceptHeader o b s).past = s.past := rfl

/-! ### reject -/

@[simp] theorem reject_par (h : Word) (s : State) : (reject h s).par = s.par := rfl
@[simp] theorem reject_regs (h : Word) (s : State) : (reject h s).regs = s.regs := rfl
@[simp] theorem reject_calls (h : Word) (s : State) : (reject h s).calls = s.calls := rfl
@[simp] theorem reject_callNo (h : Word) (s : State) : (reject h s).callNo = s.callNo := rfl
@[simp] theorem reject_buf (h : Word) (s : State) : (reject h s).buf = s.buf := rfl
@[simp] theorem reject_n (h : Word) (s : State) : (reject h s).n = s.n := rfl
@[simp] theorem reject_idx (h : Word) (s : State) : (reject h s).idx = s.idx := rfl
@[simp] theorem reject_retries (h : Word) (s : State) : (reject h s).retries = s.retries := rfl
@[simp] theorem reject_pollCnt (h : Word) (s : State) : (reject h s).pollCnt = s.pollCnt := rfl
@[simp] theorem reject_word (h : Word) (s : State) : (reject h s).word = s.word := rfl
@[simp] theorem reject_cause (h : Word) (s : State) : (reject h s).cause = s.cause := rfl
@[simp] theorem reject_phase (h : Word) (s : State) : (reject h s).phase = s.phase := rfl
@[simp] theorem reject_res (h : Word) (s : State) : (reject h s).res = Result.refusedHeader := rfl
@[simp] theorem reject_env (h : Word) (s : State) : (reject h s).env = s.env := rfl
@[simp] theorem reject_hist (h : Word) (s : State) : (reject h s).hist = (s.hist ++ [.rej h]) ++ [.done Result.refusedHeader.word] := rfl
@[simp] theorem reject_disp (h : Word) (s : State) : (reject h s).disp = s.disp := rfl
@[simp] theorem reject_op (h : Word) (s : State) : (reject h s).op = s.op := rfl
@[simp] theorem reject_host (h : Word) (s : State) : (reject h s).host = s.host := rfl
@[simp] theorem reject_rst (h : Word) (s : State) : (reject h s).rst = s.rst := rfl
@[simp] theorem reject_draws (h : Word) (s : State) : (reject h s).draws = s.draws := rfl
@[simp] theorem reject_past (h : Word) (s : State) : (reject h s).past = s.past := rfl

/-! ### Storage registers -/

@[simp] theorem Stored.get_put (v : Word) : (Stored.put v).get = some v := rfl

@[simp] theorem Stored.get_reset : Stored.reset.get = none := rfl

@[simp] theorem Stored.put_written (v : Word) : (Stored.put v).written = true := rfl

@[simp] theorem Stored.put_val (v : Word) : (Stored.put v).val = v := rfl

end Sys2Proof.Machine
end

