-- ==== Sys2Proof/Laws/Ops.lean ====
section
/-! SUPPORT. What each shared operation can do, said once: the environment's turns and answers, RegRead and
RegWrite, and how an access ends a step. -/

namespace Sys2Proof.Machine

/-! ### The environment -/

@[simp] theorem Env.turn_eq_absent (b : Bool) (e : Env) : e.turn b = .absent ↔ e = .absent := by
  cases e <;> simp [Env.turn]

@[simp] theorem Env.offer_eq_absent (d : Nat) (w : Word) (e : Env) : e.offer d w = .absent ↔ e = .absent := by
  cases e <;> simp [Env.offer]

theorem Env.readStatus_ne_absent (d : Nat) {e : Env} (h : e ≠ .absent) : (e.readStatus d).2 ≠ .absent := by
  cases e with
  | script status raw => cases status <;> simp [Env.readStatus]
  | oracle k => simp [Env.readStatus]
  | reference r => simp [Env.readStatus]
  | absent => exact absurd rfl h

theorem Env.readRaw_ne_absent {e : Env} (h : e ≠ .absent) : e.readRaw.2 ≠ .absent := by
  cases e with
  | script status raw => cases raw <;> simp [Env.readRaw]
  | oracle k => simp [Env.readRaw]
  | reference r => simp [Env.readRaw]
  | absent => exact absurd rfl h

/-- A move of the reference environment never lengthens its FIFO. -/
theorem RefEnv.move_fifo_le (b : Bool) (r : RefEnv) (m : EnvMove) :
    (r.move b m).fifo.length ≤ r.fifo.length := by
  cases m with
  | drain =>
    cases b with
    | false => simp [RefEnv.move]
    | true => cases h : r.fifo <;> simp [RefEnv.move, h]
  | setAbrt => simp [RefEnv.move]
  | clearAbrt => simp [RefEnv.move]

theorem RefEnv.moves_fifo_le (b : Bool) (ms : List EnvMove) (r : RefEnv) :
    (ms.foldl (RefEnv.move b) r).fifo.length ≤ r.fifo.length := by
  induction ms generalizing r with
  | nil => simp
  | cons m ms ih => exact Nat.le_trans (ih _) (RefEnv.move_fifo_le b r m)

/-- A turn of the reference environment never lengthens its FIFO (R65 d). -/
theorem RefEnv.turn_fifo_le (b : Bool) (r : RefEnv) : (r.turn b).fifo.length ≤ r.fifo.length := by
  unfold RefEnv.turn
  split
  · exact Nat.le_refl _
  · exact RefEnv.moves_fifo_le b _ _

/-- While ENABLE does not hold 1 no word reaches the bus (R65 d). -/
theorem RefEnv.move_disabled (r : RefEnv) (m : EnvMove) :
    (r.move false m).fifo = r.fifo ∧ (r.move false m).bus = r.bus := by
  cases m <;> simp [RefEnv.move]

theorem RefEnv.moves_disabled (ms : List EnvMove) (r : RefEnv) :
    (ms.foldl (RefEnv.move false) r).fifo = r.fifo ∧ (ms.foldl (RefEnv.move false) r).bus = r.bus := by
  induction ms generalizing r with
  | nil => simp
  | cons m ms ih => simpa [RefEnv.move_disabled] using ih (r.move false m)

theorem RefEnv.turn_disabled (r : RefEnv) :
    (r.turn false).fifo = r.fifo ∧ (r.turn false).bus = r.bus := by
  unfold RefEnv.turn
  split
  · simp
  · exact RefEnv.moves_disabled _ _

theorem RefEnv.suffer_fifo_le (d : Nat) (r : RefEnv) (f : OverflowFate) (h : r.fifo.length ≤ d) :
    (r.suffer d f).fifo.length ≤ d := by
  cases f with
  | lost => exact h
  | becomes fifo bus abrt => simp [RefEnv.suffer]

/-- An offered word never makes the FIFO longer than its depth (R65 c). -/
theorem RefEnv.offer_fifo_le (d : Nat) (w : Word) (r : RefEnv) (h : r.fifo.length ≤ d) :
    (r.offer d w).fifo.length ≤ d := by
  unfold RefEnv.offer
  split
  · simp; omega
  · split
    · exact RefEnv.suffer_fifo_le _ _ _ h
    · exact RefEnv.suffer_fifo_le _ _ _ h

/-! ### RegRead and RegWrite -/

/-- An access with the controller absent raises Fault and does nothing else (R63). -/
theorem regRead_absent {s : State} (r : Reg) (h : s.env = .absent) : regRead r s = .fault s.raiseFault := by
  simp [regRead, h]

theorem regWrite_absent {s : State} (r : Reg) (v : Word) (h : s.env = .absent) :
    regWrite r v s = .fault s.raiseFault := by
  simp [regWrite, h]

/-- RegRead(STATUS) at a present controller: one event and the environment's move, nothing else (R90). -/
theorem regRead_status {s : State} (h : s.env ≠ .absent) :
    regRead .status s = .ok (s.envTurn.env.readStatus s.par.fifoDepth).1
      { s with
        env  := (s.envTurn.env.readStatus s.par.fifoDepth).2
        hist := s.hist ++ [.rd .status (s.envTurn.env.readStatus s.par.fifoDepth).1] } := by
  simp [regRead, h, readPresent, readReturns, State.emit, State.envTurn]

/-- RegRead(RAW_INTR_STAT) at a present controller (R90). -/
theorem regRead_rawIntrStat {s : State} (h : s.env ≠ .absent) :
    regRead .rawIntrStat s = .ok s.envTurn.env.readRaw.1
      { s with
        env  := s.envTurn.env.readRaw.2
        hist := s.hist ++ [.rd .rawIntrStat s.envTurn.env.readRaw.1] } := by
  simp [regRead, h, readPresent, readReturns, State.emit, State.envTurn]

/-- RegWrite of a storage register at a present controller: that register keeps the word, one event, the
environment's turn, nothing else (R91). -/
theorem regWrite_storage {s : State} {r : Reg} (v : Word) (h : s.env ≠ .absent)
    (hr : r = .funcsel ∨ r = .ctrl ∨ r = .tar ∨ r = .enable) :
    regWrite r v s = .ok ()
      { s with
        regs := s.regs.write v r
        env  := s.envTurn.env
        hist := s.hist ++ [.wr r v] } := by
  obtain rfl | rfl | rfl | rfl := hr <;>
    simp [regWrite, h, writePresent, writeCompletes, State.emit, State.envTurn, RegSet.write]

/-- RegWrite of DATA_CMD at a present controller: the word is offered, one event, nothing else (R91). -/
theorem regWrite_dataCmd {s : State} (v : Word) (h : s.env ≠ .absent) :
    regWrite .dataCmd v s = .ok ()
      { s with
        env  := s.envTurn.env.offer s.par.fifoDepth v
        hist := s.hist ++ [.wr .dataCmd v] } := by
  simp [regWrite, h, writePresent, writeCompletes, State.emit, State.envTurn]

/-! ### Going on after an access -/

@[simp] theorem andThen_ok {α : Type} (a : α) (s : State)
    (k : α → State → Host.Outcome State Fault Refusal) : (Access.ok a s).andThen k = k a s := rfl

@[simp] theorem andThen_fault {α : Type} (s : State)
    (k : α → State → Host.Outcome State Fault Refusal) : (Access.fault s).andThen k = .next s := rfl

/-- A write makes its word the value last written to that register, and the other registers are untouched. -/
theorem lastWritten_write (g : RegSet) (v : Word) (r r' : Reg)
    (hr : r = .funcsel ∨ r = .ctrl ∨ r = .tar ∨ r = .enable) :
    (g.write v r).lastWritten r' = if r' = r then some v else g.lastWritten r' := by
  obtain rfl | rfl | rfl | rfl := hr <;> cases r' <;> rfl

end Sys2Proof.Machine
end

