-- ==== Sys2Proof/Laws/PerInstr.lean ====
section
/-! SUPPORT. A fact about every command as syntax, one lemma per constructor: it is given back by its
operation code and its payload, and has no payload where the header announces none (R71, R72). -/

namespace Sys2Proof.Laws.CodeAndPayload

/-- The code and the payload of a command determine it, and LEN is 0 where R72 says so. -/
def Statement (i : Instr) : Prop :=
  Op.ofCode i.op.code = some i.op ∧ i.op.instr i.payload = i ∧
    (i.op.takesPayload = false → i.payload.length = 0)

theorem init : Statement .init := ⟨rfl, rfl, fun _ => rfl⟩
theorem write (buf : List Byte) : Statement (.write buf) := ⟨rfl, rfl, nofun⟩
theorem sendCommand (c : List Byte) : Statement (.sendCommand c) := ⟨rfl, rfl, nofun⟩
theorem sendData (d : List Byte) : Statement (.sendData d) := ⟨rfl, rfl, nofun⟩
theorem initDisplay : Statement .initDisplay := ⟨rfl, rfl, fun _ => rfl⟩
theorem clearDisplay : Statement .clearDisplay := ⟨rfl, rfl, fun _ => rfl⟩
theorem displayText (t : List Byte) : Statement (.displayText t) := ⟨rfl, rfl, nofun⟩

end Sys2Proof.Laws.CodeAndPayload
end

