-- ==== Sys2Proof/Laws/Sequencer.lean ====
section
/-! SUPPORT. What each phase of the sequencer can do, said once per phase, and what starting a write call
can do. -/

namespace Sys2Proof.Machine

/-! ### Starting and ending write calls -/

@[simp] theorem startCall_nil (s : State) : startCall [] s = finish { s with calls := [] } := rfl

/-- Nothing to count in an empty buffer (R110). -/
@[simp] theorem countOf_nil : countOf [] = 0 := rfl

/-- `n` holds the length of every buffer of at most 65535 bytes (R30). -/
theorem countOf_toNat {buf : List Byte} (h : payloadFits buf) : (countOf buf).toNat = buf.length := by
  have : buf.length ≤ 65535 := h
  rw [countOf, if_pos h, BitVec.toNat_ofNat]
  omega

/-- `n` never counts more than the buffer has. -/
theorem countOf_le (buf : List Byte) : (countOf buf).toNat ≤ buf.length := by
  by_cases h : payloadFits buf
  · exact Nat.le_of_eq (countOf_toNat h)
  · have : ¬ buf.length ≤ 65535 := h
    have := (countOf buf).isLt
    omega

/-- A write call goes through the whole of a buffer of at most 65535 bytes (R102). -/
theorem callBytes_eq {buf : List Byte} (h : payloadFits buf) : callBytes buf = buf := by
  rw [callBytes, countOf_toNat h, List.take_length]

/-- A buffer of which `n` counts nothing is passed over (R111). -/
theorem startCall_skip {buf : List Byte} (h : countOf buf = 0) (later : List (List Byte)) (s : State) :
    startCall (buf :: later) s =
      startCall later { s with callNo := s.callNo + 1, buf := buf, n := 0, idx := 0 } := if_pos h

@[simp] theorem startCall_empty (later : List (List Byte)) (s : State) :
    startCall ([] :: later) s =
      startCall later { s with callNo := s.callNo + 1, buf := [], n := 0, idx := 0 } := startCall_skip rfl _ _

/-- Any other buffer becomes the current write call (R111). -/
theorem startCall_buffer {buf : List Byte} (h : countOf buf ≠ 0) (later : List (List Byte)) (s : State) :
    startCall (buf :: later) s =
      { s with
        calls   := later
        buf     := buf
        n       := countOf buf
        idx     := 0
        retries := Config.retryInit
        cause   := .none
        phase   := .wBuild } := if_neg h

/-- What starting a call can end in: the command is finished, or the block stands at the first byte of the
first buffer in which `n` counts one. -/
theorem startCall_cases (calls : List (List Byte)) (s : State) :
    ((startCall calls s).phase = .idle ∧ (startCall calls s).calls = [] ∧
      (startCall calls s).hist = s.hist ++ [.done s.res.word] ∧
      (startCall calls s).disp = Disp.after s.op s.res.fail s.disp ∧ ∀ c ∈ calls, countOf c = 0) ∨
    ((startCall calls s).phase = .wBuild ∧ (startCall calls s).hist = s.hist ∧
      (startCall calls s).disp = s.disp ∧
      (startCall calls s).retries = Config.retryInit ∧ (startCall calls s).cause = .none ∧
      (startCall calls s).idx = 0 ∧ (startCall calls s).n ≠ 0 ∧
      (startCall calls s).n = countOf (startCall calls s).buf ∧
      ∃ passed : List (List Byte), (∀ c ∈ passed, countOf c = 0) ∧
        calls = passed ++ (startCall calls s).buf :: (startCall calls s).calls ∧
        (startCall calls s).callNo = s.callNo + BitVec.ofNat 3 passed.length) := by
  induction calls generalizing s with
  | nil => exact .inl ⟨rfl, rfl, rfl, rfl, nofun⟩
  | cons c later ih =>
    by_cases hc : countOf c = 0
    · rw [startCall_skip hc]
      rcases ih { s with callNo := s.callNo + 1, buf := c, n := 0, idx := 0 } with
        ⟨h1, h2, h3, h4, h5⟩ | ⟨h1, h2, h3, h4, h5, h6, h7, h8, passed, hp, hk, hn⟩
      · exact .inl ⟨h1, h2, h3, h4, List.forall_mem_cons.2 ⟨hc, h5⟩⟩
      · refine .inr ⟨h1, h2, h3, h4, h5, h6, h7, h8, c :: passed, List.forall_mem_cons.2 ⟨hc, hp⟩,
          congrArg (c :: ·) hk, ?_⟩
        rw [hn, List.length_cons, BitVec.ofNat_add, BitVec.add_assoc,
          BitVec.add_comm (BitVec.ofNat 3 passed.length)]
        rfl
    · rw [startCall_buffer hc]
      exact .inr ⟨rfl, rfl, rfl, rfl, rfl, rfl, hc, rfl, [], nofun, rfl, (BitVec.add_zero _).symm⟩

/-- What starting a call leaves alone. -/
theorem startCall_frame (calls : List (List Byte)) (s : State) :
    (startCall calls s).par = s.par ∧ (startCall calls s).regs = s.regs ∧
      (startCall calls s).res = s.res ∧ (startCall calls s).env = s.env ∧
      (startCall calls s).op = s.op ∧ (startCall calls s).host = s.host ∧
      (startCall calls s).rst = s.rst ∧ (startCall calls s).pollCnt = s.pollCnt ∧
      (startCall calls s).word = s.word ∧ (startCall calls s).past = s.past := by
  induction calls generalizing s with
  | nil => exact ⟨rfl, rfl, rfl, rfl, rfl, rfl, rfl, rfl, rfl, rfl⟩
  | cons c later ih =>
    by_cases hc : countOf c = 0
    · rw [startCall_skip hc]
      exact ih _
    · rw [startCall_buffer hc]
      exact ⟨rfl, rfl, rfl, rfl, rfl, rfl, rfl, rfl, rfl, rfl⟩

@[simp] theorem startCall_par (cs : List (List Byte)) (s : State) : (startCall cs s).par = s.par :=
  (startCall_frame cs s).1
@[simp] theorem startCall_regs (cs : List (List Byte)) (s : State) : (startCall cs s).regs = s.regs :=
  (startCall_frame cs s).2.1
@[simp] theorem startCall_res (cs : List (List Byte)) (s : State) : (startCall cs s).res = s.res :=
  (startCall_frame cs s).2.2.1
@[simp] theorem startCall_env (cs : List (List Byte)) (s : State) : (startCall cs s).env = s.env :=
  (startCall_frame cs s).2.2.2.1
@[simp] theorem startCall_op (cs : List (List Byte)) (s : State) : (startCall cs s).op = s.op :=
  (startCall_frame cs s).2.2.2.2.1
@[simp] theorem startCall_host (cs : List (List Byte)) (s : State) : (startCall cs s).host = s.host :=
  (startCall_frame cs s).2.2.2.2.2.1
@[simp] theorem startCall_rst (cs : List (List Byte)) (s : State) : (startCall cs s).rst = s.rst :=
  (startCall_frame cs s).2.2.2.2.2.2.1
@[simp] theorem startCall_past (cs : List (List Byte)) (s : State) : (startCall cs s).past = s.past :=
  (startCall_frame cs s).2.2.2.2.2.2.2.2.2

/-! ### The phases of INIT -/

/-- One INIT step at a present controller (R100, R111). -/
theorem initStep_present {s : State} (r : Reg) (v : Word) (p : Phase) (h : s.env ≠ .absent)
    (hr : r = .funcsel ∨ r = .ctrl ∨ r = .tar ∨ r = .enable) :
    initStep r v p s = .next
      { s with
        regs  := s.regs.write v r
        env   := s.envTurn.env
        hist  := s.hist ++ [.wr r v]
        phase := p } := by
  simp [initStep, regWrite_storage v h hr]

/-- The last INIT step at a present controller (R100, R111). -/
theorem initLast_present {s : State} (h : s.env ≠ .absent) :
    initLast s = .next
      { s with
        regs  := s.regs.write 0x00000001 .enable
        env   := s.envTurn.env
        hist  := s.hist ++ [.wr .enable 0x00000001] ++ [.done 0x00000000]
        phase := .idle } := by
  unfold initLast
  rw [regWrite_storage _ h (by simp)]
  simp [State.emit]

/-! ### The phases of WRITE -/

/-- W_BUILD at a byte (R103). -/
theorem buildStep_byte {s : State} {b : Byte} (h : s.buf[s.idx.toNat]? = some b) :
    buildStep s = .next
      { s with
        word    := fifoWord b (s.idx + 1 == s.n)
        pollCnt := Config.pollInit
        phase   := .wPoll } := by
  simp [buildStep, h]

/-- W_POLL at a present controller (R104). -/
theorem pollStep_present {s : State} (h : s.env ≠ .absent) :
    pollStep s = .next (pollResult (s.envTurn.env.readStatus s.par.fifoDepth).1
      { s with
        env  := (s.envTurn.env.readStatus s.par.fifoDepth).2
        hist := s.hist ++ [.rd .status (s.envTurn.env.readStatus s.par.fifoDepth).1] }) := by
  simp [pollStep, regRead_status h]

/-- W_ISSUE at a present controller (R105). -/
theorem issueStep_present {s : State} (h : s.env ≠ .absent) :
    issueStep s = .next
      { s with
        env   := s.envTurn.env.offer s.par.fifoDepth s.word
        hist  := s.hist ++ [.wr .dataCmd s.word]
        phase := .wPace } := by
  simp [issueStep, regWrite_dataCmd s.word h]

/-- W_PACE (R106). -/
theorem paceStep_next (s : State) :
    paceStep s = .next
      { s with
        env   := s.envTurn.env
        hist  := s.hist ++ [.delay s.par.paceN]
        phase := .wCheck } := rfl

/-- W_CHECK at a present controller (R107, R108). -/
theorem checkStep_present {s : State} (h : s.env ≠ .absent) :
    checkStep s = .next (checkResult s.envTurn.env.readRaw.1
      { s with
        env  := s.envTurn.env.readRaw.2
        hist := s.hist ++ [.rd .rawIntrStat s.envTurn.env.readRaw.1] }) := by
  simp [checkStep, regRead_rawIntrStat h]

/-- The four ways an attempt is settled (R111 row W_CHECK). -/
theorem settle_cases (a : Bool) (s : State) :
    (givesUp a s = true ∧ settle a s = endCall (recordAbort s)) ∨
    (givesUp a s = false ∧ a = true ∧ settle a s = { s with phase := .wBuild }) ∨
    (givesUp a s = false ∧ a = false ∧ s.idx + 1 = s.n ∧ settle a s = endCall s) ∨
    (givesUp a s = false ∧ a = false ∧ s.idx + 1 ≠ s.n ∧
      settle a s = { s with
        idx := s.idx + 1, retries := Config.retryInit, cause := .none, phase := .wBuild }) := by
  unfold settle
  by_cases hg : givesUp a s = true
  · exact .inl ⟨hg, by simp [hg]⟩
  · cases a with
    | true => exact .inr (.inl ⟨by simpa using hg, rfl, by simp [hg]⟩)
    | false =>
      by_cases hi : s.idx + 1 = s.n
      · exact .inr (.inr (.inl ⟨by simpa using hg, rfl, hi,
          by rw [if_neg hg, if_neg (by simp), if_pos hi]⟩))
      · exact .inr (.inr (.inr ⟨by simpa using hg, rfl, hi,
          by rw [if_neg hg, if_neg (by simp), if_neg hi]⟩))

/-- The three ways a poll goes on (R104). -/
theorem pollResult_cases (v : Word) (s : State) :
    (tfnf v = true ∧ pollResult v s = { s with phase := .wIssue }) ∨
    (tfnf v = false ∧ s.pollCnt = 1 ∧ pollResult v s = { s with
        pollCnt := 0, retries := s.retries - 1, cause := .fifoTimeout, phase := .wIssue }) ∨
    (tfnf v = false ∧ s.pollCnt ≠ 1 ∧ pollResult v s = { s with pollCnt := s.pollCnt - 1 }) := by
  unfold pollResult
  cases hv : tfnf v with
  | true => simp
  | false =>
    by_cases hp : s.pollCnt = 1
    · simp [hp]
    · have : s.pollCnt - 1 ≠ 0 := by bv_omega
      exact .inr (.inr ⟨rfl, hp, by rw [if_neg (by simp), if_neg this]⟩)

end Sys2Proof.Machine
end

