-- ==== Sys2Proof/Laws/Step.lean ====
section
/-! SUPPORT. How a step unfolds in each phase, and how runs compose. -/

namespace Sys2Proof.Machine

theorem step_rst {s : State} (h : s.rst = true) : step s = .next (applyReset s) := by simp [step, h]

theorem step_idle {s : State} (hr : s.rst = false) (hp : s.phase = .idle) : step s = idleStep s := by
  simp [step, hr, hp]

theorem step_busy {s : State} (hr : s.rst = false) (hp : s.phase ≠ .idle) : step s = sequencerStep s := by
  simp [step, hr, hp]

theorem step_i1 {s : State} (hr : s.rst = false) (hp : s.phase = .i1) :
    step s = initStep .funcsel s.par.funcselI2c .i2 s := by simp [step, hr, hp, sequencerStep]

theorem step_i2 {s : State} (hr : s.rst = false) (hp : s.phase = .i2) :
    step s = initStep .enable 0x00000000 .i3 s := by simp [step, hr, hp, sequencerStep]

theorem step_i3 {s : State} (hr : s.rst = false) (hp : s.phase = .i3) :
    step s = initStep .ctrl s.par.ctrlInit .i4 s := by simp [step, hr, hp, sequencerStep]

theorem step_i4 {s : State} (hr : s.rst = false) (hp : s.phase = .i4) :
    step s = initStep .tar 0x0000003C .i5 s := by simp [step, hr, hp, sequencerStep]

theorem step_i5 {s : State} (hr : s.rst = false) (hp : s.phase = .i5) : step s = initLast s := by
  simp [step, hr, hp, sequencerStep]

theorem step_wBuild {s : State} (hr : s.rst = false) (hp : s.phase = .wBuild) : step s = buildStep s := by
  simp [step, hr, hp, sequencerStep]

theorem step_wPoll {s : State} (hr : s.rst = false) (hp : s.phase = .wPoll) : step s = pollStep s := by
  simp [step, hr, hp, sequencerStep]

theorem step_wIssue {s : State} (hr : s.rst = false) (hp : s.phase = .wIssue) : step s = issueStep s := by
  simp [step, hr, hp, sequencerStep]

theorem step_wPace {s : State} (hr : s.rst = false) (hp : s.phase = .wPace) : step s = paceStep s := by
  simp [step, hr, hp, sequencerStep]

theorem step_wCheck {s : State} (hr : s.rst = false) (hp : s.phase = .wCheck) : step s = checkStep s := by
  simp [step, hr, hp, sequencerStep]

theorem step_fault {s : State} (hr : s.rst = false) (hp : s.phase = .fault) : step s = .next s := by
  simp [step, hr, hp, sequencerStep]

/-! ### What a command acceptance can do -/

/-- `exec` always answers a next state: the command is accepted, or it waits because the block is BUSY. -/
theorem exec_busy {s : State} (i : Instr) (h : s.phase ≠ .idle) : exec i s = .next s := by
  cases i <;> simp [exec, execInit, execWrite, execSendCommand, execSendData, execInitDisplay,
    execClearDisplay, execDisplayText, acceptInit, acceptCalls, h]

/-- Acceptance of INIT in IDLE (R111). -/
theorem exec_init {s : State} (h : s.phase = .idle) :
    exec .init s = .next { acceptHeader .init [] s with phase := .i1 } := by
  simp [exec, execInit, acceptInit, h]

/-- Acceptance of every other command in IDLE starts the calls of the table of R130. -/
theorem exec_calls {s : State} {i : Instr} (h : s.phase = .idle) (hi : i ≠ .init) :
    exec i s = .next (startCall (callsOf s.par i) (acceptHeader i.op i.payload s)) := by
  cases i with
  | init => exact absurd rfl hi
  | clearDisplay => simp only [exec, execClearDisplay, acceptCalls, h, if_true]; rfl
  | write buf => simp only [exec, execWrite, acceptCalls, h, if_true]; rfl
  | sendCommand c => simp only [exec, execSendCommand, acceptCalls, h, if_true]; rfl
  | sendData d => simp only [exec, execSendData, acceptCalls, h, if_true]; rfl
  | initDisplay => simp only [exec, execInitDisplay, acceptCalls, h, if_true]; rfl
  | displayText t => simp only [exec, execDisplayText, acceptCalls, h, if_true]; rfl

/-- With WINDOW_LEN and TEXT_MAX in bounds no buffer of a well-formed command is longer than `n` can count
(R30, R102). -/
theorem callsOf_fits {p : Params} (hp : BuffersFit p) {i : Instr} (hi : i.WellFormed) :
    ∀ c ∈ callsOf p i, payloadFits c := by
  obtain ⟨hw, ht⟩ := hp
  cases i with
  | init => simp [callsOf]
  | write buf => simpa [callsOf] using hi
  | sendCommand c => simpa [callsOf, payloadFits, Config.lenMax] using hi
  | sendData d => simpa [callsOf, payloadFits, Config.lenMax] using hi
  | initDisplay => simp [callsOf, payloadFits, Config.lenMax]
  | clearDisplay =>
    simp only [callsOf, List.mem_cons, List.not_mem_nil, or_false]
    rintro c (rfl | rfl | rfl | rfl | rfl | rfl)
    case inr.inr.inl => exact hw
    all_goals simp [-List.reduceReplicate, payloadFits, Config.lenMax]
  | displayText t =>
    rw [Config.lenMax] at ht
    simp only [callsOf, List.mem_singleton, payloadFits, Config.lenMax]
    rintro c rfl
    simp only [List.cons_append, List.nil_append, List.length_cons, List.length_take]
    omega

/-- A command is at most six write calls (R30). -/
theorem callsOf_length (p : Params) (i : Instr) : (callsOf p i).length ≤ 6 := by
  cases i <;> simp [-List.reduceReplicate, callsOf]

/-- What a step in IDLE can do (R111): wait, take a command, refuse a header. -/
theorem idleStep_cases (s : State) :
    idleStep s = .next s ∨
    (∃ o later i, s.host = o :: later ∧ decode o = .ok i ∧
      idleStep s = exec i { s with host := later }) ∨
    (∃ o later, s.host = o :: later ∧ idleStep s = .next (reject o.header { s with host := later })) := by
  cases hh : s.host with
  | nil => exact .inl (by simp [idleStep, fetch, hh])
  | cons o later =>
    cases hd : decode o with
    | ok i => exact .inr (.inl ⟨o, later, i, rfl, hd, by simp [idleStep, fetch, hh, hd]⟩)
    | error e =>
      cases e with
      | illegal why => exact .inr (.inr ⟨o, later, rfl, by simp [idleStep, fetch, hh, hd]⟩)
      | incomplete => exact .inl (by simp [idleStep, fetch, hh, hd])

/-- The phases whose step makes a register access. -/
def Phase.accesses : Phase → Bool
  | .i1 | .i2 | .i3 | .i4 | .i5 | .wPoll | .wIssue | .wCheck => true
  | .idle | .wBuild | .wPace | .fault => false

/-- With the controller absent an access ends in FAULT (R154). -/
theorem step_absent {s : State} (hr : s.rst = false) (hp : s.phase.accesses = true)
    (he : s.env = .absent) : step s = .next s.raiseFault := by
  cases h : s.phase <;> simp [h, Phase.accesses] at hp
  · simp [step_i1 hr h, initStep, regWrite_absent _ _ he]
  · simp [step_i2 hr h, initStep, regWrite_absent _ _ he]
  · simp [step_i3 hr h, initStep, regWrite_absent _ _ he]
  · simp [step_i4 hr h, initStep, regWrite_absent _ _ he]
  · simp [step_i5 hr h, initLast, regWrite_absent _ _ he]
  · simp [step_wPoll hr h, pollStep, regRead_absent _ he]
  · simp [step_wIssue hr h, issueStep, regWrite_absent _ _ he]
  · simp [step_wCheck hr h, checkStep, regRead_absent _ he]

/-- What a step that answers a next state can do, said once: reset, the row IDLE of R111, a Fault, or the
row of the phase. -/
theorem step_cases {s t : State} (h : step s = .next t) :
    (s.rst = true ∧ t = applyReset s) ∨
    (s.rst = false ∧ s.phase = .idle ∧ idleStep s = .next t) ∨
    (s.rst = false ∧ s.phase.accesses = true ∧ s.env = .absent ∧ t = s.raiseFault) ∨
    (s.rst = false ∧ s.phase = .fault ∧ t = s) ∨
    (s.rst = false ∧ s.phase = .wBuild ∧ ∃ b, s.buf[s.idx.toNat]? = some b ∧ t =
      { s with
        word    := fifoWord b (s.idx + 1 == s.n)
        pollCnt := Config.pollInit
        phase   := .wPoll }) ∨
    (s.rst = false ∧ s.phase = .wPace ∧ t =
      { s with env := s.envTurn.env, hist := s.hist ++ [.delay s.par.paceN], phase := .wCheck }) ∨
    (s.rst = false ∧ s.env ≠ .absent ∧
      ((s.phase = .i1 ∧ initStep .funcsel s.par.funcselI2c .i2 s = .next t) ∨
       (s.phase = .i2 ∧ initStep .enable 0x00000000 .i3 s = .next t) ∨
       (s.phase = .i3 ∧ initStep .ctrl s.par.ctrlInit .i4 s = .next t) ∨
       (s.phase = .i4 ∧ initStep .tar 0x0000003C .i5 s = .next t) ∨
       (s.phase = .i5 ∧ initLast s = .next t) ∨
       (s.phase = .wPoll ∧ pollStep s = .next t) ∨
       (s.phase = .wIssue ∧ issueStep s = .next t) ∨
       (s.phase = .wCheck ∧ checkStep s = .next t))) := by
  rcases Bool.eq_false_or_eq_true s.rst with hr | hr
  · rw [step_rst hr] at h
    cases h
    simp [hr]
  · by_cases ha : s.phase.accesses = true ∧ s.env = .absent
    · rw [step_absent hr ha.1 ha.2] at h; cases h; simp [hr, ha.1, ha.2]
    · cases hp : s.phase
      case idle => rw [step_idle hr hp] at h; simp [hr, h]
      case fault => rw [step_fault hr hp] at h; cases h; simp [hr]
      case wPace =>
        rw [step_wPace hr hp, paceStep_next] at h
        cases h
        exact .inr (.inr (.inr (.inr (.inr (.inl ⟨hr, rfl, rfl⟩)))))
      case wBuild =>
        rw [step_wBuild hr hp] at h
        cases hb : s.buf[s.idx.toNat]? with
        | none => simp [buildStep, hb] at h
        | some b =>
          rw [buildStep_byte hb] at h
          cases h
          exact .inr (.inr (.inr (.inr (.inl ⟨hr, rfl, b, rfl, rfl⟩))))
      all_goals
        have he : s.env ≠ .absent := fun e => ha ⟨by simp [hp, Phase.accesses], e⟩
        rw [step_busy hr (by simp [hp])] at h
        simp only [sequencerStep, hp] at h
        refine .inr (.inr (.inr (.inr (.inr (.inr ⟨hr, he, ?_⟩)))))
        simp only [reduceCtorEq, false_and, true_and, false_or, or_false]
        exact h

/-! ### Runs -/

@[simp] theorem runSteps_zero (s : State) : runSteps 0 s = .next s := rfl

theorem runSteps_succ {s t : State} (k : Nat) (h : step s = .next t) :
    runSteps (k + 1) s = runSteps k t := by simp [runSteps, h]

/-- Runs compose. -/
theorem runSteps_add {s t : State} {j : Nat} (k : Nat) (h : runSteps j s = .next t) :
    runSteps (j + k) s = runSteps k t := by
  induction j generalizing s with
  | zero =>
    cases h
    simp
  | succ j ih =>
    rw [Nat.succ_add]
    simp only [runSteps] at h ⊢
    split at h
    · exact ih h
    · cases h
    · cases h

end Sys2Proof.Machine
end

