-- ==== Sys2Proof/Laws/Runs.lean ====
section
/-! SUPPORT. Runs through busy states: how they compose, how they give a completed command, and that under
ENV_IDEAL every command is clean, so that statements about clean commands speak of something. -/

namespace Sys2Proof.Machine

/-- `k` steps from `s` to `u`, every state before `u` being BUSY. -/
def BusyRun (k : Nat) (s u : State) : Prop :=
  runSteps k s = .next u ∧ ∀ j < k, ∃ v, runSteps j s = .next v ∧ v.phase ≠ .idle

theorem BusyRun.refl (s : State) : BusyRun 0 s s := ⟨rfl, fun _ h => absurd h (by omega)⟩

theorem BusyRun.step {k : Nat} {s t u : State} (hp : s.phase ≠ .idle) (h : step s = .next t)
    (hu : BusyRun k t u) : BusyRun (k + 1) s u := by
  refine ⟨by rw [runSteps_succ k h]; exact hu.1, fun j hj => ?_⟩
  cases j with
  | zero => exact ⟨s, rfl, hp⟩
  | succ j => rw [runSteps_succ j h]; exact hu.2 j (by omega)

theorem BusyRun.trans {j k : Nat} {s t u : State} (h : BusyRun j s t) (h' : BusyRun k t u) :
    BusyRun (j + k) s u := by
  refine ⟨by rw [runSteps_add k h.1]; exact h'.1, fun i hi => ?_⟩
  by_cases hij : i < j
  · exact h.2 i hij
  · obtain ⟨i, rfl⟩ := Nat.exists_eq_add_of_le (Nat.le_of_not_lt hij)
    rw [runSteps_add i h.1]
    exact h'.2 i (by omega)

/-- A busy run to IDLE after the acceptance is a completed command. -/
theorem completesIn_of_busyRun {k : Nat} {i : Instr} {s t u : State} (h : exec i s = .next t)
    (hr : BusyRun k t u) (hu : u.phase = .idle) : CompletesIn k i s u := ⟨t, h, hr.1, hu, hr.2⟩

/-! ### Clean histories -/

theorem cleanFrom_idealByteTrace (p : Params) (w : Word) (es : List Event) (k : Nat) :
    cleanFrom k (idealByteTrace p w ++ es) = cleanFrom 0 es := by
  have h1 : tfnf 0x2 = true := by decide
  have h2 : abrt 0x0 = false := by decide
  simp only [idealByteTrace, List.cons_append, List.nil_append, cleanFrom, h1, h2, if_true,
    Bool.not_false, Bool.true_and]

/-- One attempt under ENV_IDEAL: five steps and one clean trace, up to its settlement in step S6 (R102). -/
theorem ideal_attempt {s : State} {b : Byte} (hp : s.phase = .wBuild) (hr : s.rst = false)
    (he : s.env = .script [] []) (hb : s.buf[s.idx.toNat]? = some b) :
    ∃ w, BusyRun 5 s (settle false { s with
      word := w, pollCnt := Config.pollInit, phase := .wCheck
      hist := s.hist ++ idealByteTrace s.par w }) := by
  have h1 : tfnf 0x2 = true := by decide
  have h2 : abrt 0x0 = false := by decide
  refine ⟨fifoWord b (s.idx + 1 == s.n), ?_⟩
  refine .step (by simp [hp]) (by rw [step_wBuild hr hp, buildStep_byte hb]) ?_
  refine .step (by simp)
    (by rw [step_wPoll (by exact hr) rfl, pollStep_present (by simp [he])]) ?_
  simp only [envTurn_env, he, Env.turn, Env.readStatus, pollResult, h1, if_true]
  refine .step (by simp)
    (by rw [step_wIssue (by exact hr) rfl, issueStep_present (by simp)]) ?_
  simp only [envTurn_env, Env.turn, Env.offer]
  refine .step (by simp) (by rw [step_wPace (by exact hr) rfl, paceStep_next]) ?_
  simp only [envTurn_env, Env.turn]
  refine .step (by simp)
    (by rw [step_wCheck (by exact hr) rfl, checkStep_present (by simp)]) ?_
  simp only [envTurn_env, Env.turn, Env.readRaw, checkResult, h2, chargeAbort, Bool.false_eq_true,
    if_false]
  have hs : ∀ t u : State, t = u → BusyRun 0 (settle false t) (settle false u) := by
    rintro t _ rfl
    exact .refl _
  refine hs _ _ ?_
  simp [idealByteTrace]

/-- The byte a call stands at. -/
theorem getElem?_of_drop_take {α : Type} {l rest : List α} {b : α} {n k : Nat}
    (h : (l.take n).drop k = b :: rest) : l[k]? = some b := by
  have h' : (l.take n)[k]? = some b := by rw [← List.head?_drop, h]; rfl
  rw [List.getElem?_take] at h'
  split at h'
  · exact h'
  · cases h'

/-- The rest of a write call under ENV_IDEAL is clean (R102). -/
theorem ideal_call (rest : List Byte) : ∀ {s : State} {b : Byte}, s.phase = .wBuild → s.rst = false →
    s.env = .script [] [] → s.retries = 3 → (s.buf.take s.n.toNat).drop s.idx.toNat = b :: rest →
    s.n.toNat ≤ s.buf.length →
    ∃ k t es, BusyRun k s (startCall s.calls t) ∧ t.rst = false ∧ t.env = .script [] [] ∧
      t.hist = s.hist ++ es ∧ ∀ more, cleanFrom 0 (es ++ more) = cleanFrom 0 more := by
  induction rest with
  | nil =>
    intro s b hp hr he hret hd hn
    have hb : s.buf[s.idx.toNat]? = some b := getElem?_of_drop_take hd
    have hlen : s.idx + 1 = s.n := by
      have := congrArg List.length hd
      simp at this
      bv_omega
    obtain ⟨w, hw⟩ := ideal_attempt hp hr he hb
    rw [settle, givesUp] at hw
    simp only [hret, show ((3 : BitVec 2) == 0) = false from rfl, Bool.false_and, Bool.false_eq_true,
      if_false, hlen, if_true, endCall] at hw
    exact ⟨5, _, idealByteTrace s.par w, hw, hr, he, rfl, fun _ => cleanFrom_idealByteTrace _ _ _ _⟩
  | cons b' rest ih =>
    intro s b hp hr he hret hd hn
    have hb : s.buf[s.idx.toNat]? = some b := getElem?_of_drop_take hd
    have hcount := congrArg List.length hd
    simp at hcount
    have hlen : s.idx + 1 ≠ s.n := by bv_omega
    have hidx : (s.idx + 1).toNat = s.idx.toNat + 1 := by bv_omega
    have hd' : (s.buf.take s.n.toNat).drop (s.idx + 1).toNat = b' :: rest := by
      rw [hidx, ← List.drop_drop, hd]
      rfl
    obtain ⟨w, hw⟩ := ideal_attempt hp hr he hb
    rw [settle, givesUp] at hw
    simp only [hret, show ((3 : BitVec 2) == 0) = false from rfl, Bool.false_and, Bool.false_eq_true,
      if_false, hlen] at hw
    obtain ⟨k, t, es, hk, h1, h2, h3, h4⟩ :=
      ih (s := { s with
          idx := s.idx + 1, retries := Config.retryInit, pollCnt := Config.pollInit, word := w
          cause := .none, phase := .wBuild, hist := s.hist ++ idealByteTrace s.par w })
        (b := b') rfl hr he rfl hd' hn
    refine ⟨5 + k, t, idealByteTrace s.par w ++ es, hw.trans hk, h1, h2, ?_, fun more => ?_⟩
    · rw [h3]
      simp
    · rw [List.append_assoc, cleanFrom_idealByteTrace, h4]

/-- A list of write calls under ENV_IDEAL runs to IDLE and is clean (R130). -/
theorem ideal_calls (calls : List (List Byte)) : ∀ {s : State}, s.rst = false → s.env = .script [] [] →
    ∃ k u es, BusyRun k (startCall calls s) u ∧ u.phase = .idle ∧ u.hist = s.hist ++ es ∧
      cleanFrom 0 es = true := by
  induction calls with
  | nil => exact fun _ _ => ⟨0, _, [_], .refl _, rfl, rfl, rfl⟩
  | cons c later ih =>
    intro s hr he
    by_cases hc : countOf c = 0
    · rw [startCall_skip hc]
      exact ih hr he
    · have hle := countOf_le c
      rw [startCall_buffer hc]
      cases hd : c.take (countOf c).toNat with
      | nil =>
        have hlen := congrArg List.length hd
        have hne : (countOf c).toNat ≠ 0 := fun h => hc (BitVec.eq_of_toNat_eq h)
        rw [List.length_take, List.length_nil] at hlen
        omega
      | cons b bs =>
        obtain ⟨k, t, es, hk, h1, h2, h3, h4⟩ :=
          ideal_call bs (s := { s with
            calls := later, buf := c, n := countOf c, idx := 0, retries := Config.retryInit, cause := .none
            phase := .wBuild }) (b := b) rfl hr he rfl (by simpa using hd) hle
        obtain ⟨k', u, es', hk', hu, h3', h4'⟩ := ih h1 h2
        refine ⟨k + k', u, es ++ es', hk.trans hk', hu, ?_, by rw [h4, h4']⟩
        rw [h3', h3]
        simp

/-- Under ENV_IDEAL every command but INIT completes and adds a clean history, from any IDLE state. -/
theorem ideal_command {i : Instr} {s : State} (hi : i ≠ .init) (hp : s.phase = .idle)
    (hr : s.rst = false) (he : s.env = .script [] []) :
    ∃ u es, Completes i s u ∧ u.hist = s.hist ++ es ∧ cleanFrom 0 es = true := by
  obtain ⟨k, u, es, hk, hu, hh, hc⟩ :=
    ideal_calls (callsOf s.par i) (s := acceptHeader i.op i.payload s) (by exact hr) (by exact he)
  exact ⟨u, .acc i.op i.payload.length i.payload :: es,
    ⟨k, completesIn_of_busyRun (exec_calls hp hi) hk hu⟩, by simp [hh], hc⟩

/-- So its own events are clean. -/
theorem ideal_command_is_clean {i : Instr} {s : State} (hi : i ≠ .init) (hp : s.phase = .idle)
    (hr : s.rst = false) (he : s.env = .script [] []) :
    ∃ u, Completes i s u ∧ Clean (newEvents s u) := by
  obtain ⟨u, es, hu, hh, hc⟩ := ideal_command hi hp hr he
  exact ⟨u, hu, by simpa [newEvents, hh] using hc⟩

end Sys2Proof.Machine
end

