-- ==== Sys2Proof/Machine/Text.lean ====
section
/-! DEFINITION. The textual form of a command, for test vectors and tools (R81). Nothing in the machine
reads it. -/

namespace Sys2Proof.Machine

/-- The mnemonics of R72. -/
def mnemonic : Op → String
  | .init         => "INIT"
  | .write        => "WRITE"
  | .sendCommand  => "SEND_COMMAND"
  | .sendData     => "SEND_DATA"
  | .initDisplay  => "INIT_DISPLAY"
  | .clearDisplay => "CLEAR_DISPLAY"
  | .displayText  => "DISPLAY_TEXT"

/-- A byte as two hexadecimal digits, capitals as in the examples of R81. -/
def hexByte (b : Byte) : List Char :=
  let digit (d : Nat) : Char := if d < 10 then Char.ofNat (48 + d) else Char.ofNat (55 + d)
  [digit (b.toNat / 16), digit (b.toNat % 16)]

/-- Payload bytes, each after one space (R81). -/
def hexBytes (bs : List Byte) : List Char := bs.flatMap fun b => Char.ofNat 32 :: hexByte b

/-- Text bytes between double quotes, each the character with that code (R81, log 18). -/
def quotedText (bs : List Byte) : List Char :=
  Char.ofNat 32 :: Char.ofNat 34 :: bs.map (fun b => Char.ofNat b.toNat) ++ [Char.ofNat 34]

/-- One line of text for a command (R81). -/
def instrText (i : Instr) : String :=
  let operands :=
    match i with
    | .displayText t => quotedText t
    | i => hexBytes i.payload
  String.ofList ((mnemonic i.op).toList ++ operands)

end Sys2Proof.Machine
end

