-- ==== Sys2Proof/Tests/Slice0.lean ====
section
/-! SUPPORT. The model's own tests. Expected values come from the tables and worked vectors of
`spec/95_test_vectors.md` (V numbers) or from the rules named. The last part gives, for every statement with
hypotheses, states and operands that meet them. -/

namespace Sys2Proof.Tests

open Sys2Proof Sys2Proof.Machine

/-! ### Small states -/

/-- Parameters with the illustrative values of V33 and V34. -/
def demo : Params where
  baseQuad      := 0x4000000
  funcselI2c    := 0x0000CAFE
  paceN         := 7
  initCmds      := #v[0xE1, 0xE2, 0xE3, 0xE4, 0xE5, 0xE6, 0xE7, 0xE8, 0xE9, 0xEA, 0xEB, 0xEC, 0xED, 0xEE, 0xEF]
  windowFirst   := 0x21
  windowTail    := [0x00, 0x3F, 0x22, 0x00, 0x07]
  textMax       := 4
  fifoDepthPred := 1
  zeroPolicy    := .abort
  ctrlInit      := 0x00000003
  addrByte      := 0x78

/-- ENV_IDEAL (R65). -/
def ideal : Env := .script [] []

/-- The block after reset with the parameters of `demo` in the environment `e`. -/
def idleAt (e : Env) : State := { State.reset with par := demo, env := e }

/-- A write call of the bytes 41 42 at byte `idx`, in phase `p`. -/
def inCall (p : Phase) (idx : BitVec 16) (e : Env) : State :=
  { idleAt e with
    phase := p, buf := [0x41, 0x42], n := 2, idx := idx, retries := 3, pollCnt := 10, op := .write
    word := if idx = 0 then 0x041 else 0x242 }

/-- The storage registers as INIT leaves them, but for ENABLE. -/
def configured (enable : Word) : RegSet :=
  { funcsel := Stored.put 0x0000CAFE, ctrl := Stored.put 0x00000003, tar := Stored.put 0x0000003C
    enable := Stored.put enable }

/-- INIT under way in phase `p`, ENABLE at 0. -/
def inInit (p : Phase) : State := { idleAt ideal with phase := p, regs := configured 0 }

/-- The offers of some commands on the port. -/
def offering (is : List Instr) : State := { idleAt ideal with host := is.map encode }

/-- What a next state holds. -/
def after {α : Type} (o : Host.Outcome State Fault Refusal) (f : State → α) : Option α :=
  match o with
  | .next s => some (f s)
  | _ => none

/-! ### Well-formed commands (R70, R84) -/

theorem payloadFits_replicate (k : Nat) : payloadFits (List.replicate k 0) ↔ k ≤ 65535 := by
  simp [payloadFits, Config.lenMax]

theorem test_write_65535_bytes_well_formed : (Instr.write (List.replicate 65535 0)).WellFormed :=
  (payloadFits_replicate 65535).2 (by decide)

theorem test_write_65536_bytes_refused : ¬ (Instr.write (List.replicate 65536 0)).WellFormed :=
  fun h => absurd ((payloadFits_replicate 65536).1 h) (by decide)

theorem test_sendCommand_65536_bytes_refused :
    ¬ (Instr.sendCommand (List.replicate 65536 0)).WellFormed :=
  fun h => absurd ((payloadFits_replicate 65536).1 h) (by decide)

theorem test_sendData_65536_bytes_refused : ¬ (Instr.sendData (List.replicate 65536 0)).WellFormed :=
  fun h => absurd ((payloadFits_replicate 65536).1 h) (by decide)

theorem test_displayText_65536_bytes_refused :
    ¬ (Instr.displayText (List.replicate 65536 0)).WellFormed :=
  fun h => absurd ((payloadFits_replicate 65536).1 h) (by decide)

/-! ### Decoding, words written out by fields: LEN, RSV, OP (R70, R72, V40) -/

theorem test_decode_init :
    decode { header := 0b0000000000000000_000000000000_0000, payload := [] } = .ok .init := rfl

theorem test_decode_write :
    decode { header := 0b0000000000000010_000000000000_0001, payload := [0x41, 0x42] } =
      .ok (.write [0x41, 0x42]) := rfl

theorem test_decode_sendCommand :
    decode { header := 0b0000000000000001_000000000000_0010, payload := [0xAE] } =
      .ok (.sendCommand [0xAE]) := rfl

theorem test_decode_sendData :
    decode { header := 0b0000000000000010_000000000000_0011, payload := [0xFF, 0xFF] } =
      .ok (.sendData [0xFF, 0xFF]) := rfl

theorem test_decode_initDisplay :
    decode { header := 0b0000000000000000_000000000000_0100, payload := [] } = .ok .initDisplay := rfl

theorem test_decode_clearDisplay :
    decode { header := 0b0000000000000000_000000000000_0101, payload := [] } = .ok .clearDisplay := rfl

theorem test_decode_displayText :
    decode { header := 0b0000000000000010_000000000000_0110, payload := [0x48, 0x69] } =
      .ok (.displayText [0x48, 0x69]) := rfl

theorem test_decode_write_of_65535 : decodeHeader 0xFFFF0001 = .ok (.write, 65535) := rfl

theorem test_illegal_reserved_op :
    decodeHeader 0x00000007 = .error .reservedOp ∧ decodeHeader 0x0000000F = .error .reservedOp := ⟨rfl, rfl⟩

theorem test_illegal_reserved_bits :
    decodeHeader 0x00020011 = .error .reservedBits ∧ decodeHeader 0x00008000 = .error .reservedBits :=
  ⟨rfl, rfl⟩

theorem test_illegal_length :
    decodeHeader 0x00010000 = .error .lengthNotZero ∧ decodeHeader 0x00030004 = .error .lengthNotZero ∧
      decodeHeader 0x00010005 = .error .lengthNotZero := ⟨rfl, rfl, rfl⟩

/-- Payload beats that have not come yet: the block waits (log 8). -/
theorem test_incomplete_payload :
    decode { header := 0x00020001, payload := [0x41] } = .error .incomplete := rfl

theorem test_encode_header :
    (encode (.write [0x41, 0x42])).header = 0x00020001 ∧ (encode .clearDisplay).header = 0x00000005 ∧
      (encode (.displayText [0x48, 0x69])).header = 0x00020006 := ⟨rfl, rfl, rfl⟩

theorem test_table_words :
    decodeTableWord 32 0x00000000 = some .init ∧
      decodeTableWord 32 0x00020001 = some (.write [0x00, 0x00]) ∧
      decodeTableWord 48 0x424100020001 = some (.write [0x41, 0x42]) ∧
      decodeTableWord 32 0x00000007 = none := by decide

theorem test_fetch_word_runs :
    after (step ((idleAt ideal).withFetchWord 32 0x00000004)) State.phase = some .wBuild ∧
      after (step ((inCall .wPoll 0 ideal).withFetchWord 32 0x00000000)) State.phase = some .i1 := by decide

/-! ### Words and bits (V41, V42, V43, V44) -/

theorem test_fifo_words :
    fifoWord 0x41 false = 0x041 ∧ fifoWord 0x42 true = 0x242 ∧ fifoWord 0xFF false = 0x0FF ∧
      fifoWord 0xFF true = 0x2FF ∧ fifoWord 0x00 true = 0x200 := by decide

theorem test_bit_tests :
    tfnf 0xFFFFFFFD = false ∧ tfnf 0x00000002 = true ∧ abrt 0xFFFFFDFF = false ∧ abrt 0x00000200 = true ∧
      abrt 0x00000040 = false := by decide

theorem test_result_words :
    ({ fail := true, cause := .txAborted, call := 5, idx := 100, illegal := false } : Result).word =
      0x00640055 ∧
    ({ fail := true, cause := .fifoTimeout, call := 0, idx := 0, illegal := false } : Result).word =
      0x00000003 ∧
    Result.refusedHeader.word = 0x00000008 := by decide

theorem test_register_addresses :
    Reg.funcsel.address demo = 0x10001000 ∧ Reg.enable.address demo = 0x1000006C ∧
      Reg.status.address demo = 0x10000070 ∧ Reg.dataCmd.address demo = 0x10000010 := by decide

/-! ### Register accesses (R90, R91, R92) -/

/-- The example of R91, read back. -/
theorem test_tar_reads_back :
    (match regWrite .tar 0x0000003C (idleAt ideal) with
      | .ok _ s => (match regRead .tar s with | .ok v u => some (v, u.hist) | .fault _ => none)
      | .fault _ => none) = some (0x0000003C, [.wr .tar 0x0000003C, .rd .tar 0x0000003C]) := by decide

/-- A register nothing has written reads without a fault (R92). -/
theorem test_unwritten_register_reads :
    (match regRead .ctrl (idleAt ideal) with | .ok _ s => some s.phase | .fault _ => none) = some .idle := by
  decide

/-! ### Text (R81) -/

theorem test_text_of_write : instrText (.write [0x41, 0x42]) = "WRITE 41 42" := by decide

theorem test_text_of_displayText : instrText (.displayText [0x48, 0x69]) = "DISPLAY_TEXT \"Hi\"" := by decide

/-! ### The commands, one step each (R111) -/

theorem test_init_accepted :
    after (exec .init (idleAt ideal)) (fun s => (s.phase, s.hist)) = some (.i1, [.acc .init 0 []]) := by decide

/-- The last of the five writes, V1. -/
theorem test_init_last_step :
    after (step (inInit .i5)) (fun s => (s.phase, s.regs, s.hist)) =
      some (.idle, configured 1, [.wr .enable 0x00000001, .done 0x00000000]) := by decide

theorem test_write_accepted :
    after (exec (.write [0x41, 0x42]) (idleAt ideal)) (fun s => (s.phase, s.buf, s.n, s.retries)) =
      some (.wBuild, [0x41, 0x42], 2, 3) := by decide

/-- V4. -/
theorem test_write_of_nothing :
    after (exec (.write []) (idleAt ideal)) (fun s => (s.phase, s.hist)) =
      some (.idle, [.acc .write 0 [], .done 0x00000000]) := by decide

theorem test_sendCommand_accepted :
    after (exec (.sendCommand [0xAE]) (idleAt ideal)) (fun s => (s.buf, s.calls)) =
      some ([0x78], [[0x00], [0xAE]]) := by decide

theorem test_sendData_accepted :
    after (exec (.sendData [0xFF, 0xFF]) (idleAt ideal)) (fun s => (s.buf, s.calls)) =
      some ([0x78], [[0x40], [0xFF, 0xFF]]) := by decide

theorem test_initDisplay_accepted :
    after (exec .initDisplay (idleAt ideal)) (fun s => (s.buf.take 3, s.n, s.calls)) =
      some ([0x00, 0xE1, 0xE2], 16, []) := by decide

theorem test_clearDisplay_accepted :
    after (exec .clearDisplay (idleAt ideal)) (fun s => (s.buf, s.calls.take 4, s.calls.length)) =
      some ([0x78], [[0x00], [0x21, 0x00, 0x3F, 0x22, 0x00, 0x07], [0x78], [0x40]], 5) := by decide

/-- S2, V35. -/
theorem test_displayText_accepted :
    after (exec (.displayText [0x48, 0x69]) (idleAt ideal)) (fun s => (s.buf, s.n)) =
      some ([0x40, 0x48, 0x69], 3) := by decide

/-- A text of TEXT_MAX + 1 bytes loses its last byte (R135). -/
theorem test_displayText_bounded :
    after (exec (.displayText [0x61, 0x62, 0x63, 0x64, 0x65]) (idleAt ideal)) (fun s => s.buf) =
      some [0x40, 0x61, 0x62, 0x63, 0x64] := by decide

/-! ### The phases of WRITE -/

/-- S1: the second word of 41 42 carries the stop flag. -/
theorem test_build_last_word :
    after (step (inCall .wBuild 1 ideal)) (fun s => (s.phase, s.word, s.pollCnt)) =
      some (.wPoll, 0x00000242, 10) := by decide

/-- V7: the ninth full read is free. -/
theorem test_poll_full :
    after (step { inCall .wPoll 0 (.script [0x0] []) with pollCnt := 2 })
      (fun s => (s.phase, s.pollCnt, s.retries)) = some (.wPoll, 1, 3) := by decide

/-- V8: the tenth costs one retry and the word is written all the same. -/
theorem test_poll_timeout :
    after (step { inCall .wPoll 0 (.script [0x0] []) with pollCnt := 1 })
      (fun s => (s.phase, s.pollCnt, s.retries, s.cause)) = some (.wIssue, 0, 2, .fifoTimeout) := by decide

theorem test_issue :
    after (step (inCall .wIssue 0 ideal)) (fun s => (s.phase, s.hist)) =
      some (.wPace, [.wr .dataCmd 0x00000041]) := by decide

theorem test_pace :
    after (step (inCall .wPace 0 ideal)) (fun s => (s.phase, s.hist)) = some (.wCheck, [.delay 7]) := by decide

/-- V9: an abort repeats the same byte. -/
theorem test_check_repeats :
    after (step (inCall .wCheck 0 (.script [] [0x200]))) (fun s => (s.phase, s.idx, s.retries, s.cause)) =
      some (.wBuild, 0, 2, .txAborted) := by decide

/-- V10: the third abort gives the call up. -/
theorem test_check_gives_up :
    after (step { inCall .wCheck 0 (.script [] [0x200]) with retries := 1 }) (fun s => (s.phase, s.hist)) =
      some (.idle, [.rd .rawIntrStat 0x200, .diag 0 0 .txAborted, .done 0x00000005]) := by decide

/-- C2, D14: no retry left and the abort bit clear, under either ZERO_POLICY. -/
theorem test_check_zero_policy :
    after (step { inCall .wCheck 0 ideal with retries := 0, cause := .fifoTimeout })
      (fun s => (s.phase, s.res.fail)) = some (.idle, true) ∧
    after (step { inCall .wCheck 0 ideal with
        retries := 0, cause := .fifoTimeout, par := { demo with zeroPolicy := .proceed } })
      (fun s => (s.phase, s.idx, s.retries)) = some (.wBuild, 1, 3) := by decide

/-- V50: a reserved operation code. -/
theorem test_reject :
    after (step { idleAt ideal with host := [{ header := 0x00000007, payload := [] }] })
      (fun s => (s.phase, s.hist, s.res.illegal)) =
      some (.idle, [.rej 0x00000007, .done 0x00000008], true) := by decide

/-- V53: the controller is absent. -/
theorem test_absent_controller_faults :
    after (step (inCall .wPoll 0 .absent)) (fun s => (s.phase, s.hist)) = some (.fault, []) := by decide

/-- R170: a reset in the middle of a command loses it. -/
theorem test_reset_in_a_command :
    after (step { inCall .wIssue 1 ideal with rst := true }) (fun s => (s.phase, s.buf, s.hist, s.rst)) =
      some (.idle, [], [], false) := by decide

/-- P4 (b): a full FIFO that never drains answers "full" (FIFO_DEPTH 2). -/
theorem test_reference_full :
    after (step (inCall .wPoll 0 (.reference
      { fifo := [0x041, 0x042], bus := [], abrt := false, moves := [], fates := [], draws := 0 })))
      (fun s => s.hist) = some [.rd .status 0x0] := by decide

/-- P4 (a): the head of the FIFO goes to the bus during a delay, ENABLE being 1. -/
theorem test_reference_drains :
    after (step { inCall .wPace 0 (.reference
        { fifo := [0x041], bus := [], abrt := false, moves := [[.drain]], fates := [], draws := 0 }) with
        regs := configured 1 })
      (fun s => s.env) = some (.reference
        { fifo := [], bus := [0x041], abrt := false, moves := [], fates := [], draws := 0 }) := by decide

/-- V48, steps 2 and 7. -/
theorem test_display_state :
    Disp.after .clearDisplay false .uninitialized = .uninitialized ∧
      Disp.after .displayText true .cleared = .unknown ∧
      Disp.after .displayText false .cleared = .displayingText := by decide

/-! ### Witnesses: states and operands that meet the hypotheses of each statement

`witness_<Statement>_<clause>`; a statement without hypotheses has none. -/

/-- The state after `k` busy steps, if the block is then IDLE for the first time. -/
def runBusy : Nat → State → Option State
  | 0, s => if s.phase = .idle then some s else none
  | k + 1, s =>
    if s.phase = .idle then none
    else
      match step s with
      | .next t => runBusy k t
      | _ => none

theorem busyRun_of_runBusy {k : Nat} {s u : State} (h : runBusy k s = some u) :
    BusyRun k s u ∧ u.phase = .idle := by
  induction k generalizing s with
  | zero =>
    simp only [runBusy] at h
    split at h
    · cases h
      exact ⟨.refl _, ‹_›⟩
    · cases h
  | succ k ih =>
    simp only [runBusy] at h
    split at h
    · cases h
    · split at h
      · exact ⟨.step ‹_› ‹_› (ih h).1, (ih h).2⟩
      · cases h

/-- The state in which the command ends, if it does so after exactly `k` steps. -/
def endState (k : Nat) (i : Instr) (s : State) : Option State :=
  match exec i s with
  | .next t => runBusy k t
  | _ => none

theorem completes_of_endState {k : Nat} {i : Instr} {s u : State} (h : endState k i s = some u) :
    Completes i s u := by
  unfold endState at h
  split at h
  · exact ⟨k, completesIn_of_busyRun ‹_› (busyRun_of_runBusy h).1 (busyRun_of_runBusy h).2⟩
  · cases h

/-- A command that completes in a state with the property `f`. -/
theorem completes_with {k : Nat} {i : Instr} {s : State} (f : State → Bool)
    (h : (endState k i s).any f = true) : ∃ u, Completes i s u ∧ f u = true := by
  cases he : endState k i s with
  | none => simp [he] at h
  | some u => exact ⟨u, completes_of_endState he, by simpa [he] using h⟩

/-- A next state with the property `f`. -/
theorem next_with {o : Host.Outcome State Fault Refusal} (f : State → Bool)
    (h : (after o f).getD false = true) : ∃ t, o = .next t ∧ f t = true := by
  cases o with
  | next t => exact ⟨t, rfl, h⟩
  | fault r => cases h
  | refused r => cases h

theorem idleAt_ready : (idleAt ideal).Ready := ⟨rfl, rfl, by decide⟩

/-- A state with the reference environment, its FIFO one word short of full. -/
def withFifo (p : Phase) (enable : Word) : State :=
  { inCall p 0 (.reference
      { fifo := [0x041], bus := [], abrt := true, moves := [[.setAbrt], [.drain]], fates := [.lost], draws := 0 })
    with regs := configured enable }

/-- The invariant in every phase of a call, at the first byte and at the last. -/
theorem inCall_inv (p : Phase) (hp : p = .wBuild ∨ p = .wPoll ∨ p = .wIssue ∨ p = .wPace ∨ p = .wCheck) :
    (inCall p 0 ideal).Inv ∧ (inCall p 1 ideal).Inv := by
  have hregs : ∀ idx, (inCall p idx ideal).RegsInv := fun _ => ⟨nofun, nofun, nofun, nofun⟩
  have hres : ∀ idx, (inCall p idx ideal).ResultInv := fun idx =>
    ⟨nofun, fun _ => ⟨rfl, rfl, rfl⟩⟩
  have h0 : (inCall p 0 ideal).InCall :=
    ⟨rfl, (by decide : 0 < 2), (by decide : 0 ≤ 5), fun h => absurd rfl h, rfl⟩
  have h1 : (inCall p 1 ideal).InCall :=
    ⟨rfl, (by decide : 1 < 2), (by decide : 0 ≤ 5), fun h => absurd rfl h, rfl⟩
  have w0 : (inCall p 0 ideal).WordIsCurrent := ⟨0x41, rfl, (by decide : (0x041 : Word) = fifoWord 0x41 false)⟩
  have w1 : (inCall p 1 ideal).WordIsCurrent := ⟨0x42, rfl, (by decide : (0x242 : Word) = fifoWord 0x42 true)⟩
  refine ⟨⟨?_, hregs 0, hres 0, trivial⟩, ⟨?_, hregs 1, hres 1, trivial⟩⟩
  · obtain rfl | rfl | rfl | rfl | rfl := hp
    · exact ⟨h0, by decide⟩
    · exact ⟨h0, by decide, w0, by decide, by decide⟩
    · exact ⟨h0, w0⟩
    · exact ⟨h0, w0⟩
    · exact ⟨h0, w0⟩
  · obtain rfl | rfl | rfl | rfl | rfl := hp
    · exact ⟨h1, by decide⟩
    · exact ⟨h1, by decide, w1, by decide, by decide⟩
    · exact ⟨h1, w1⟩
    · exact ⟨h1, w1⟩
    · exact ⟨h1, w1⟩

/-- The invariant in the last three phases of INIT. -/
theorem inInit_inv (p : Phase) (hp : p = .i3 ∨ p = .i4 ∨ p = .i5) : (inInit p).Inv := by
  refine ⟨?_, ⟨?_, ?_, ?_, ?_⟩, ⟨nofun, fun _ => ⟨rfl, rfl, rfl⟩⟩, trivial⟩
  · obtain rfl | rfl | rfl := hp
    · exact ⟨⟨rfl, rfl⟩, rfl, rfl⟩
    · exact ⟨⟨rfl, rfl⟩, rfl, rfl, rfl⟩
    · exact ⟨⟨rfl, rfl⟩, rfl, rfl, rfl, rfl⟩
  · exact fun v h => by cases h; rfl
  · exact fun v h => by cases h; rfl
  · exact fun v h => by cases h; rfl
  · exact fun v h => by cases h; exact .inl rfl

/-! #### Encoding -/

theorem witness_DecodeOfEncodeIsTheCommand :
    (Instr.displayText (List.replicate 65535 0)).WellFormed ∧ (Instr.sendData []).WellFormed ∧
      Instr.clearDisplay.WellFormed :=
  ⟨(payloadFits_replicate 65535).2 (by decide), (payloadFits_replicate 0).2 (by decide), trivial⟩

/-- A beat beyond LEN stands on the port. -/
theorem witness_EncodeOfDecodeIsTheOffer :
    decode { header := 0x00020001, payload := [0x41, 0x42, 0x43] } = .ok (.write [0x41, 0x42]) := rfl

theorem witness_LegalHeadersAreTheSevenPatterns :
    decodeHeader 0x00020001 = .ok (.write, 2) ∧ 2 ≤ ([0x41, 0x42] : List Byte).length ∧
      decodeHeader 0x00000006 = .ok (.displayText, 0) ∧ 0 ≤ ([] : List Byte).length :=
  ⟨rfl, by decide, rfl, by decide⟩

theorem witness_EncodedHeaderIsLengthAndCode :
    (Instr.write (List.replicate 65535 0)).WellFormed ∧ Instr.init.WellFormed :=
  ⟨(payloadFits_replicate 65535).2 (by decide), trivial⟩

theorem witness_RegisterAddressesAreAligned : Reg.status.address demo = Reg.status.address demo := rfl

/-! #### Reset, waiting, illegal headers, faults -/

theorem witness_ResetFromAnyState :
    { inCall .wPoll 1 ideal with rst := true }.rst = true ∧
      { inCall .fault 0 .absent with rst := true }.rst = true := ⟨rfl, rfl⟩

theorem witness_IdleBlockWaitsForAHeader :
    (idleAt ideal).phase = .idle ∧ (idleAt ideal).host = [] ∧ (idleAt ideal).rst = false := by decide

theorem witness_OffersWaitWhileBusy :
    { inCall .wPoll 0 ideal with host := [encode .init] }.busy = true ∧
      ∃ t, step { inCall .wPoll 0 ideal with host := [encode .init] } = .next t ∧
        decide (t.phase = .wIssue) = true :=
  ⟨by decide, next_with _ (by decide)⟩

theorem witness_StepRunsTheDecodedCommand :
    (offering [.init]).phase = .idle ∧ (offering [.init]).rst = false ∧
      (offering [.init]).host = encode .init :: [] ∧ decode (encode .init) = .ok .init ∧
      decodeTableWord 40 0x4100010001 = some (.write [0x41]) := ⟨rfl, rfl, rfl, rfl, by decide⟩

theorem witness_IllegalHeaderIsRefused :
    (idleAt ideal).phase = .idle ∧ (idleAt ideal).rst = false ∧
      decodeHeader 0x00000007 = .error .reservedOp ∧ decodeHeader 0x00020011 = .error .reservedBits ∧
      decodeHeader 0x00010000 = .error .lengthNotZero ∧
      { idleAt ideal with host := [{ header := 0x00010000, payload := [0x05] }] }.host =
        { header := 0x00010000, payload := [0x05] } :: [] := ⟨rfl, rfl, rfl, rfl, rfl, rfl⟩

theorem witness_AbsentControllerFaultsForGood :
    ∀ p : Phase, (inCall p 0 .absent).env = .absent ∧ (inCall p 0 .absent).rst = false ∧
      (inCall p 0 .absent).phase = p := fun _ => ⟨rfl, rfl, rfl⟩

theorem witness_CommandOnAbsentControllerEndsInFault :
    (idleAt .absent).phase = .idle ∧ (idleAt .absent).rst = false ∧ (idleAt .absent).env = .absent ∧
      (∃ c ∈ callsOf (idleAt .absent).par (.write [0x41]), countOf c ≠ 0) ∧
      ∃ c ∈ callsOf (idleAt .absent).par (.sendData []), countOf c ≠ 0 := by decide

/-! #### INIT and the storage registers -/

theorem witness_InitMakesItsFiveWrites : (idleAt ideal).Ready := idleAt_ready

theorem witness_InitIsIdempotentOnRegisters :
    ∃ u v, (idleAt ideal).Ready ∧ Completes .init (idleAt ideal) u ∧ Completes .init u v := by
  cases h : endState 5 .init (idleAt ideal) with
  | none => exact absurd h (by decide)
  | some u =>
    cases h' : endState 5 .init u with
    | none =>
      have : ((endState 5 .init (idleAt ideal)).bind (endState 5 .init)).isSome = true := by decide
      simp [h, h'] at this
    | some v => exact ⟨u, v, idleAt_ready, completes_of_endState h, completes_of_endState h'⟩

theorem witness_EnableIsLowWhileConfiguring_ctrl :
    (inInit .i3).Inv ∧ (inInit .i3).rst = false ∧ ∃ t, step (inInit .i3) = .next t ∧
      decide (t.hist = (inInit .i3).hist ++ [.wr .ctrl 0x00000003]) = true :=
  ⟨inInit_inv _ (by simp), rfl, next_with _ (by decide)⟩

theorem witness_EnableIsLowWhileConfiguring_tar :
    (inInit .i4).Inv ∧ (inInit .i4).rst = false ∧ ∃ t, step (inInit .i4) = .next t ∧
      decide (t.hist = (inInit .i4).hist ++ [.wr .tar 0x0000003C]) = true :=
  ⟨inInit_inv _ (by simp), rfl, next_with _ (by decide)⟩

theorem witness_EnableIsLowWhileConfiguring_enable :
    (inInit .i5).Inv ∧ (inInit .i5).rst = false ∧ (inInit .i5).regs.enable.get ≠ some 0x00000001 ∧
      ∃ t, step (inInit .i5) = .next t ∧ decide (t.regs.enable.get = some 0x00000001) = true :=
  ⟨inInit_inv _ (by simp), rfl, by decide, next_with _ (by decide)⟩

theorem witness_OnlyInitChangesStorageRegisters :
    (inCall .wCheck 1 ideal).rst = false ∧
      (inCall .wCheck 1 ideal).phase ≠ .i1 ∧ (inCall .wCheck 1 ideal).phase ≠ .i2 ∧
      (inCall .wCheck 1 ideal).phase ≠ .i3 ∧ (inCall .wCheck 1 ideal).phase ≠ .i4 ∧
      (inCall .wCheck 1 ideal).phase ≠ .i5 ∧
      ∃ t, step (inCall .wCheck 1 ideal) = .next t ∧ decide (t.phase = .idle) = true :=
  ⟨by decide, by decide, by decide, by decide, by decide, by decide, next_with _ (by decide)⟩

theorem witness_StorageReadsBackTheLastWrite : (idleAt ideal).env ≠ .absent ∧ Reg.tar ≠ Reg.ctrl := by decide

theorem witness_EveryAccessCompletes : (idleAt ideal).env ≠ .absent ∧ Reg.tar ≠ Reg.dataCmd := by decide

/-! #### Acceptance and the steps of an attempt -/

theorem witness_WriteIsAccepted :
    (idleAt ideal).phase = .idle ∧ payloadFits (0 :: List.replicate 65534 0) :=
  ⟨rfl, by simp [payloadFits, Config.lenMax, -List.reduceReplicate]⟩

theorem witness_FramesAreAcceptedAsThreeCalls : (idleAt ideal).phase = .idle := rfl

/-- The longest text whose buffer `n` can count, with TEXT_MAX beyond it. -/
theorem witness_DisplayCommandsAreAccepted :
    (idleAt ideal).phase = .idle ∧ 1 + min 65534 { demo with textMax := 100000 }.textMax ≤ 65535 := by decide

/-- No byte, one byte, 65535 bytes. -/
theorem witness_CallsRunInOrderToTheEnd :
    (∀ c ∈ ([[], []] : List (List Byte)), countOf c = 0) ∧ countOf [0x41] ≠ 0 ∧
      payloadFits (List.replicate 65535 0) :=
  ⟨by decide, by decide, (payloadFits_replicate 65535).2 (by decide)⟩

/-- TEXT_MAX at its largest, with the longest text. -/
theorem witness_CallsGoThroughTheirWholeBuffers :
    { demo with textMax := 65534 }.windowCmds.length ≤ 65535 ∧
      { demo with textMax := 65534 }.textMax ≤ 65534 ∧
      (Instr.displayText (List.replicate 65535 0)).WellFormed :=
  ⟨by decide, by decide, (payloadFits_replicate 65535).2 (by decide)⟩

/-- The first byte of the buffer, and the last. -/
theorem witness_BuildStepMakesTheWord :
    (inCall .wBuild 0 ideal).phase = .wBuild ∧ (inCall .wBuild 0 ideal).rst = false ∧
      (inCall .wBuild 0 ideal).buf[(inCall .wBuild 0 ideal).idx.toNat]? = some 0x41 ∧
      (inCall .wBuild 1 ideal).buf[(inCall .wBuild 1 ideal).idx.toNat]? = some 0x42 := by decide

/-- Not full; full with counts left; full at the last count. -/
theorem witness_PollStepCountsFullReads :
    (inCall .wPoll 0 (.script [0x2] [])).env ≠ .absent ∧ (0x2 : Word).getLsbD 1 = true ∧
      (inCall .wPoll 0 (.script [0x0] [])).pollCnt ≠ 1 ∧ (0x0 : Word).getLsbD 1 = false ∧
      { inCall .wPoll 0 (.script [0x0] []) with pollCnt := 1 }.pollCnt = 1 ∧
      (inCall .wPoll 0 (.script [0x0] [])).phase = .wPoll ∧
      (inCall .wPoll 0 (.script [0x0] [])).rst = false := by decide

theorem witness_IssueAndPaceSteps :
    (inCall .wIssue 0 ideal).phase = .wIssue ∧ (inCall .wIssue 0 ideal).rst = false ∧
      (inCall .wIssue 0 ideal).env ≠ .absent ∧ (inCall .wPace 0 .absent).phase = .wPace ∧
      (inCall .wPace 0 .absent).rst = false := by decide

/-- Given up on a set bit with one try left; given up on a clear bit with none left under ABORT; repeated;
the next byte, with tries left and under PROCEED without; the end of the call. -/
theorem witness_CheckStepSettlesTheAttempt :
    (inCall .wCheck 0 ideal).phase = .wCheck ∧ (inCall .wCheck 0 ideal).rst = false ∧
      (inCall .wCheck 0 ideal).env ≠ .absent ∧
      after (step { inCall .wCheck 0 (.script [] [0x200]) with retries := 1 }) State.phase = some .idle ∧
      after (step { inCall .wCheck 0 (.script [] [0x0]) with retries := 0 }) State.phase = some .idle ∧
      after (step (inCall .wCheck 0 (.script [] [0x200]))) State.idx = some 0 ∧
      after (step (inCall .wCheck 0 (.script [] [0x0]))) State.idx = some 1 ∧
      after (step { inCall .wCheck 0 (.script [] [0x0]) with
        retries := 0, par := { demo with zeroPolicy := .proceed } }) State.idx = some 1 ∧
      after (step (inCall .wCheck 1 (.script [] [0x0]))) State.phase = some .idle := by decide

/-- No full read, nine, and ten. -/
theorem witness_NineFullPollsAreFreeTenCostOneRetry :
    (inCall .wPoll 0 ideal).phase = .wPoll ∧ (inCall .wPoll 0 ideal).rst = false ∧
      (inCall .wPoll 0 ideal).pollCnt = 10 ∧
      (∀ w ∈ List.replicate 10 (0x0 : Word), w.getLsbD 1 = false) ∧ (0x2 : Word).getLsbD 1 = true ∧
      ([] : List Word).length ≤ 9 ∧ (List.replicate 9 (0x0 : Word)).length ≤ 9 ∧
      (List.replicate 10 (0x0 : Word)).length = 10 ∧
      (inCall .wPoll 0 (.script (List.replicate 9 0x0 ++ 0x2 :: []) [])).env =
        .script (List.replicate 9 0x0 ++ 0x2 :: []) [] :=
  ⟨rfl, rfl, rfl, fun w h => by rw [List.eq_of_mem_replicate h]; rfl, rfl, by decide, by decide, rfl, rfl⟩

theorem witness_AttemptHasOneWordOneDelayOneCheck :
    (inCall .wBuild 0 ideal).Inv ∧ (inCall .wBuild 0 ideal).phase = .wBuild ∧
      (inCall .wBuild 0 ideal).rst = false ∧ (inCall .wBuild 0 ideal).env ≠ .absent :=
  ⟨(inCall_inv _ (by simp)).1, by decide, by decide, by decide⟩

theorem witness_ThreeAbortsGiveTheCallUp :
    (inCall .wBuild 0 (.script [] [0x200, 0x200, 0x200])).phase = .wBuild ∧
      (inCall .wBuild 0 (.script [] [0x200, 0x200, 0x200])).rst = false ∧
      (inCall .wBuild 0 (.script [] [0x200, 0x200, 0x200])).retries = 3 ∧
      (inCall .wBuild 0 (.script [] [0x200, 0x200, 0x200])).res.fail = false ∧
      (inCall .wBuild 0 (.script [] [0x200, 0x200, 0x200])).buf[0]? = some 0x41 ∧
      (inCall .wBuild 0 (.script [] [0x200, 0x200, 0x200])).calls = [] ∧
      (0x200 : Word).getLsbD 9 = true := by decide

/-! #### Whole commands -/

/-- The controller present and absent. -/
theorem witness_StepsRefineThePseudocode :
    (idleAt ideal).phase = .idle ∧ (idleAt ideal).rst = false ∧ (idleAt .absent).phase = .idle ∧
      (idleAt .absent).rst = false := ⟨rfl, rfl, rfl, rfl⟩

theorem witness_EveryCommandCompletes : (idleAt ideal).Ready ∧ (idleAt (.oracle 0)).Ready :=
  ⟨idleAt_ready, rfl, rfl, by decide⟩

theorem witness_CleanCommandOffersExactlyItsWords :
    ∀ i : Instr, i ≠ .init → (idleAt ideal).Ready ∧
      ∃ u, Completes i (idleAt ideal) u ∧ Clean (newEvents (idleAt ideal) u) :=
  fun _ hi => ⟨idleAt_ready, ideal_command_is_clean hi rfl rfl rfl⟩

theorem witness_CleanCommandOffersExactlyItsWords_init :
    ∃ u, Completes .init (idleAt ideal) u ∧ cleanFrom 0 (newEvents (idleAt ideal) u) = true :=
  completes_with (k := 5) _ (by decide)

theorem witness_IdealRunsHaveTheWrittenHistory :
    (idleAt ideal).phase = .idle ∧ (idleAt ideal).rst = false ∧
      (idleAt ideal).env = .script [] [] ∧ Instr.displayText [] ≠ .init := by decide

theorem witness_FrameWordsOfSendCommandAndSendData :
    ∀ i : Instr, i = .sendCommand ([] ++ [0xAE]) ∨ i = .sendData ([0xFF] ++ [0xFF]) ∨ i = .sendCommand [] ∨
        i = .sendData [] →
      payloadFits ([] ++ [0xAE]) ∧ payloadFits ([0xFF] ++ [0xFF]) ∧ (idleAt ideal).Ready ∧
        ∃ u, Completes i (idleAt ideal) u ∧ Clean (newEvents (idleAt ideal) u) := by
  rintro i (rfl | rfl | rfl | rfl) <;>
    exact ⟨by decide, by decide, idleAt_ready, ideal_command_is_clean (by simp) rfl rfl rfl⟩

/-- With a text of TEXT_MAX bytes and one more. -/
theorem witness_WordsOfTheDisplayCommands :
    ∀ i : Instr, i = .initDisplay ∨ i = .clearDisplay ∨ i = .displayText [0x48, 0x69, 0x48, 0x69, 0x48] →
      1 + min 5 (idleAt ideal).par.textMax ≤ 65535 ∧
        (idleAt ideal).par.windowCmds.length ≤ 65535 ∧ (idleAt ideal).Ready ∧
        ∃ u, Completes i (idleAt ideal) u ∧ Clean (newEvents (idleAt ideal) u) := by
  rintro i (rfl | rfl | rfl) <;>
    exact ⟨by decide, by decide, idleAt_ready, ideal_command_is_clean (by simp) rfl rfl rfl⟩

theorem witness_WriteOffersAPrefixEachWordOneToThreeTimes_sent :
    ∃ u, Completes (.write [0x41, 0x42]) (idleAt ideal) u ∧ decide (u.res.fail = false) = true :=
  completes_with (k := 10) _ (by decide)

theorem witness_WriteOffersAPrefixEachWordOneToThreeTimes_givenUp :
    ∃ u, Completes (.write [0x41, 0x42]) (idleAt (.script [] [0x200, 0x200, 0x200])) u ∧
      decide (u.res.fail = true) = true :=
  completes_with (k := 15) _ (by decide)

theorem witness_AccessesPerByteAreBounded :
    (idleAt ideal).Ready ∧ ∃ u, Completes (.write [0x41]) (idleAt ideal) u ∧
      decide (u.phase = .idle) = true :=
  ⟨idleAt_ready, completes_with (k := 5) _ (by decide)⟩

/-- Every command of R136 with FAIL = 0, from a display state its arrow starts at. -/
theorem witness_DisplayStateAfterACommand_notFailed :
    (idleAt ideal).Ready ∧
      (∃ u, Completes .init (idleAt ideal) u ∧ decide (u.res.fail = false) = true) ∧
      (∃ u, Completes (.write [0x41]) (idleAt ideal) u ∧ decide (u.res.fail = false) = true) ∧
      (∃ u, Completes (.sendCommand []) (idleAt ideal) u ∧ decide (u.res.fail = false) = true) ∧
      (∃ u, Completes (.sendData []) (idleAt ideal) u ∧ decide (u.res.fail = false) = true) ∧
      (∃ u, Completes (.displayText [0x48]) { idleAt ideal with disp := .cleared } u ∧
        decide (u.res.fail = false) = true) :=
  ⟨idleAt_ready, completes_with (k := 5) _ (by decide), completes_with (k := 5) _ (by decide),
    completes_with (k := 10) _ (by decide), completes_with (k := 10) _ (by decide),
    completes_with (k := 10) _ (by decide)⟩

/-- The two longer commands, whose runs under ENV_IDEAL are clean. -/
theorem witness_DisplayStateAfterACommand_long :
    (∃ u, Completes .initDisplay (idleAt ideal) u ∧ Clean (newEvents (idleAt ideal) u)) ∧
      ∃ u, Completes .clearDisplay (idleAt ideal) u ∧ Clean (newEvents (idleAt ideal) u) :=
  ⟨ideal_command_is_clean (by simp) rfl rfl rfl, ideal_command_is_clean (by simp) rfl rfl rfl⟩

theorem witness_DisplayStateAfterACommand_failed :
    (∃ u, Completes (.displayText []) (idleAt (.script [] [0x200, 0x200, 0x200])) u ∧
        decide (u.res.fail = true) = true) ∧
      ∃ u, Completes (.write [0x41]) (idleAt (.script [] [0x200, 0x200, 0x200])) u ∧
        decide (u.res.fail = true) = true :=
  ⟨completes_with (k := 15) _ (by decide), completes_with (k := 15) _ (by decide)⟩

/-- A FAIL of 0 after a retry consumed (V9): R136 by the result alone. -/
theorem witness_DisplayStateAfterACommand_retried :
    ∃ u, Completes (.write [0x41]) (idleAt (.script [] [0x200])) u ∧ decide (u.res.fail = false) = true :=
  completes_with (k := 10) _ (by decide)

/-! #### The bus -/

/-- The state INIT leaves (V1). -/
def initialised : State :=
  { idleAt ideal with
    regs := configured 1
    hist := [.acc .init 0 [], .wr .funcsel 0x0000CAFE, .wr .enable 0, .wr .ctrl 3, .wr .tar 0x3C, .wr .enable 1,
      .done 0] }

theorem init_completes : Completes .init (idleAt ideal) initialised :=
  completes_of_endState (k := 5) (by decide)

/-- That state with more events after it. -/
def initialisedAnd (es : List Event) : State := { initialised with hist := initialised.hist ++ es }

theorem cleanFrom_initialisedAnd (es : List Event) (he : cleanFrom 0 es = true) :
    Clean (initialisedAnd es).hist := by
  simpa [Clean, initialisedAnd, initialised, cleanFrom] using he

/-- The events of a clean write of 0x41. -/
def cleanWrite : List Event := [.rd .status 0x2, .wr .dataCmd 0x241, .delay 7, .rd .rawIntrStat 0x0, .done 0]

/-- A run with the sending written in: each word is sent as soon as it is offered. -/
def sendingAtOnce (run : List RunEvent) : List RunEvent :=
  run.flatMap fun e => e :: (e.offered.map RunEvent.sent).toList

/-- P2, R177: after an abort no claim is made; in a clean run of one byte the bus carried one transaction; and
before INIT no claim is made. -/
theorem test_carried :
    (initialisedAnd [.rd .rawIntrStat 0x200]).carried (initialisedAnd [.rd .rawIntrStat 0x200]).run = none ∧
      (initialisedAnd cleanWrite).carried (sendingAtOnce (initialisedAnd cleanWrite).run) =
        some [writeTransaction 0x3C [0x41]] ∧
      (idleAt ideal).carried [] = none := by decide

/-- U5: after a second INIT the claim stands when the word before it was sent by then, and is refused when it
was sent only afterwards. -/
theorem test_carried_over_a_second_init :
    let s := initialisedAnd (cleanWrite ++ initialised.hist)
    s.carried (sendingAtOnce s.run) = some [writeTransaction 0x3C [0x41]] ∧
      s.carried (s.run ++ [.sent 0x241]) = none := by decide

/-- No claim while a write call is under way, its word sent and its abort bit not yet read (log 20). -/
theorem test_no_claim_before_the_abort_check :
    let s := { initialisedAnd [.rd .status 0x2, .wr .dataCmd 0x241] with phase := .wPace }
    s.carried (sendingAtOnce s.run) = none ∧
      { s with phase := .idle }.carried (sendingAtOnce s.run) = some [writeTransaction 0x3C [0x41]] := by decide

/-- The block IDLE and configured after the history `es`, which a reset ended, `cut` in mid-command. -/
def afterReset (es : List Event) (cut : Bool) : State :=
  { initialised with past := [{ events := es, cut := cut }] }

/-- R170: a reset in mid-command refuses every later claim, one in IDLE does not. -/
theorem test_carried_after_a_reset :
    (afterReset initialised.hist true).carried (afterReset initialised.hist true).run = none ∧
      (afterReset initialised.hist false).carried (afterReset initialised.hist false).run = some [] := by decide

/-- With no word before, and with one, which carries the stop flag. -/
theorem witness_CleanCommandIsOneTransactionPerCall :
    ∀ es : List Event, es = [] ∨ es = cleanWrite →
      (initialisedAnd es).Ready ∧ (initialisedAnd es).BusClaims ∧ (initialisedAnd es).RegsRecorded ∧
      (∀ w ∈ (offeredWords (initialisedAnd es).run).getLast?, wordStop w = true) ∧
      ∃ u, Completes (.write [0x42]) (initialisedAnd es) u ∧
        decide (Clean u.hist ∧ (sendingAtOnce u.run).filter RunEvent.isOfBlock = u.run ∧
          sendsInOrder [] (sendingAtOnce u.run) = true) = true := by
  rintro es (rfl | rfl) <;>
    exact ⟨⟨rfl, rfl, by decide⟩, by decide, (by decide : configured 1 = regsAfter _),
      fun w hw => by cases hw <;> decide, completes_with (k := 5) _ (by decide)⟩

/-- With a second INIT between two commands. -/
theorem witness_CleanRunIsOneTransactionPerCall :
    (idleAt ideal).Ready ∧ (idleAt ideal).hist = [] ∧ (idleAt ideal).past = [] ∧
      Completes .init (idleAt ideal) initialised ∧
      ∃ u, CompletesAll [.write [0x41], .init, .write [0x42]] initialised u ∧
        decide (Clean u.hist ∧ (sendingAtOnce u.run).filter RunEvent.isOfBlock = u.run ∧
          sendsInOrder [] (sendingAtOnce u.run) = true) = true := by
  have h : (((endState 5 (.write [0x41]) initialised).bind (endState 5 .init)).bind
      (endState 5 (.write [0x42]))).any (fun u => decide (Clean u.hist ∧
        (sendingAtOnce u.run).filter RunEvent.isOfBlock = u.run ∧
        sendsInOrder [] (sendingAtOnce u.run) = true)) = true := by decide
  cases h1 : endState 5 (.write [0x41]) initialised with
  | none => rw [h1] at h; cases h
  | some s =>
    cases h2 : endState 5 .init s with
    | none => rw [h1, Option.bind_some, h2] at h; cases h
    | some t =>
      cases h3 : endState 5 (.write [0x42]) t with
      | none => rw [h1, Option.bind_some, h2, Option.bind_some, h3] at h; cases h
      | some u =>
        rw [h1, Option.bind_some, h2, Option.bind_some, h3, Option.any_some] at h
        exact ⟨idleAt_ready, rfl, rfl, init_completes, u, ⟨s, completes_of_endState h1, t,
          completes_of_endState h2, u, completes_of_endState h3, rfl⟩, h⟩

/-- The block IDLE with an abort in its history. -/
def afterAbort : State := { idleAt ideal with hist := [.rd .rawIntrStat 0x200] }

/-- The launch premise missing; a command under way; an abort, and a word without the premise, before a command; a word not sent. -/
theorem witness_BusClaimsAreRefusedOutsideCleanRuns :
    ¬ (idleAt ideal).BusPremise ∧ (inCall .wCheck 1 ideal).busy = true ∧ ¬ Clean afterAbort.hist ∧ afterAbort.Ready ∧
      (∃ u, Completes (.write [0x44]) afterAbort u ∧ decide (u.phase = .idle) = true) ∧
      underPremise demo .reset cleanWrite = false ∧
      sentWords [.block (.wr .dataCmd 0x241)] ≠ offeredWords [.block (.wr .dataCmd 0x241)] :=
  ⟨by decide, by decide, by decide, ⟨rfl, rfl, by decide⟩, completes_with (k := 5) _ (by decide), by decide,
    by decide⟩

/-- A reset in the middle of a command, and in IDLE after an abort, with a run of two steps after it. -/
theorem witness_ResetInMidCommandRefusesBusClaims :
    { inCall .wIssue 1 ideal with rst := true }.rst = true ∧
      { inCall .wIssue 1 ideal with rst := true }.busy = true ∧
      (∃ u, runSteps (1 + 1) { inCall .wIssue 1 ideal with rst := true } = .next u ∧
        decide (∃ e ∈ u.past, e.cut = true) = true) ∧
      { afterAbort with rst := true }.rst = true ∧ ¬ Clean { afterAbort with rst := true }.hist ∧
      ∃ u, runSteps (1 + 1) { afterAbort with rst := true } = .next u ∧ decide (u.past ≠ []) = true :=
  ⟨rfl, by decide, next_with _ (by decide), rfl, by decide, next_with _ (by decide)⟩

/-- INIT done, and one word short of a full reference FIFO that drains in time. -/
def withRoom : State :=
  { initialised with
    env := .reference
      { fifo := [0x041], bus := [], abrt := false, moves := [[], [.drain]], fates := [], draws := 0 } }

theorem witness_ReferenceBusCarriesTheWordsOfACleanCommand :
    withRoom.Ready ∧ (∃ r, withRoom.env = .reference r) ∧
      ∃ u, Completes (.write [0x41]) withRoom u ∧ cleanFrom 0 (newEvents withRoom u) = true :=
  ⟨⟨rfl, rfl, by decide⟩, ⟨_, rfl⟩, completes_with (k := 5) _ (by decide)⟩

/-! #### Whole-machine rules and the reference environment -/

theorem witness_EveryStepKeepsTheInvariant :
    (inCall .wCheck 1 ideal).Inv ∧ ∃ t, step (inCall .wCheck 1 ideal) = .next t ∧
      decide (t.phase = .idle) = true :=
  ⟨(inCall_inv _ (by simp)).2, next_with _ (by decide)⟩

theorem witness_RegistersHoldWhatTheHistorySays :
    initialised.RegsRecorded ∧ ∃ t, step { initialised with rst := true } = .next t ∧
      decide (t.regs = .reset) = true :=
  ⟨(by decide : configured 1 = regsAfter _), next_with _ (by decide)⟩

theorem witness_NoStepStopsUnderTheInvariant : (inCall .wBuild 1 ideal).Inv ∧ (inInit .i4).Inv :=
  ⟨(inCall_inv _ (by simp)).2, inInit_inv _ (by simp)⟩

theorem witness_StepsMakeAtMostOneListedAccess :
    (inCall .wIssue 1 ideal).Inv ∧ (inCall .wIssue 1 ideal).rst = false ∧
      ∃ t, step (inCall .wIssue 1 ideal) = .next t ∧ decide (t.phase = .wPace) = true :=
  ⟨(inCall_inv _ (by simp)).2, rfl, next_with _ (by decide)⟩

/-- A second abort of a command, and a first. -/
theorem witness_FirstAbortOfACommandIsKept :
    (∃ t, step { inCall .wCheck 0 (.script [] [0x200]) with
        retries := 1, callNo := 2
        res := { fail := true, cause := .fifoTimeout, call := 0, idx := 0, illegal := false } } = .next t ∧
        decide (t.res.call = 0) = true) ∧
      ∃ t, step { inCall .wCheck 0 (.script [] [0x200]) with retries := 1 } = .next t ∧
        decide (t.res ≠ (inCall .wCheck 0 (.script [] [0x200])).res) = true :=
  ⟨next_with _ (by decide), next_with _ (by decide)⟩

theorem witness_ParametersAndInputsAreKept :
    (∃ t, step (offering [.init, .initDisplay]) = .next t ∧
        decide (t.host ≠ (offering [.init, .initDisplay]).host) = true) ∧
      { inCall .wPoll 0 ideal with rst := true }.rst = true ∧
      (∀ r, { inCall .wPoll 0 ideal with rst := true }.env ≠ .reference r) ∧
      ∃ t, step { inCall .wPoll 0 ideal with rst := true } = .next t ∧ decide (t.phase = .idle) = true :=
  ⟨next_with _ (by decide), rfl, nofun, next_with _ (by decide)⟩

theorem witness_StorageRegistersNeverSteerTheBlock :
    (∀ r, (inCall .wPoll 0 ideal).env ≠ .reference r) ∧ (inCall .wPoll 0 ideal).rst = false ∧
      (inCall .wPoll 0 ideal).phase ≠ .i1 ∧ (inCall .wPoll 0 ideal).phase ≠ .i2 ∧
      (inCall .wPoll 0 ideal).phase ≠ .i3 ∧ (inCall .wPoll 0 ideal).phase ≠ .i4 ∧
      (inCall .wPoll 0 ideal).phase ≠ .i5 ∧
      ∃ t, step (inCall .wPoll 0 ideal) = .next t ∧ decide (t.phase = .wIssue) = true :=
  ⟨nofun, rfl, by decide, by decide, by decide, by decide, by decide, next_with _ (by decide)⟩

theorem witness_HistoryAndDisplayStateAreNeverRead :
    (inCall .wCheck 1 ideal).rst = false ∧ ∃ t, step (inCall .wCheck 1 ideal) = .next t ∧
      decide (t.phase = .idle) = true := ⟨rfl, next_with _ (by decide)⟩

/-- Full and not full, abort and clear, with the other 31 bits differing (V42). -/
theorem witness_OtherBitsOfReadValuesAreIgnored :
    (0x0 : Word).getLsbD 1 = (0xFFFFFFFD : Word).getLsbD 1 ∧
      (0x2 : Word).getLsbD 1 = (0xFFFFFFFF : Word).getLsbD 1 ∧
      (0x0 : Word).getLsbD 9 = (0xFFFFFDFF : Word).getLsbD 9 ∧
      (∃ t, step { inCall .wPoll 0 ideal with env := .script [0x0] [] } = .next t ∧
        decide (t.phase = .wPoll) = true) ∧
      (∃ t, step { inCall .wCheck 0 ideal with env := .script [] [0x0] } = .next t ∧
        decide (t.idx = 1) = true) :=
  ⟨by decide, by decide, by decide, next_with _ (by decide), next_with _ (by decide)⟩

/-- The FIFO has room for one word at FIFO_DEPTH 2, and the abort bit is set; also with reset asserted. -/
theorem witness_ReferenceEnvironmentAnswers :
    (∃ r, (withFifo .wPoll 1).env = .reference r ∧ r.fifo.length < (withFifo .wPoll 1).par.fifoDepth) ∧
      { withFifo .wPoll 1 with rst := true }.rst = true ∧
      ∃ r, { withFifo .wPoll 1 with rst := true }.env = .reference r :=
  ⟨⟨_, rfl, by decide⟩, rfl, _, rfl⟩

theorem witness_ReferenceFifoDrainsInOrderWhileEnabled :
    (∃ r, (withFifo .wPace 0).env = .reference r) ∧ (withFifo .wPace 0).regs.enable.get ≠ some 0x00000001 ∧
      (withFifo .wPace 1).regs.enable.get = some 0x00000001 := ⟨⟨_, rfl⟩, by decide, by decide⟩

end Sys2Proof.Tests
end

section
/-! SUPPORT. The decoder of the host port by fields and by patterns (R70 to R74), and the FIFO command word
by fields (R75). -/

namespace Sys2Proof

/-! ### Codes of operations (R72) -/

theorem Op.ofCode_eq_some_iff {c : BitVec 4} {op : Op} : Op.ofCode c = some op ↔ c = op.code := by
  cases op <;> revert c <;> decide

theorem Op.exists_ofCode_iff (c : BitVec 4) : (∃ op, Op.ofCode c = some op) ↔ c.toNat ≤ 6 := by
  rw [← Option.isSome_iff_exists]
  revert c
  decide

theorem Op.code_injective : Function.Injective Op.code := fun _ _ h =>
  Option.some.inj ((Op.ofCode_eq_some_iff.2 rfl).symm.trans (Op.ofCode_eq_some_iff.2 h))

theorem Op.takesPayload_eq_false_iff (op : Op) :
    op.takesPayload = false ↔ op.code = 0 ∨ op.code = 4 ∨ op.code = 5 := by
  cases op <;> decide

/-! ### Legal headers by fields (R73) -/

/-- Header `h` is a legal header of operation `op`, as R73 says it. -/
def FieldsLegalFor (h : Word) (op : Op) : Prop :=
  headerOp h = op.code ∧ headerRsv h = 0 ∧ (op.takesPayload = false → headerLen h = 0)

theorem decodeHeader_eq_ok_iff {h : Word} {op : Op} {len : Nat} :
    decodeHeader h = .ok (op, len) ↔ FieldsLegalFor h op ∧ len = (headerLen h).toNat := by
  unfold FieldsLegalFor decodeHeader
  rw [← Op.ofCode_eq_some_iff]
  split
  next hop => simp [hop]
  next op' hop =>
    split_ifs with hrsv hlen
    · refine ⟨nofun, ?_⟩
      rintro ⟨⟨-, hzero, -⟩, -⟩
      exact absurd hzero hrsv
    · rw [hop, Option.some_inj]
      refine ⟨nofun, ?_⟩
      rintro ⟨⟨rfl, -, hzero⟩, -⟩
      exact absurd (hzero hlen.left) hlen.right
    · rw [hop, Option.some_inj, Except.ok.injEq, Prod.mk.injEq]
      have hzero : op'.takesPayload = false → headerLen h = 0 := by simpa using hlen
      constructor
      · rintro ⟨rfl, rfl⟩
        exact ⟨⟨rfl, not_not.1 hrsv, hzero⟩, rfl⟩
      · rintro ⟨⟨rfl, -, -⟩, rfl⟩
        exact ⟨rfl, rfl⟩

theorem exists_decodeHeader_eq_ok_iff {h : Word} {op : Op} :
    (∃ len, decodeHeader h = .ok (op, len)) ↔ FieldsLegalFor h op := by
  simp [decodeHeader_eq_ok_iff]

theorem FieldsLegalFor.unique {h : Word} {op op' : Op} (hop : FieldsLegalFor h op)
    (hop' : FieldsLegalFor h op') : op = op' := by
  obtain ⟨hcode, -, -⟩ := hop
  obtain ⟨hcode', -, -⟩ := hop'
  exact Op.code_injective (hcode.symm.trans hcode')

/-! ### Legal headers in match-and-mask form (R73) -/

theorem toNat_headerOp (h : Word) : (headerOp h).toNat = h.toNat % 16 := by
  simp [headerOp]

theorem toNat_headerRsv (h : Word) : (headerRsv h).toNat = h.toNat / 16 % 4096 := by
  simp [headerRsv, Nat.shiftRight_eq_div_pow]

theorem toNat_headerLen (h : Word) : (headerLen h).toNat = h.toNat / 65536 := by
  have := h.isLt
  simp only [headerLen, BitVec.extractLsb'_toNat, Nat.shiftRight_eq_div_pow]
  omega

/-- The mask of the operations with a payload leaves LEN open. -/
theorem and_lowMask_eq_iff (h : Word) (c : BitVec 4) :
    h &&& 0x0000FFFF = c.setWidth 32 ↔ headerOp h = c ∧ headerRsv h = 0 := by
  have hmask : (h &&& 0x0000FFFF).toNat = h.toNat % 65536 := Nat.and_two_pow_sub_one_eq_mod h.toNat 16
  have hc := c.isLt
  rw [← BitVec.toNat_inj, hmask]
  simp only [← BitVec.toNat_inj, toNat_headerOp, toNat_headerRsv, BitVec.toNat_setWidth,
    BitVec.ofNat_eq_ofNat, BitVec.toNat_ofNat]
  omega

/-- The mask of the operations without a payload also asks for LEN = 0. -/
theorem and_fullMask_eq_iff (h : Word) (c : BitVec 4) :
    h &&& 0xFFFFFFFF = c.setWidth 32 ↔ headerOp h = c ∧ headerRsv h = 0 ∧ headerLen h = 0 := by
  have hmask : (h &&& 0xFFFFFFFF).toNat = h.toNat % 4294967296 :=
    Nat.and_two_pow_sub_one_eq_mod h.toNat 32
  have hc := c.isLt
  have hh := h.isLt
  rw [← BitVec.toNat_inj, hmask]
  simp only [← BitVec.toNat_inj, toNat_headerOp, toNat_headerRsv, toNat_headerLen,
    BitVec.toNat_setWidth, BitVec.ofNat_eq_ofNat, BitVec.toNat_ofNat]
  omega

/-- The row of the opcode table of an operation. -/
def Op.row (op : Op) : OpcodeRow :=
  ⟨op, op.code.setWidth 32, if op.takesPayload then 0x0000FFFF else 0xFFFFFFFF⟩

theorem eq_row_of_mem_opcodeRows : ∀ r ∈ opcodeRows, r = r.op.row := by decide

theorem Op.row_fits_iff (op : Op) (h : Word) : op.row.fits h ↔ FieldsLegalFor h op := by
  unfold FieldsLegalFor Op.row OpcodeRow.fits
  cases hp : op.takesPayload with
  | true => simpa using and_lowMask_eq_iff h op.code
  | false => simpa using and_fullMask_eq_iff h op.code

/-- A header decodes to an operation exactly when it fits the operation's row. -/
theorem exists_decodeHeader_iff_row_fits (h : Word) (op : Op) :
    (∃ len, decodeHeader h = .ok (op, len)) ↔ op.row.fits h :=
  exists_decodeHeader_eq_ok_iff.trans (op.row_fits_iff h).symm

theorem opcodeRows_disjoint {h : Word} {r r' : OpcodeRow} (hr : r ∈ opcodeRows) (hr' : r' ∈ opcodeRows)
    (hfit : r.fits h) (hfit' : r'.fits h) : r = r' := by
  rw [eq_row_of_mem_opcodeRows r hr] at hfit ⊢
  rw [eq_row_of_mem_opcodeRows r' hr'] at hfit' ⊢
  rw [((Op.row_fits_iff _ h).1 hfit).unique ((Op.row_fits_iff _ h).1 hfit')]

/-- R73 with the three fields and the codes written out. -/
theorem exists_op_decodeHeader_iff (h : Word) :
    (∃ op len, decodeHeader h = .ok (op, len)) ↔
      headerRsv h = 0 ∧ (headerOp h).toNat ≤ 6 ∧
        ((headerOp h = 0 ∨ headerOp h = 4 ∨ headerOp h = 5) → headerLen h = 0) := by
  simp only [exists_decodeHeader_eq_ok_iff, FieldsLegalFor, Op.takesPayload_eq_false_iff]
  rw [← Op.exists_ofCode_iff]
  simp only [Op.ofCode_eq_some_iff]
  constructor
  · rintro ⟨op, hop, hrsv, hlen⟩
    exact ⟨hrsv, ⟨op, hop⟩, hop ▸ hlen⟩
  · rintro ⟨hrsv, ⟨op, hop⟩, hlen⟩
    exact ⟨op, hop, hrsv, hop ▸ hlen⟩

/-! ### The payload taken (R73) -/

theorem hasBeats_iff (k : Nat) (beats : List Byte) : hasBeats k beats = true ↔ k ≤ beats.length := by
  induction k, beats using hasBeats.induct with
  | case1 beats => simp [hasBeats]
  | case2 k => simp [hasBeats]
  | case3 k b beats ih => simp [hasBeats, ih]

/-- An offer with a legal header is the command of its operation and the LEN beats taken, as soon as that
many beats stand on the port. -/
theorem decode_of_decodeHeader {o : Offer} {op : Op} {len : Nat} (h : decodeHeader o.header = .ok (op, len))
    (hbeats : len ≤ o.payload.length) : decode o = .ok (op.instr (o.payload.take len)) := by
  simp [decode, h, (hasBeats_iff len o.payload).2 hbeats]

/-- Settles O3: the decoder's answer is that of the three fields, and each row of the opcode table asks the
same of the fields. -/
theorem legalHeadersAreTheSevenPatterns : Obligations.LegalHeadersAreTheSevenPatterns := by
  intro h
  have hrow := exists_decodeHeader_iff_row_fits h
  refine ⟨exists_op_decodeHeader_iff h, hrow .init, hrow .initDisplay, hrow .clearDisplay, hrow .write,
    hrow .sendCommand, hrow .sendData, hrow .displayText, ?disjoint, ?payload⟩
  case disjoint => exact fun r hr r' hr' => opcodeRows_disjoint hr hr'
  case payload =>
    intro op len hok
    exact ⟨(decodeHeader_eq_ok_iff.1 hok).2, fun payload hlen => decode_of_decodeHeader hok hlen⟩

/-! ### The FIFO command word (R75) -/

namespace Machine

/-- The byte lies below the stop flag, so the word is their sum. -/
theorem toNat_fifoWord (b : Byte) (last : Bool) :
    (fifoWord b last).toNat = 512 * last.toNat + b.toNat := by
  have hb : b.toNat < 2 ^ 9 := Nat.lt_trans b.isLt (by decide)
  have hsetWidth : b.toNat % 4294967296 = b.toNat := Nat.mod_eq_of_lt (by omega)
  calc (fifoWord b last).toNat
      = 2 ^ 9 * last.toNat ||| b.toNat := by
        cases last <;> simp [fifoWord, Config.stopBit, hsetWidth, Nat.or_comm]
    _ = 512 * last.toNat + b.toNat := (Nat.two_pow_add_eq_or_of_lt hb last.toNat).symm

@[simp] theorem wordByte_fifoWord (b : Byte) (last : Bool) : wordByte (fifoWord b last) = b := by
  have hb := b.isLt
  apply BitVec.eq_of_toNat_eq
  simp only [wordByte, BitVec.extractLsb'_toNat, toNat_fifoWord, Nat.shiftRight_zero]
  omega

/-- Bit 8 stays clear under both values of the flag (R75). -/
theorem getLsbD_fifoWord_eight (b : Byte) (last : Bool) : (fifoWord b last).getLsbD 8 = false := by
  have hb := b.isLt
  rw [BitVec.getLsbD, toNat_fifoWord, Nat.testBit_eq_decide_div_mod_eq, decide_eq_false_iff_not]
  omega

@[simp] theorem wordStop_fifoWord (b : Byte) (last : Bool) : wordStop (fifoWord b last) = last := by
  have hb := b.isLt
  rw [wordStop, BitVec.getLsbD, toNat_fifoWord, Nat.testBit_eq_decide_div_mod_eq, Config.stopBit]
  cases last with
  | false =>
    rw [decide_eq_false_iff_not, Bool.toNat_false]
    omega
  | true =>
    rw [decide_eq_true_iff, Bool.toNat_true]
    omega

/-- Bits 31:10 are 0 (R75). -/
theorem extractLsb'_fifoWord_high (b : Byte) (last : Bool) : (fifoWord b last).extractLsb' 10 22 = 0 := by
  have hb := b.isLt
  have hlast := last.toNat_le
  apply BitVec.eq_of_toNat_eq
  simp only [BitVec.extractLsb'_toNat, toNat_fifoWord, Nat.shiftRight_eq_div_pow,
    BitVec.ofNat_eq_ofNat, BitVec.toNat_ofNat]
  omega

/-- Settles O6, field by field from the value of the word. -/
theorem fifoWordCarriesByteAndStopFlag : Obligations.FifoWordCarriesByteAndStopFlag := by
  intro b last
  refine ⟨wordByte_fifoWord b last, getLsbD_fifoWord_eight b last, wordStop_fifoWord b last,
    extractLsb'_fifoWord_high b last, ?notLast, ?last, wordByte_fifoWord b last, wordStop_fifoWord b last⟩
  case notLast =>
    rintro rfl
    simp [toNat_fifoWord]
  case last =>
    rintro rfl
    simp [toNat_fifoWord]

end Machine

end Sys2Proof
end

section
/-! SUPPORT. The run of INIT from its acceptance to Done (R100, R111), step by step and as a whole, and the
steps W_BUILD, W_ISSUE and W_PACE of an attempt (R103, R105, R106). -/

namespace Sys2Proof.Machine

/-! ### The run of INIT (R100) -/

/-- Only the reference environment moves at its turns (R58). -/
theorem Env.turn_eq_self {e : Env} (h : ∀ r, e ≠ .reference r) (enabled : Bool) : e.turn enabled = e := by
  cases e with
  | reference r => exact absurd rfl (h r)
  | oracle k => rfl
  | script status raw => rfl
  | absent => rfl

/-- A turn does not remove the controller. -/
theorem Env.turn_ne_absent {e : Env} (h : e ≠ .absent) (enabled : Bool) : e.turn enabled ≠ .absent :=
  mt (e.turn_eq_absent enabled).1 h

/-- The environment after the five accesses of INIT: from the third turn on ENABLE holds 0 (R58, R100). -/
def Env.afterInit (enabled : Bool) (e : Env) : Env :=
  ((((e.turn enabled).turn enabled).turn false).turn false).turn false

theorem Env.afterInit_eq_self {e : Env} (h : ∀ r, e ≠ .reference r) (enabled : Bool) :
    e.afterInit enabled = e := by
  simp only [Env.afterInit, Env.turn_eq_self h]

/-- The storage registers at their INIT values (R100). -/
def initRegs (p : Params) : RegSet where
  funcsel := { val := p.funcselI2c, written := true }
  ctrl    := { val := p.ctrlInit, written := true }
  tar     := { val := 0x0000003C, written := true }
  enable  := { val := 0x00000001, written := true }

/-- What phases I1 to I5 add to the history (R100). -/
def initEvents (p : Params) : List Event :=
  [.wr .funcsel p.funcselI2c, .wr .enable 0x00000000, .wr .ctrl p.ctrlInit, .wr .tar 0x0000003C,
    .wr .enable 0x00000001, .done 0x00000000]

/-- Phases I1 to I5 lead to this state (R100, R111). -/
def initDone (s : State) : State :=
  { s with
    regs  := initRegs s.par
    env   := s.env.afterInit s.regs.enabled
    hist  := s.hist ++ initEvents s.par
    phase := .idle }

/-- A phase of INIT begins a busy run that goes on from the state its write leaves. -/
theorem busyRun_initStep {k : Nat} {s u : State} {r : Reg} {v : Word} {next : Phase}
    (hstep : step s = initStep r v next s) (hp : s.phase ≠ .idle) (he : s.env ≠ .absent)
    (hr : r = .funcsel ∨ r = .ctrl ∨ r = .tar ∨ r = .enable)
    (hu : BusyRun k
      { s with
        regs  := s.regs.write v r
        env   := s.envTurn.env
        hist  := s.hist ++ [.wr r v]
        phase := next } u) :
    BusyRun (k + 1) s u :=
  .step hp (hstep.trans (initStep_present r v next he hr)) hu

/-- Phase I5 is a busy run of one step, to IDLE. -/
theorem busyRun_initLast {s u : State} (hr : s.rst = false) (hp : s.phase = .i5) (he : s.env ≠ .absent)
    (hu : u = { s with
      regs  := s.regs.write 0x00000001 .enable
      env   := s.envTurn.env
      hist  := s.hist ++ [.wr .enable 0x00000001] ++ [.done 0x00000000]
      phase := .idle }) :
    BusyRun 1 s u :=
  .step (by simp [hp]) ((step_i5 hr hp).trans (initLast_present he)) (hu ▸ .refl _)

/-- The run of INIT: four writes, and the fifth with Done (R100). -/
theorem busyRun_initDone {s : State} (hr : s.rst = false) (hp : s.phase = .i1) (he : s.env ≠ .absent) :
    BusyRun 5 s (initDone s) := by
  have he₁ := Env.turn_ne_absent he s.regs.enabled
  have he₂ := Env.turn_ne_absent he₁ s.regs.enabled
  have he₃ := Env.turn_ne_absent he₂ false
  have he₄ := Env.turn_ne_absent he₃ false
  refine busyRun_initStep (step_i1 hr hp) (by simp [hp]) he (by simp) ?_
  refine busyRun_initStep (step_i2 hr rfl) nofun he₁ (by simp) ?_
  refine busyRun_initStep (step_i3 hr rfl) nofun he₂ (by simp) ?_
  refine busyRun_initStep (step_i4 hr rfl) nofun he₃ (by simp) ?_
  refine busyRun_initLast hr rfl he₄ ?_
  simp [initDone, initRegs, initEvents, Env.afterInit, RegSet.write, Stored.put, RegSet.enabled]

/-- INIT completes from every ready state, five steps after its acceptance (R100). -/
theorem completesIn_init {s : State} (h : s.Ready) :
    CompletesIn 5 .init s (initDone { acceptHeader .init [] s with phase := .i1 }) := by
  obtain ⟨hp, hr, he⟩ := h
  exact completesIn_of_busyRun (exec_init hp) (busyRun_initDone hr rfl he) rfl

/-- Settles O16: the acceptance, then the run through phases I1 to I5 to the state `initDone`. -/
theorem initMakesItsFiveWrites : Obligations.InitMakesItsFiveWrites := by
  intro s h
  have hp : s.phase = .idle := h.1
  refine ⟨⟨_, exec_init hp, rfl⟩, _, ⟨5, completesIn_init h⟩, ?state, fun he => ?env⟩
  case state => simp [initDone, initRegs, initEvents, acceptHeader, State.emit, hp]
  case env => exact Env.afterInit_eq_self he s.regs.enabled

/-! ### The steps of an attempt -/

/-- Settles O25: the word W_BUILD makes is `fifoWord` of the byte, whose fields are known (R75). -/
theorem buildStepMakesTheWord : Obligations.BuildStepMakesTheWord := by
  intro s b hp hr hb
  have hlast : (fifoWord b (s.idx + 1 == s.n)).getLsbD 9 = (s.idx + 1 == s.n) := wordStop_fifoWord b _
  exact ⟨fifoWord b (s.idx + 1 == s.n), (step_wBuild hr hp).trans (buildStep_byte hb),
    wordByte_fifoWord b _, by rw [hlast, beq_iff_eq], getLsbD_fifoWord_eight b _,
    extractLsb'_fifoWord_high b _⟩

/-- Settles O27: neither the environment's turn nor a word offered to it removes or brings the controller. -/
theorem issueAndPaceSteps : Obligations.IssueAndPaceSteps := by
  refine ⟨fun s hp hr he => ?issue, fun s hp hr => ?pace⟩
  case issue =>
    refine ⟨s.envTurn.env.offer s.par.fifoDepth s.word, ?_,
      (step_wIssue hr hp).trans (issueStep_present he)⟩
    exact mt (Env.offer_eq_absent _ _ _).1 (Env.turn_ne_absent he _)
  case pace =>
    exact ⟨s.envTurn.env, Env.turn_eq_absent _ _, (step_wPace hr hp).trans (paceStep_next s)⟩

end Sys2Proof.Machine
end

section
/-! SUPPORT. The fault of an access to an absent controller, and the phase FAULT the block then keeps (R154). -/

namespace Sys2Proof.Machine

theorem Phase.accesses_eq_true_iff (p : Phase) :
    p.accesses = true ↔ p = .i1 ∨ p = .i2 ∨ p = .i3 ∨ p = .i4 ∨ p = .i5 ∨
      p = .wPoll ∨ p = .wIssue ∨ p = .wCheck := by
  cases p <;> decide

/-- A state its own step leaves as it is stays so over any number of steps. -/
theorem runSteps_of_step_eq_self {s : State} (h : step s = .next s) (k : Nat) : runSteps k s = .next s := by
  induction k with
  | zero => exact runSteps_zero s
  | succ k ih => exact (runSteps_succ k h).trans ih

/-- Settles O14: the phases named are those that make an access, and a step in FAULT leaves the state as it
is. -/
theorem absentControllerFaultsForGood : Obligations.AbsentControllerFaultsForGood := by
  refine ⟨fun s he hr hp => ?access, fun s k hp hr => ?forGood⟩
  case access => exact step_absent hr ((Phase.accesses_eq_true_iff s.phase).2 hp) he
  case forGood => exact runSteps_of_step_eq_self (step_fault hr hp) k

end Sys2Proof.Machine
end

section
/-! SUPPORT. The state reset leaves (R170), the wait in IDLE (R171), and what a step does to the storage
registers: the write of a phase of INIT, or none (R100, R173). -/

namespace Sys2Proof.Machine

/-! ### Reset (R170) -/

@[simp] theorem applyReset_phase (s : State) : (applyReset s).phase = .idle := rfl
@[simp] theorem applyReset_calls (s : State) : (applyReset s).calls = [] := rfl
@[simp] theorem applyReset_hist (s : State) : (applyReset s).hist = [] := rfl
@[simp] theorem applyReset_disp (s : State) : (applyReset s).disp = .uninitialized := rfl
@[simp] theorem applyReset_res (s : State) : (applyReset s).res = .clear := rfl
@[simp] theorem applyReset_regs (s : State) : (applyReset s).regs = .reset := rfl

/-- No register holds a value after reset (R38, D20). -/
@[simp] theorem RegSet.lastWritten_reset (r : Reg) : RegSet.reset.lastWritten r = none := by
  cases r <;> rfl

/-- Settles O9: the step is `applyReset`, whose result fields are clear and whose registers are reset. -/
theorem resetFromAnyState : Obligations.ResetFromAnyState := by
  intro s hr
  exact ⟨applyReset s, step_rst hr, by simp [Result.clear]⟩

/-! ### Waiting (R171) -/

theorem step_idle_noOffer {s : State} (hr : s.rst = false) (hp : s.phase = .idle) (hh : s.host = []) :
    step s = .next s := by
  rw [step_idle hr hp, idleStep, fetch, hh]

/-- Settles O10: one step leaves the state as it is, so any number does. -/
theorem idleBlockWaitsForAHeader : Obligations.IdleBlockWaitsForAHeader :=
  ⟨rfl, fun _ k hp hh hr => runSteps_of_step_eq_self (step_idle_noOffer hr hp hh) k⟩

/-! ### What leaves the storage registers alone -/

/-- `t` follows `s` with no write to a storage register: the registers are as they were, and no event added to
the history is such a write. -/
def State.KeepsStorage (s t : State) : Prop :=
  t.regs = s.regs ∧ ∃ es, t.hist = s.hist ++ es ∧ ∀ e ∈ es, e.isConfiguration = false

theorem keepsStorage_of_eq {s t : State} (hg : t.regs = s.regs) (hh : t.hist = s.hist) :
    s.KeepsStorage t := ⟨hg, [], by simp [hh], by simp⟩

theorem keepsStorage_of_event {s t : State} {e : Event} (hg : t.regs = s.regs)
    (hh : t.hist = s.hist ++ [e]) (he : e.isConfiguration = false) : s.KeepsStorage t :=
  ⟨hg, [e], hh, by simpa using he⟩

theorem State.KeepsStorage.trans {s t u : State} (h : s.KeepsStorage t) (h' : t.KeepsStorage u) :
    s.KeepsStorage u := by
  obtain ⟨hg, es, hh, hes⟩ := h
  obtain ⟨hg', es', hh', hes'⟩ := h'
  refine ⟨hg'.trans hg, es ++ es', by rw [hh', hh, List.append_assoc], fun e he => ?_⟩
  exact (List.mem_append.1 he).elim (hes e) (hes' e)

theorem keepsStorage_startCall (calls : List (List Byte)) (s : State) :
    s.KeepsStorage (startCall calls s) := by
  rcases startCall_cases calls s with ⟨-, -, hh, -⟩ | ⟨-, hh, -⟩
  · exact keepsStorage_of_event (startCall_regs calls s) hh rfl
  · exact keepsStorage_of_eq (startCall_regs calls s) hh

theorem keepsStorage_endCall (s : State) : s.KeepsStorage (endCall s) :=
  .trans (keepsStorage_of_eq rfl rfl) (keepsStorage_startCall s.calls _)

theorem keepsStorage_pollResult (v : Word) (s : State) : s.KeepsStorage (pollResult v s) := by
  rcases pollResult_cases v s with ⟨-, h⟩ | ⟨-, -, h⟩ | ⟨-, -, h⟩ <;>
    exact h ▸ keepsStorage_of_eq rfl rfl

theorem keepsStorage_settle (a : Bool) (s : State) : s.KeepsStorage (settle a s) := by
  rcases settle_cases a s with ⟨-, h⟩ | ⟨-, -, h⟩ | ⟨-, -, -, h⟩ | ⟨-, -, -, h⟩ <;> rw [h]
  · have hdiag : s.KeepsStorage (recordAbort s) := keepsStorage_of_event rfl rfl rfl
    exact hdiag.trans (keepsStorage_endCall _)
  · exact keepsStorage_of_eq rfl rfl
  · exact keepsStorage_endCall s
  · exact keepsStorage_of_eq rfl rfl

theorem keepsStorage_checkResult (v : Word) (s : State) : s.KeepsStorage (checkResult v s) := by
  have hcharge : s.KeepsStorage (chargeAbort (abrt v) s) := by
    cases abrt v <;> exact keepsStorage_of_eq rfl rfl
  exact hcharge.trans (keepsStorage_settle _ _)

theorem keepsStorage_exec {s t : State} {i : Instr} (hp : s.phase = .idle) (h : exec i s = .next t) :
    s.KeepsStorage t := by
  by_cases hi : i = .init
  · subst hi
    rw [exec_init hp] at h
    cases h
    exact keepsStorage_of_event rfl rfl rfl
  · rw [exec_calls hp hi] at h
    cases h
    have hacc : s.KeepsStorage (acceptHeader i.op i.payload s) := keepsStorage_of_event rfl rfl rfl
    exact hacc.trans (keepsStorage_startCall _ _)

theorem keepsStorage_reject (w : Word) (s : State) : s.KeepsStorage (reject w s) :=
  ⟨rfl, [.rej w, .done Result.refusedHeader.word], by simp, by simp [Event.isConfiguration]⟩

theorem keepsStorage_idleStep {s t : State} (hp : s.phase = .idle) (h : idleStep s = .next t) :
    s.KeepsStorage t := by
  rcases idleStep_cases s with hw | ⟨o, later, i, -, -, hi⟩ | ⟨o, later, -, hj⟩
  · cases hw.symm.trans h
    exact keepsStorage_of_eq rfl rfl
  · have htake : s.KeepsStorage { s with host := later } := keepsStorage_of_eq rfl rfl
    exact htake.trans (keepsStorage_exec hp (hi.symm.trans h))
  · cases hj.symm.trans h
    have htake : s.KeepsStorage { s with host := later } := keepsStorage_of_eq rfl rfl
    exact htake.trans (keepsStorage_reject _ _)

theorem keepsStorage_pollStep {s t : State} (he : s.env ≠ .absent) (h : pollStep s = .next t) :
    s.KeepsStorage t := by
  cases (pollStep_present he).symm.trans h
  refine .trans ?_ (keepsStorage_pollResult _ _)
  exact keepsStorage_of_event rfl rfl rfl

theorem keepsStorage_issueStep {s t : State} (he : s.env ≠ .absent) (h : issueStep s = .next t) :
    s.KeepsStorage t := by
  cases (issueStep_present he).symm.trans h
  exact keepsStorage_of_event rfl rfl rfl

theorem keepsStorage_checkStep {s t : State} (he : s.env ≠ .absent) (h : checkStep s = .next t) :
    s.KeepsStorage t := by
  cases (checkStep_present he).symm.trans h
  refine .trans ?_ (keepsStorage_checkResult _ _)
  exact keepsStorage_of_event rfl rfl rfl

/-! ### The writes of INIT -/

/-- The write the phase makes to a storage register: the five of INIT, and no other (R100, R93). -/
def State.initWrite (s : State) : Option (Reg × Word) :=
  match s.phase with
  | .i1 => some (.funcsel, s.par.funcselI2c)
  | .i2 => some (.enable, 0x00000000)
  | .i3 => some (.ctrl, s.par.ctrlInit)
  | .i4 => some (.tar, 0x0000003C)
  | .i5 => some (.enable, 0x00000001)
  | .idle | .wBuild | .wPoll | .wIssue | .wPace | .wCheck | .fault => none

theorem initWrite_cases {s : State} {r : Reg} {v : Word} (h : s.initWrite = some (r, v)) :
    (s.phase = .i1 ∧ r = .funcsel ∧ v = s.par.funcselI2c) ∨
    (s.phase = .i2 ∧ r = .enable ∧ v = 0x00000000) ∨
    (s.phase = .i3 ∧ r = .ctrl ∧ v = s.par.ctrlInit) ∨
    (s.phase = .i4 ∧ r = .tar ∧ v = 0x0000003C) ∨
    (s.phase = .i5 ∧ r = .enable ∧ v = 0x00000001) := by
  rw [State.initWrite] at h
  cases hp : s.phase <;> rw [hp] at h <;> cases h <;> simp

/-- `t` follows `s` by a write of `v` to the storage register `r`, the first event added to the history. -/
def State.WritesStorage (s : State) (r : Reg) (v : Word) (t : State) : Prop :=
  t.par = s.par ∧ t.regs = s.regs.write v r ∧ ∃ later, t.hist = s.hist ++ .wr r v :: later

theorem writesStorage_of_initStep {s t : State} {r : Reg} {v : Word} {next : Phase} (he : s.env ≠ .absent)
    (hr : r = .funcsel ∨ r = .ctrl ∨ r = .tar ∨ r = .enable) (h : initStep r v next s = .next t) :
    s.WritesStorage r v t := by
  rw [initStep_present r v next he hr] at h
  cases h
  exact ⟨rfl, rfl, [], rfl⟩

theorem writesStorage_of_initLast {s t : State} (he : s.env ≠ .absent) (h : initLast s = .next t) :
    s.WritesStorage .enable 0x00000001 t := by
  rw [initLast_present he] at h
  cases h
  exact ⟨rfl, rfl, [.done 0x00000000], by simp⟩

/-- What a step does to the storage registers: nothing, or the write of its phase of INIT. -/
theorem step_keepsStorage_or_initWrite {s t : State} (hr : s.rst = false) (h : step s = .next t) :
    s.KeepsStorage t ∨ ∃ r v, s.initWrite = some (r, v) ∧ s.WritesStorage r v t := by
  rcases step_cases h with ⟨hrst, -⟩ | ⟨-, hp, hi⟩ | ⟨-, -, -, rfl⟩ | ⟨-, -, rfl⟩ | ⟨-, -, b, -, rfl⟩ |
    ⟨-, -, rfl⟩ | ⟨-, he, haccess⟩
  case inl => exact absurd (hrst.symm.trans hr) (by decide)
  case inr.inl => exact .inl (keepsStorage_idleStep hp hi)
  case inr.inr.inl => exact .inl (keepsStorage_of_eq rfl rfl)
  case inr.inr.inr.inl => exact .inl (keepsStorage_of_eq rfl rfl)
  case inr.inr.inr.inr.inl => exact .inl (keepsStorage_of_eq rfl rfl)
  case inr.inr.inr.inr.inr.inl => exact .inl (keepsStorage_of_event rfl rfl rfl)
  rcases haccess with ⟨hp, h1⟩ | ⟨hp, h2⟩ | ⟨hp, h3⟩ | ⟨hp, h4⟩ | ⟨hp, h5⟩ | ⟨-, hpoll⟩ | ⟨-, hissue⟩ |
    ⟨-, hcheck⟩
  · exact .inr ⟨_, _, by rw [State.initWrite, hp], writesStorage_of_initStep he (by simp) h1⟩
  · exact .inr ⟨_, _, by rw [State.initWrite, hp], writesStorage_of_initStep he (by simp) h2⟩
  · exact .inr ⟨_, _, by rw [State.initWrite, hp], writesStorage_of_initStep he (by simp) h3⟩
  · exact .inr ⟨_, _, by rw [State.initWrite, hp], writesStorage_of_initStep he (by simp) h4⟩
  · exact .inr ⟨_, _, by rw [State.initWrite, hp], writesStorage_of_initLast he h5⟩
  · exact .inl (keepsStorage_pollStep he hpoll)
  · exact .inl (keepsStorage_issueStep he hissue)
  · exact .inl (keepsStorage_checkStep he hcheck)

/-- A step whose one event writes CTRL or TAR is the write of its phase of INIT. -/
theorem initWrite_of_hist {s t : State} {r : Reg} {v : Word} (hr : s.rst = false) (h : step s = .next t)
    (hh : t.hist = s.hist ++ [.wr r v]) (hconf : (Event.wr r v).isConfiguration = true) :
    s.initWrite = some (r, v) ∧ s.WritesStorage r v t := by
  rcases step_keepsStorage_or_initWrite hr h with ⟨-, es, hes, hnot⟩ | ⟨r', v', hw, hwrites⟩
  · obtain rfl : es = [.wr r v] := List.append_cancel_left (hes.symm.trans hh)
    exact absurd (hnot _ (List.mem_singleton_self _)) (by simp [hconf])
  · have ⟨_, _, later, hl⟩ := hwrites
    have hsame : Event.wr r' v' :: later = [.wr r v] := List.append_cancel_left (hl.symm.trans hh)
    cases hsame
    exact ⟨hw, hwrites⟩

/-! ### The order of INIT's writes (R173) -/

/-- A phase that writes CTRL or TAR relies on ENABLE holding 0 (R26, R101). -/
theorem State.Inv.enable_low {s : State} {r : Reg} {v : Word} (h : s.Inv) (hw : s.initWrite = some (r, v))
    (hr : r = .ctrl ∨ r = .tar) : s.regs.enable.get = some 0x00000000 := by
  obtain ⟨hphase, -⟩ := h
  rcases initWrite_cases hw with ⟨-, rfl, -⟩ | ⟨-, rfl, -⟩ | ⟨hp, -⟩ | ⟨hp, -⟩ | ⟨-, rfl, -⟩
  · simp at hr
  · simp at hr
  · rw [State.PhaseInv, hp] at hphase
    obtain ⟨-, -, henable⟩ := hphase
    exact henable
  · rw [State.PhaseInv, hp] at hphase
    obtain ⟨-, -, henable, -⟩ := hphase
    exact henable
  · simp at hr

/-- The phase that writes 1 to ENABLE relies on CTRL and TAR holding their INIT values (R101). -/
theorem State.Inv.configured {s : State} (h : s.Inv) (hw : s.initWrite = some (.enable, 0x00000001)) :
    s.regs.ctrl.get = some s.par.ctrlInit ∧ s.regs.tar.get = some 0x0000003C := by
  obtain ⟨hphase, -⟩ := h
  rcases initWrite_cases hw with ⟨-, hr, -⟩ | ⟨-, -, hv⟩ | ⟨-, hr, -⟩ | ⟨-, hr, -⟩ | ⟨hp, -⟩
  · cases hr
  · exact absurd hv (by decide)
  · cases hr
  · cases hr
  · rw [State.PhaseInv, hp] at hphase
    obtain ⟨-, -, -, hctrl, htar⟩ := hphase
    exact ⟨hctrl, htar⟩

/-- A write to a register other than ENABLE leaves ENABLE as it is. -/
theorem RegSet.write_enable_of_ne (g : RegSet) (v : Word) {r : Reg} (hr : r ≠ .enable) :
    (g.write v r).enable = g.enable := by
  cases r with
  | enable => exact absurd rfl hr
  | _ => rfl

/-- A step that writes CTRL or TAR finds ENABLE holding 0 and leaves it so. -/
theorem enable_low_of_hist {s t : State} {r : Reg} {v : Word} (hi : s.Inv) (hrst : s.rst = false)
    (h : step s = .next t) (hr : r = .ctrl ∨ r = .tar) (hh : t.hist = s.hist ++ [.wr r v]) :
    s.regs.enable.get = some 0x00000000 ∧ t.regs.enable.get = some 0x00000000 := by
  have hconf : (Event.wr r v).isConfiguration = true := by rcases hr with rfl | rfl <;> rfl
  have hne : r ≠ .enable := by rcases hr with rfl | rfl <;> decide
  obtain ⟨hw, -, hregs, -⟩ := initWrite_of_hist hrst h hh hconf
  have hlow := hi.enable_low hw hr
  exact ⟨hlow, by rwa [hregs, RegSet.write_enable_of_ne _ _ hne]⟩

/-- A step that brings ENABLE to 1 is the write of phase I5, and leaves CTRL and TAR at their INIT values. -/
theorem configured_of_enable_rises {s t : State} (hi : s.Inv) (hrst : s.rst = false) (h : step s = .next t)
    (hhigh : t.regs.enable.get = some 0x00000001) (hlow : s.regs.enable.get ≠ some 0x00000001) :
    t.regs.ctrl.get = some t.par.ctrlInit ∧ t.regs.tar.get = some 0x0000003C := by
  rcases step_keepsStorage_or_initWrite hrst h with ⟨hregs, -⟩ | ⟨r, v, hw, hpar, hregs, -⟩
  · exact absurd (hregs ▸ hhigh) hlow
  · rw [hregs] at hhigh
    by_cases hr : r = .enable
    · subst hr
      have hv : v = 0x00000001 := Option.some.inj hhigh
      rw [hregs, hpar]
      exact hi.configured (hv ▸ hw)
    · rw [RegSet.write_enable_of_ne _ _ hr] at hhigh
      exact absurd hhigh hlow

/-- Settles O18: a step writes storage registers only as a phase of INIT, and the invariant gives what each of
these phases relies on. -/
theorem enableIsLowWhileConfiguring : Obligations.EnableIsLowWhileConfiguring := by
  intro s t hi hrst h
  refine ⟨fun v hwrite => ?low, configured_of_enable_rises hi hrst h⟩
  case low =>
    rcases hwrite with hh | hh
    · exact enable_low_of_hist hi hrst h (.inl rfl) hh
    · exact enable_low_of_hist hi hrst h (.inr rfl) hh

end Sys2Proof.Machine
end

section
/-! SUPPORT. The encoder of the host port and that it undoes and is undone by the decoder (R70, R71, R81); the
result word by fields (R82); the register addresses (R52). -/

namespace Sys2Proof

/-! ### The header of a command (R81) -/

theorem Instr.WellFormed.payload_length_le {i : Instr} (h : i.WellFormed) : i.payload.length ≤ 65535 := by
  cases i with
  | init => simp [Instr.payload]
  | write buf => exact h
  | sendCommand c => exact h
  | sendData d => exact h
  | initDisplay => simp [Instr.payload]
  | clearDisplay => simp [Instr.payload]
  | displayText t => exact h

theorem wellFormed_of_payload_length_le {i : Instr} (h : i.payload.length ≤ 65535) : i.WellFormed := by
  cases i with
  | init => trivial
  | write buf => exact h
  | sendCommand c => exact h
  | sendData d => exact h
  | initDisplay => trivial
  | clearDisplay => trivial
  | displayText t => exact h

theorem codeAndPayload (i : Instr) : Laws.CodeAndPayload.Statement i := by
  cases i with
  | init => exact Laws.CodeAndPayload.init
  | write buf => exact Laws.CodeAndPayload.write buf
  | sendCommand c => exact Laws.CodeAndPayload.sendCommand c
  | sendData d => exact Laws.CodeAndPayload.sendData d
  | initDisplay => exact Laws.CodeAndPayload.initDisplay
  | clearDisplay => exact Laws.CodeAndPayload.clearDisplay
  | displayText t => exact Laws.CodeAndPayload.displayText t

/-- The code lies below the length, so the header is their sum. -/
theorem toNat_encodeHeader (op : Op) {len : Nat} (h : len ≤ 65535) :
    (encodeHeader op len).toNat = len * 65536 + op.code.toNat := by
  have hcode := op.code.isLt
  have hshift : len <<< 16 % 2 ^ 32 = 2 ^ 16 * len := by
    rw [Nat.shiftLeft_eq]
    omega
  have hlen : len % 2 ^ 32 = len := by omega
  have hwidth : op.code.toNat % 2 ^ 32 = op.code.toNat := by omega
  calc (encodeHeader op len).toNat
      = 2 ^ 16 * len ||| op.code.toNat := by
        rw [encodeHeader, BitVec.toNat_or, BitVec.toNat_shiftLeft, BitVec.toNat_ofNat,
          BitVec.toNat_setWidth, hlen, hshift, hwidth]
    _ = 2 ^ 16 * len + op.code.toNat := (Nat.two_pow_add_eq_or_of_lt (by omega) len).symm
    _ = len * 65536 + op.code.toNat := by omega

theorem headerOp_encodeHeader (op : Op) {len : Nat} (h : len ≤ 65535) :
    headerOp (encodeHeader op len) = op.code := by
  have hcode := op.code.isLt
  apply BitVec.eq_of_toNat_eq
  rw [toNat_headerOp, toNat_encodeHeader op h]
  omega

theorem headerRsv_encodeHeader (op : Op) {len : Nat} (h : len ≤ 65535) :
    headerRsv (encodeHeader op len) = 0 := by
  have hcode := op.code.isLt
  apply BitVec.eq_of_toNat_eq
  rw [toNat_headerRsv, toNat_encodeHeader op h]
  simp only [BitVec.ofNat_eq_ofNat, BitVec.toNat_ofNat]
  omega

theorem toNat_headerLen_encodeHeader (op : Op) {len : Nat} (h : len ≤ 65535) :
    (headerLen (encodeHeader op len)).toNat = len := by
  have hcode := op.code.isLt
  rw [toNat_headerLen, toNat_encodeHeader op h]
  omega

/-- A header is assembled from its fields in one way: the three fields determine it. -/
theorem eq_of_header_fields {h h' : Word} (hop : headerOp h = headerOp h')
    (hrsv : headerRsv h = headerRsv h') (hlen : headerLen h = headerLen h') : h = h' := by
  rw [← BitVec.toNat_inj, toNat_headerOp, toNat_headerOp] at hop
  rw [← BitVec.toNat_inj, toNat_headerRsv, toNat_headerRsv] at hrsv
  rw [← BitVec.toNat_inj, toNat_headerLen, toNat_headerLen] at hlen
  apply BitVec.eq_of_toNat_eq
  omega

/-- The header of a well-formed command is legal for its operation and announces its payload. -/
theorem decodeHeader_encode {i : Instr} (h : i.WellFormed) :
    decodeHeader (encode i).header = .ok (i.op, i.payload.length) := by
  have hlen := toNat_headerLen_encodeHeader i.op h.payload_length_le
  obtain ⟨-, -, hnone⟩ := codeAndPayload i
  refine decodeHeader_eq_ok_iff.2 ⟨⟨headerOp_encodeHeader i.op h.payload_length_le,
    headerRsv_encodeHeader i.op h.payload_length_le, fun htakes => ?_⟩, hlen.symm⟩
  exact BitVec.eq_of_toNat_eq (hlen.trans (hnone htakes))

/-- Settles O1: the header of the encoding decodes to the operation and the payload's length, and as many
beats stand behind it. -/
theorem decodeOfEncodeIsTheCommand : Obligations.DecodeOfEncodeIsTheCommand := by
  intro i h
  obtain ⟨-, hback, -⟩ := codeAndPayload i
  calc decode (encode i)
      = .ok (i.op.instr (i.payload.take i.payload.length)) :=
        decode_of_decodeHeader (decodeHeader_encode h) (Nat.le_refl _)
    _ = .ok i := by rw [List.take_length, hback]

/-- Settles O5: the fields follow from the header's value as a number. -/
theorem encodedHeaderIsLengthAndCode : Obligations.EncodedHeaderIsLengthAndCode := by
  intro i h
  have hlen := h.payload_length_le
  have hcode := i.op.code.isLt
  refine ⟨BitVec.eq_of_toNat_eq ?_, headerOp_encodeHeader i.op hlen, headerRsv_encodeHeader i.op hlen,
    toNat_headerLen_encodeHeader i.op hlen⟩
  have hvalue : (encode i).header.toNat = i.payload.length * 65536 + i.op.code.toNat :=
    toNat_encodeHeader i.op hlen
  rw [hvalue, BitVec.toNat_ofNat]
  omega

/-- What a decoded offer is: a legal header with at least LEN beats behind it. -/
theorem decode_eq_ok_iff {o : Offer} {i : Instr} :
    decode o = .ok i ↔ ∃ op len, decodeHeader o.header = .ok (op, len) ∧ len ≤ o.payload.length ∧
      i = op.instr (o.payload.take len) := by
  constructor
  · intro h
    rw [decode] at h
    split at h
    next => cases h
    next op len hok =>
      split_ifs at h with hbeats
      cases h
      exact ⟨op, len, hok, (hasBeats_iff _ _).1 hbeats, rfl⟩
  · rintro ⟨op, len, hok, hbeats, rfl⟩
    exact decode_of_decodeHeader hok hbeats

theorem Op.op_instr (op : Op) (b : List Byte) : (op.instr b).op = op := by
  cases op <;> rfl

/-- The payload of a command built from bytes is the bytes, or none where the header announces none. -/
theorem Op.payload_instr (op : Op) {b : List Byte} (h : op.takesPayload = false → b = []) :
    (op.instr b).payload = b := by
  cases op with
  | init => exact (h rfl).symm
  | initDisplay => exact (h rfl).symm
  | clearDisplay => exact (h rfl).symm
  | write => rfl
  | sendCommand => rfl
  | sendData => rfl
  | displayText => rfl

/-- Settles O2: the command's operation and payload give back the three fields of the header offered. -/
theorem encodeOfDecodeIsTheOffer : Obligations.EncodeOfDecodeIsTheOffer := by
  intro o i h
  obtain ⟨op, len, hok, hbeats, rfl⟩ := decode_eq_ok_iff.1 h
  obtain ⟨⟨hcode, hrsv, hnone⟩, rfl⟩ := decodeHeader_eq_ok_iff.1 hok
  have hop := op.op_instr (o.payload.take (headerLen o.header).toNat)
  have hpayload : (op.instr (o.payload.take (headerLen o.header).toNat)).payload =
      o.payload.take (headerLen o.header).toNat :=
    op.payload_instr fun htakes => by simp [hnone htakes]
  have hlength : (op.instr (o.payload.take (headerLen o.header).toNat)).payload.length =
      (headerLen o.header).toNat := by
    rw [hpayload, List.length_take, Nat.min_eq_left hbeats]
  have hle : (headerLen o.header).toNat ≤ 65535 := Nat.le_of_lt_succ (headerLen o.header).isLt
  refine ⟨wellFormed_of_payload_length_le (hlength.trans_le hle), ?_, hpayload⟩
  rw [encode, hop, hlength]
  exact eq_of_header_fields ((headerOp_encodeHeader op hle).trans hcode.symm)
    ((headerRsv_encodeHeader op hle).trans hrsv.symm)
    (BitVec.eq_of_toNat_eq (toNat_headerLen_encodeHeader op hle))

/-- Settles O4: each header is evaluated by the decoder. -/
theorem writtenOutHeadersDecode : Obligations.WrittenOutHeadersDecode := by
  refine ⟨?_, ?_, ?_, ?_, ?_, ?_, ?_, ?_, ?_, ?_⟩ <;> rfl

namespace Machine

/-! ### The result word (R82) -/

/-- The five fields do not overlap, so the result word is their sum. -/
theorem toNat_resultWord (r : Result) :
    r.word.toNat = 65536 * r.idx.toNat + 16 * r.call.toNat + 8 * r.illegal.toNat +
      2 * r.cause.code.toNat + r.fail.toNat := by
  have hidx := r.idx.isLt
  have hcall := r.call.isLt
  have hcause := r.cause.code.isLt
  have hillegal := r.illegal.toNat_le
  have hfail := r.fail.toNat_le
  have hvalue : r.word.toNat = 2 ^ 16 * r.idx.toNat ||| 2 ^ 4 * r.call.toNat ||| 2 ^ 3 * r.illegal.toNat |||
      2 ^ 1 * r.cause.code.toNat ||| r.fail.toNat := by
    simp only [Result.word, BitVec.toNat_or, BitVec.toNat_shiftLeft, BitVec.toNat_setWidth,
      BitVec.toNat_ofBool, Nat.shiftLeft_eq]
    congr <;> omega
  have h₁ := Nat.two_pow_add_eq_or_of_lt (i := 16) (b := 2 ^ 4 * r.call.toNat) (by omega) r.idx.toNat
  have h₂ := Nat.two_pow_add_eq_or_of_lt (i := 4) (b := 2 ^ 3 * r.illegal.toNat) (by omega)
    (4096 * r.idx.toNat + r.call.toNat)
  have h₃ := Nat.two_pow_add_eq_or_of_lt (i := 3) (b := 2 ^ 1 * r.cause.code.toNat) (by omega)
    (8192 * r.idx.toNat + 2 * r.call.toNat + r.illegal.toNat)
  have h₄ := Nat.two_pow_add_eq_or_of_lt (i := 1) (b := r.fail.toNat) (by omega)
    (32768 * r.idx.toNat + 8 * r.call.toNat + 4 * r.illegal.toNat + r.cause.code.toNat)
  rw [hvalue, ← h₁, show 2 ^ 16 * r.idx.toNat + 2 ^ 4 * r.call.toNat =
      2 ^ 4 * (4096 * r.idx.toNat + r.call.toNat) by omega, ← h₂,
    show 2 ^ 4 * (4096 * r.idx.toNat + r.call.toNat) + 2 ^ 3 * r.illegal.toNat =
      2 ^ 3 * (8192 * r.idx.toNat + 2 * r.call.toNat + r.illegal.toNat) by omega, ← h₃,
    show 2 ^ 3 * (8192 * r.idx.toNat + 2 * r.call.toNat + r.illegal.toNat) + 2 ^ 1 * r.cause.code.toNat =
      2 ^ 1 * (32768 * r.idx.toNat + 8 * r.call.toNat + 4 * r.illegal.toNat + r.cause.code.toNat) by omega,
    ← h₄]
  omega

/-- Settles O7, field by field from the value of the word. -/
theorem resultWordFields : Obligations.ResultWordFields := by
  intro r
  have hvalue := toNat_resultWord r
  have hidx := r.idx.isLt
  have hcall := r.call.isLt
  have hcause := r.cause.code.isLt
  have hillegal := r.illegal.toNat_le
  have hfail := r.fail.toNat_le
  have hbit : ∀ (k : Nat) (b : Bool), r.word.toNat / 2 ^ k % 2 = b.toNat → r.word.getLsbD k = b := by
    intro k b h
    rw [BitVec.getLsbD, Nat.testBit_eq_decide_div_mod_eq, h]
    cases b <;> rfl
  have hfield : ∀ (start len : Nat) (x : BitVec len), r.word.toNat / 2 ^ start % 2 ^ len = x.toNat →
      r.word.extractLsb' start len = x := by
    intro start len x h
    apply BitVec.eq_of_toNat_eq
    rw [BitVec.extractLsb'_toNat, Nat.shiftRight_eq_div_pow, h]
  have hcode : (match r.cause with | .none => 0 | .fifoTimeout => 1 | .txAborted => 2) = r.cause.code := by
    cases r.cause <;> rfl
  refine ⟨hbit 0 _ (by omega), (hfield 1 2 r.cause.code (by omega)).trans hcode.symm, hbit 3 _ (by omega),
    hfield 4 3 _ (by omega), hfield 7 9 0 ?_, hfield 16 16 _ (by omega)⟩
  simp only [BitVec.ofNat_eq_ofNat, BitVec.toNat_ofNat]
  omega

/-! ### Register addresses (R21, R52) -/

theorem Reg.offset_injective : Function.Injective Reg.offset := by
  intro r r' h
  cases r <;> cases r' <;> simp [Reg.offset] at h ⊢

theorem Reg.four_dvd_offset (r : Reg) : 4 ∣ r.offset := by
  cases r <;> decide

/-- Settles O8: BASE and the offsets are multiples of 4, and the offsets are distinct. -/
theorem registerAddressesAreAligned : Obligations.RegisterAddressesAreAligned := by
  intro p r r'
  have hbase : 4 ∣ p.base := Nat.dvd_mul_right 4 p.baseQuad
  exact ⟨Nat.dvd_add hbase r.four_dvd_offset,
    fun h => Reg.offset_injective (Nat.add_left_cancel h)⟩

end Machine

end Sys2Proof
end

section
/-! SUPPORT. Every row of the transition table as a case of one relation (R111): the phases of INIT, and the
phases of a write call at a present controller. -/

namespace Sys2Proof.Machine

/-! ### Ending a call -/

@[simp] theorem endCall_par (s : State) : (endCall s).par = s.par := startCall_par _ _
@[simp] theorem endCall_regs (s : State) : (endCall s).regs = s.regs := startCall_regs _ _
@[simp] theorem endCall_res (s : State) : (endCall s).res = s.res := startCall_res _ _
@[simp] theorem endCall_env (s : State) : (endCall s).env = s.env := startCall_env _ _
@[simp] theorem endCall_op (s : State) : (endCall s).op = s.op := startCall_op _ _
@[simp] theorem endCall_host (s : State) : (endCall s).host = s.host := startCall_host _ _
@[simp] theorem endCall_rst (s : State) : (endCall s).rst = s.rst := startCall_rst _ _
@[simp] theorem endCall_past (s : State) : (endCall s).past = s.past := startCall_past _ _

/-- The `Done` of a command that has come to its end, and nothing while it runs. -/
def State.doneEvents (s : State) : List Event := if s.phase = .idle then [.done s.res.word] else []

/-- Starting the calls to come adds the `Done`, if none of them has a byte, and nothing else. -/
theorem startCall_hist (calls : List (List Byte)) (s : State) :
    (startCall calls s).hist = s.hist ++ (startCall calls s).doneEvents := by
  rcases startCall_cases calls s with ⟨hp, -, hh, -⟩ | ⟨hp, hh, -⟩
  · rw [hh, State.doneEvents, if_pos hp, startCall_res]
  · rw [hh, State.doneEvents, if_neg (by simp [hp]), List.append_nil]

theorem endCall_hist (s : State) : (endCall s).hist = s.hist ++ (endCall s).doneEvents := startCall_hist _ _

/-- A call given up adds its `Diag`, and `Done` if no call with a byte is to come. -/
theorem endCall_recordAbort_hist (s : State) :
    (endCall (recordAbort s)).hist =
      s.hist ++ ([.diag s.callNo s.idx s.cause] ++ (endCall (recordAbort s)).doneEvents) := by
  rw [endCall_hist, recordAbort_hist, List.append_assoc]

/-- The ghost display state moves at the end of the command (R136). -/
def State.dispAfter (s : State) (d : Disp) : Disp :=
  if s.phase = .idle then Disp.after s.op s.res.fail d else d

theorem startCall_disp (calls : List (List Byte)) (s : State) :
    (startCall calls s).disp = (startCall calls s).dispAfter s.disp := by
  rcases startCall_cases calls s with ⟨hp, -, -, hd, -⟩ | ⟨hp, -, hd, -⟩
  · rw [hd, State.dispAfter, if_pos hp, startCall_op, startCall_res]
  · rw [hd, State.dispAfter, if_neg (by simp [hp])]

theorem endCall_disp (s : State) : (endCall s).disp = (endCall s).dispAfter s.disp := startCall_disp _ _

/-! ### The rows of INIT -/

/-- One row I1 to I5 of R111 at a present controller. -/
inductive InitStep (s : State) : State → Prop
  | i1 (hp : s.phase = .i1) : InitStep s
      { s with
        regs  := s.regs.write s.par.funcselI2c .funcsel
        env   := s.envTurn.env
        hist  := s.hist ++ [.wr .funcsel s.par.funcselI2c]
        phase := .i2 }
  | i2 (hp : s.phase = .i2) : InitStep s
      { s with
        regs  := s.regs.write 0x00000000 .enable
        env   := s.envTurn.env
        hist  := s.hist ++ [.wr .enable 0x00000000]
        phase := .i3 }
  | i3 (hp : s.phase = .i3) : InitStep s
      { s with
        regs  := s.regs.write s.par.ctrlInit .ctrl
        env   := s.envTurn.env
        hist  := s.hist ++ [.wr .ctrl s.par.ctrlInit]
        phase := .i4 }
  | i4 (hp : s.phase = .i4) : InitStep s
      { s with
        regs  := s.regs.write 0x0000003C .tar
        env   := s.envTurn.env
        hist  := s.hist ++ [.wr .tar 0x0000003C]
        phase := .i5 }
  | i5 (hp : s.phase = .i5) : InitStep s
      { s with
        regs  := s.regs.write 0x00000001 .enable
        env   := s.envTurn.env
        hist  := s.hist ++ [.wr .enable 0x00000001] ++ [.done 0x00000000]
        phase := .idle }

/-! ### The rows of a write call -/

/-- One row W_BUILD to W_CHECK of R111 at a present controller; the Bool says whether the step consumes a
retry (R9, R104, R107). -/
inductive WriteStep : Bool → State → State → Prop
  | build {s : State} {b : Byte} (hp : s.phase = .wBuild) (hb : s.buf[s.idx.toNat]? = some b) :
      WriteStep false s
        { s with word := fifoWord b (s.idx + 1 == s.n), pollCnt := Config.pollInit, phase := .wPoll }
  | pollFree {s : State} {v : Word} {e : Env} (hp : s.phase = .wPoll)
      (he : s.envTurn.env.readStatus s.par.fifoDepth = (v, e)) (hv : tfnf v = true) :
      WriteStep false s { s with env := e, hist := s.hist ++ [.rd .status v], phase := .wIssue }
  | pollFull {s : State} {v : Word} {e : Env} (hp : s.phase = .wPoll)
      (he : s.envTurn.env.readStatus s.par.fifoDepth = (v, e)) (hv : tfnf v = false) (hc : s.pollCnt ≠ 1) :
      WriteStep false s { s with env := e, hist := s.hist ++ [.rd .status v], pollCnt := s.pollCnt - 1 }
  | pollTimeout {s : State} {v : Word} {e : Env} (hp : s.phase = .wPoll)
      (he : s.envTurn.env.readStatus s.par.fifoDepth = (v, e)) (hv : tfnf v = false) (hc : s.pollCnt = 1) :
      WriteStep true s { s with
        env := e, hist := s.hist ++ [.rd .status v]
        pollCnt := 0, retries := s.retries - 1, cause := .fifoTimeout, phase := .wIssue }
  | issue {s : State} (hp : s.phase = .wIssue) :
      WriteStep false s { s with
        env := s.envTurn.env.offer s.par.fifoDepth s.word
        hist := s.hist ++ [.wr .dataCmd s.word], phase := .wPace }
  | pace {s : State} (hp : s.phase = .wPace) :
      WriteStep false s { s with
        env := s.envTurn.env, hist := s.hist ++ [.delay s.par.paceN], phase := .wCheck }
  | abortGiveUp {s : State} {v : Word} {e : Env} (hp : s.phase = .wCheck)
      (he : s.envTurn.env.readRaw = (v, e)) (hv : abrt v = true) (hr : satdec s.retries = 0) :
      WriteStep true s (endCall (recordAbort { s with
        env := e, hist := s.hist ++ [.rd .rawIntrStat v], retries := 0, cause := .txAborted }))
  | abortRepeat {s : State} {v : Word} {e : Env} (hp : s.phase = .wCheck)
      (he : s.envTurn.env.readRaw = (v, e)) (hv : abrt v = true) (hr : satdec s.retries ≠ 0) :
      WriteStep true s { s with
        env := e, hist := s.hist ++ [.rd .rawIntrStat v]
        retries := satdec s.retries, cause := .txAborted, phase := .wBuild }
  | zeroGiveUp {s : State} {v : Word} {e : Env} (hp : s.phase = .wCheck)
      (he : s.envTurn.env.readRaw = (v, e)) (hv : abrt v = false) (hr : s.retries = 0)
      (hz : s.par.zeroPolicy = .abort) :
      WriteStep false s (endCall (recordAbort { s with env := e, hist := s.hist ++ [.rd .rawIntrStat v] }))
  | nextByte {s : State} {v : Word} {e : Env} (hp : s.phase = .wCheck)
      (he : s.envTurn.env.readRaw = (v, e)) (hv : abrt v = false)
      (hr : s.retries ≠ 0 ∨ s.par.zeroPolicy = .proceed) (hi : s.idx + 1 ≠ s.n) :
      WriteStep false s { s with
        env := e, hist := s.hist ++ [.rd .rawIntrStat v]
        idx := s.idx + 1, retries := Config.retryInit, cause := .none, phase := .wBuild }
  | lastByte {s : State} {v : Word} {e : Env} (hp : s.phase = .wCheck)
      (he : s.envTurn.env.readRaw = (v, e)) (hv : abrt v = false)
      (hr : s.retries ≠ 0 ∨ s.par.zeroPolicy = .proceed) (hi : s.idx + 1 = s.n) :
      WriteStep false s (endCall { s with env := e, hist := s.hist ++ [.rd .rawIntrStat v] })

theorem givesUp_eq_true_iff (aborted : Bool) (s : State) :
    givesUp aborted s = true ↔ s.retries = 0 ∧ (aborted = true ∨ s.par.zeroPolicy = .abort) := by
  simp [givesUp]

theorem givesUp_false_eq_false_iff (s : State) :
    givesUp false s = false ↔ s.retries ≠ 0 ∨ s.par.zeroPolicy = .proceed := by
  rw [← Bool.not_eq_true, givesUp_eq_true_iff]
  cases s.par.zeroPolicy <;> simp

/-- The read of STATUS is one of the three rows W_POLL (R104). -/
theorem writeStep_pollStep {s t : State} (hp : s.phase = .wPoll) (he : s.env ≠ .absent)
    (h : pollStep s = .next t) : ∃ charged, WriteStep charged s t := by
  rw [pollStep_present he] at h
  cases h
  rcases pollResult_cases (s.envTurn.env.readStatus s.par.fifoDepth).1 { s with
      env  := (s.envTurn.env.readStatus s.par.fifoDepth).2
      hist := s.hist ++ [.rd .status (s.envTurn.env.readStatus s.par.fifoDepth).1] } with
    ⟨hv, h⟩ | ⟨hv, hc, h⟩ | ⟨hv, hc, h⟩ <;> rw [h]
  · exact ⟨false, .pollFree hp rfl hv⟩
  · exact ⟨true, .pollTimeout hp rfl hv hc⟩
  · exact ⟨false, .pollFull hp rfl hv hc⟩

/-- The read of RAW_INTR_STAT is one of the five rows W_CHECK (R107, R108). -/
theorem writeStep_checkStep {s t : State} (hp : s.phase = .wCheck) (he : s.env ≠ .absent)
    (h : checkStep s = .next t) : ∃ charged, WriteStep charged s t := by
  rw [checkStep_present he, checkResult] at h
  cases h
  cases hv : abrt s.envTurn.env.readRaw.1 with
  | true =>
    simp only [chargeAbort, if_true]
    rcases settle_cases true { s with
        env := s.envTurn.env.readRaw.2
        hist := s.hist ++ [.rd .rawIntrStat s.envTurn.env.readRaw.1]
        retries := satdec s.retries, cause := .txAborted } with
      ⟨hg, h⟩ | ⟨hg, -, h⟩ | ⟨-, ha, -⟩ | ⟨-, ha, -⟩
    · obtain ⟨hr, -⟩ := (givesUp_eq_true_iff _ _).1 hg
      rw [h, show satdec s.retries = 0 from hr]
      exact ⟨true, .abortGiveUp hp rfl hv hr⟩
    · rw [h]
      exact ⟨true, .abortRepeat hp rfl hv fun hr =>
        Bool.eq_false_iff.1 hg ((givesUp_eq_true_iff _ _).2 ⟨hr, .inl rfl⟩)⟩
    · cases ha
    · cases ha
  | false =>
    simp only [chargeAbort, Bool.false_eq_true, if_false]
    rcases settle_cases false { s with
        env := s.envTurn.env.readRaw.2
        hist := s.hist ++ [.rd .rawIntrStat s.envTurn.env.readRaw.1] } with
      ⟨hg, h⟩ | ⟨-, ha, -⟩ | ⟨hg, -, hi, h⟩ | ⟨hg, -, hi, h⟩
    · obtain ⟨hr, hz⟩ := (givesUp_eq_true_iff _ _).1 hg
      rw [h]
      exact ⟨false, .zeroGiveUp hp rfl hv hr (hz.resolve_left nofun)⟩
    · cases ha
    · rw [h]
      exact ⟨false, .lastByte hp rfl hv ((givesUp_false_eq_false_iff _).1 hg) hi⟩
    · rw [h]
      exact ⟨false, .nextByte hp rfl hv ((givesUp_false_eq_false_iff _).1 hg) hi⟩

/-- What a step that answers a next state is: a reset, the row IDLE, a Fault at an absent controller, the row
FAULT, a row of INIT, or a row of a write call. -/
theorem step_rows {s t : State} (h : step s = .next t) :
    (s.rst = true ∧ t = applyReset s) ∨
    (s.rst = false ∧ s.phase = .idle ∧ idleStep s = .next t) ∨
    (s.rst = false ∧ s.phase.accesses = true ∧ s.env = .absent ∧ t = s.raiseFault) ∨
    (s.rst = false ∧ s.phase = .fault ∧ t = s) ∨
    (s.rst = false ∧ InitStep s t) ∨
    (s.rst = false ∧ ∃ charged, WriteStep charged s t) := by
  rcases step_cases h with hreset | hidle | habsent | hfault | ⟨hr, hp, b, hb, rfl⟩ | ⟨hr, hp, rfl⟩ |
    ⟨hr, he, haccess⟩
  · exact .inl hreset
  · exact .inr (.inl hidle)
  · exact .inr (.inr (.inl habsent))
  · exact .inr (.inr (.inr (.inl hfault)))
  · exact .inr (.inr (.inr (.inr (.inr ⟨hr, false, .build hp hb⟩))))
  · exact .inr (.inr (.inr (.inr (.inr ⟨hr, false, .pace hp⟩))))
  · suffices hrow : InitStep s t ∨ ∃ charged, WriteStep charged s t by
      exact .inr (.inr (.inr (.inr (hrow.imp (.intro hr) (.intro hr)))))
    rcases haccess with ⟨hp, h⟩ | ⟨hp, h⟩ | ⟨hp, h⟩ | ⟨hp, h⟩ | ⟨hp, h⟩ | ⟨hp, h⟩ | ⟨hp, h⟩ | ⟨hp, h⟩
    · rw [initStep_present _ _ _ he (by simp)] at h
      cases h
      exact .inl (.i1 hp)
    · rw [initStep_present _ _ _ he (by simp)] at h
      cases h
      exact .inl (.i2 hp)
    · rw [initStep_present _ _ _ he (by simp)] at h
      cases h
      exact .inl (.i3 hp)
    · rw [initStep_present _ _ _ he (by simp)] at h
      cases h
      exact .inl (.i4 hp)
    · rw [initLast_present he] at h
      cases h
      exact .inl (.i5 hp)
    · exact .inr (writeStep_pollStep hp he h)
    · rw [issueStep_present he] at h
      cases h
      exact .inr ⟨false, .issue hp⟩
    · exact .inr (writeStep_checkStep hp he h)

/-! ### What a row leaves alone -/

/-- What a row of INIT leaves alone. -/
theorem InitStep.frame {s t : State} (h : InitStep s t) :
    t.par = s.par ∧ t.res = s.res ∧ t.op = s.op ∧ t.host = s.host ∧ t.rst = s.rst ∧ t.past = s.past ∧
      t.disp = s.disp ∧ t.env = s.envTurn.env := by
  cases h <;> exact ⟨rfl, rfl, rfl, rfl, rfl, rfl, rfl, rfl⟩

/-- What a row of a write call leaves alone. -/
theorem WriteStep.frame {c : Bool} {s t : State} (h : WriteStep c s t) :
    t.par = s.par ∧ t.regs = s.regs ∧ t.op = s.op ∧ t.host = s.host ∧ t.rst = s.rst ∧ t.past = s.past := by
  cases h with
  | abortGiveUp | zeroGiveUp | lastByte => simp
  | _ => exact ⟨rfl, rfl, rfl, rfl, rfl, rfl⟩

theorem readStatus_snd_ne_absent {s : State} {v : Word} {e : Env} (h : s.env ≠ .absent)
    (he : s.envTurn.env.readStatus s.par.fifoDepth = (v, e)) : e ≠ .absent := by
  have := Env.readStatus_ne_absent s.par.fifoDepth (Env.turn_ne_absent h s.regs.enabled)
  rw [envTurn_env] at he
  simpa [he] using this

theorem readRaw_snd_ne_absent {s : State} {v : Word} {e : Env} (h : s.env ≠ .absent)
    (he : s.envTurn.env.readRaw = (v, e)) : e ≠ .absent := by
  rw [envTurn_env] at he
  have := Env.readRaw_ne_absent (Env.turn_ne_absent h s.regs.enabled)
  simpa [he] using this

/-- A row of a write call does not remove the controller. -/
theorem WriteStep.env_ne_absent {c : Bool} {s t : State} (h : WriteStep c s t) (hs : s.env ≠ .absent) :
    t.env ≠ .absent := by
  cases h with
  | build => exact hs
  | pollFree _ he | pollFull _ he | pollTimeout _ he => exact readStatus_snd_ne_absent hs he
  | issue => exact mt (Env.offer_eq_absent _ _ _).1 (Env.turn_ne_absent hs _)
  | pace => exact Env.turn_ne_absent hs _
  | abortRepeat _ he | nextByte _ he => exact readRaw_snd_ne_absent hs he
  | abortGiveUp _ he | zeroGiveUp _ he | lastByte _ he => simpa using readRaw_snd_ne_absent hs he

/-- The phases of a write call (R31). -/
def Phase.writes : Phase → Bool
  | .wBuild | .wPoll | .wIssue | .wPace | .wCheck => true
  | .idle | .i1 | .i2 | .i3 | .i4 | .i5 | .fault => false

theorem WriteStep.writes {c : Bool} {s t : State} (h : WriteStep c s t) : s.phase.writes = true := by
  cases h with
  | build hp | pollFree hp | pollFull hp | pollTimeout hp | issue hp | pace hp => rw [hp]; rfl
  | abortGiveUp hp | abortRepeat hp | zeroGiveUp hp | nextByte hp | lastByte hp => rw [hp]; rfl

theorem Phase.ne_idle_of_writes {p : Phase} (h : p.writes = true) : p ≠ .idle := by
  rintro rfl
  cases h

/-- A step in a phase of a write call at a present controller is a row of it. -/
theorem writeStep_of_step {s t : State} (hr : s.rst = false) (he : s.env ≠ .absent)
    (hw : s.phase.writes = true) (h : step s = .next t) : ∃ charged, WriteStep charged s t := by
  rcases step_rows h with ⟨hrst, -⟩ | ⟨-, hp, -⟩ | ⟨-, -, ha, -⟩ | ⟨-, hp, -⟩ | ⟨-, hi⟩ | ⟨-, hwrite⟩
  · exact absurd (hrst.symm.trans hr) (by decide)
  · exact absurd hp (Phase.ne_idle_of_writes hw)
  · exact absurd ha he
  · rw [hp] at hw
    cases hw
  · cases hi with
    | i1 hp | i2 hp | i3 hp | i4 hp | i5 hp =>
      rw [hp] at hw
      cases hw
  · exact hwrite

end Sys2Proof.Machine
end

section
/-! SUPPORT. What a step adds to the history and what it leaves alone, row by row; and the invariant of the
machine, which every row keeps (R30, R31, R32, R93, R101, R112 a). -/

namespace Sys2Proof.Machine

/-! ### The history -/

theorem newEvents_of_hist {s t : State} {es : List Event} (h : t.hist = s.hist ++ es) :
    newEvents s t = es := by
  rw [newEvents, h, List.drop_left]

/-- The access or the delay of each phase of a write call; W_BUILD makes none. -/
inductive WriteAccess (s : State) : Option Event → Prop
  | build (hp : s.phase = .wBuild) : WriteAccess s none
  | status (hp : s.phase = .wPoll) (v : Word) : WriteAccess s (some (.rd .status v))
  | word (hp : s.phase = .wIssue) : WriteAccess s (some (.wr .dataCmd s.word))
  | pace (hp : s.phase = .wPace) : WriteAccess s (some (.delay s.par.paceN))
  | raw (hp : s.phase = .wCheck) (v : Word) : WriteAccess s (some (.rd .rawIntrStat v))

/-- What a row reports before the command's `Done`: nothing, with the result fields as they were, or the `Diag`
of a call given up, whose cause is the abort just charged or that of the last retry (R102 label S6, R153). -/
inductive WriteReport (c : Bool) (s t : State) : List Event → Prop
  | none (hres : t.res = s.res) : WriteReport c s t []
  | gaveUp {cause : Cause} (hres : t.res = s.res.recordAbort cause s.callNo s.idx)
      (hwhy : (cause = .txAborted ∧ c = true) ∨ (cause = s.cause ∧ s.retries = 0)) :
      WriteReport c s t [.diag s.callNo s.idx cause]

theorem WriteReport.isDiag {c : Bool} {s t : State} {diags : List Event} (h : WriteReport c s t diags) :
    ∀ e ∈ diags, e.isDiag = true := by
  cases h with
  | none => nofun
  | gaveUp => exact fun e he => List.mem_singleton.1 he ▸ rfl

/-- A row of a write call adds the access or delay of its phase, then the report of a call given up, then the
`Done` if the command is at its end. -/
theorem WriteStep.hist_append {c : Bool} {s t : State} (h : WriteStep c s t) :
    ∃ (access : Option Event) (diags : List Event),
      t.hist = s.hist ++ (access.toList ++ (diags ++ t.doneEvents)) ∧ WriteAccess s access ∧
        WriteReport c s t diags := by
  have still {e : Option Event} (hp : t.phase ≠ .idle) (hh : t.hist = s.hist ++ e.toList) :
      t.hist = s.hist ++ (e.toList ++ ([] ++ t.doneEvents)) := by
    rw [hh, State.doneEvents, if_neg hp, List.append_nil, List.append_nil]
  cases h with
  | build hp => exact ⟨none, [], still nofun (List.append_nil _).symm, .build hp, .none rfl⟩
  | pollFree hp => exact ⟨_, [], still nofun rfl, .status hp _, .none rfl⟩
  | pollFull hp => exact ⟨_, [], still (by simp [hp]) rfl, .status hp _, .none rfl⟩
  | pollTimeout hp => exact ⟨_, [], still nofun rfl, .status hp _, .none rfl⟩
  | issue hp => exact ⟨_, [], still nofun rfl, .word hp, .none rfl⟩
  | pace hp => exact ⟨_, [], still nofun rfl, .pace hp, .none rfl⟩
  | abortRepeat hp => exact ⟨_, [], still nofun rfl, .raw hp _, .none rfl⟩
  | nextByte hp => exact ⟨_, [], still nofun rfl, .raw hp _, .none rfl⟩
  | abortGiveUp hp =>
    exact ⟨_, _, (endCall_recordAbort_hist _).trans (List.append_assoc _ _ _), .raw hp _,
      .gaveUp (endCall_res _) (.inl ⟨rfl, rfl⟩)⟩
  | zeroGiveUp hp _ _ hr =>
    exact ⟨_, _, (endCall_recordAbort_hist _).trans (List.append_assoc _ _ _), .raw hp _,
      .gaveUp (endCall_res _) (.inr ⟨rfl, hr⟩)⟩
  | lastByte hp =>
    exact ⟨_, [], (endCall_hist _).trans (List.append_assoc _ _ _), .raw hp _, .none (endCall_res _)⟩

/-- The ghost display state moves at the end of the command alone (R136). -/
theorem WriteStep.disp {c : Bool} {s t : State} (h : WriteStep c s t) : t.disp = t.dispAfter s.disp := by
  have still (hp : t.phase ≠ .idle) (hd : t.disp = s.disp) : t.disp = t.dispAfter s.disp := by
    rw [hd, State.dispAfter, if_neg hp]
  cases h with
  | build | pollFree | pollTimeout | issue | pace | abortRepeat | nextByte => exact still nofun rfl
  | pollFull hp => exact still (by simp [hp]) rfl
  | abortGiveUp | zeroGiveUp | lastByte => exact endCall_disp _

theorem mem_doneEvents {s : State} {e : Event} (h : e ∈ s.doneEvents) : e = .done s.res.word := by
  unfold State.doneEvents at h
  split_ifs at h
  · exact List.mem_singleton.1 h
  · cases h

theorem WriteAccess.isConfiguration {s : State} {access : Option Event} (h : WriteAccess s access) :
    ∀ e ∈ access, e.isConfiguration = false := by
  cases h with
  | build => nofun
  | status | word | pace | raw =>
    rintro e ⟨⟩
    rfl

theorem Event.isConfiguration_of_isDiag {e : Event} (h : e.isDiag = true) : e.isConfiguration = false := by
  cases e with
  | diag => rfl
  | _ => cases h

theorem WriteStep.keepsStorage {c : Bool} {s t : State} (h : WriteStep c s t) : s.KeepsStorage t := by
  obtain ⟨-, hregs, -⟩ := h.frame
  obtain ⟨access, diags, hh, haccess, hdiags⟩ := h.hist_append
  refine ⟨hregs, _, hh, fun e he => ?_⟩
  simp only [List.mem_append, Option.mem_toList] at he
  rcases he with he | he | he
  · exact haccess.isConfiguration e he
  · exact e.isConfiguration_of_isDiag (hdiags.isDiag e he)
  · rw [mem_doneEvents he]
    rfl

/-! ### The result fields (R32) -/

@[simp] theorem Result.recordAbort_illegal (r : Result) (c : Cause) (k : BitVec 3) (i : BitVec 16) :
    (r.recordAbort c k i).illegal = r.illegal := by
  unfold Result.recordAbort
  split <;> rfl

/-- A row of a write call leaves the result fields, or records the abort it diagnoses, whose cause is the one
charged or the one of the last retry. -/
theorem WriteStep.res_cases {c : Bool} {s t : State} (h : WriteStep c s t) :
    t.res = s.res ∨ ∃ cause, t.res = s.res.recordAbort cause s.callNo s.idx ∧
      .diag s.callNo s.idx cause ∈ newEvents s t ∧ (cause = .txAborted ∨ cause = s.cause ∧ s.retries = 0) := by
  obtain ⟨access, diags, hh, -, hreport⟩ := h.hist_append
  cases hreport with
  | none hres => exact .inl hres
  | @gaveUp cause hres hwhy =>
    refine .inr ⟨cause, hres, ?_, hwhy.imp And.left id⟩
    rw [newEvents_of_hist hh]
    simp

/-- Only the first abort is recorded (R32 c). -/
theorem Result.recordAbort_of_fail {r : Result} (h : r.fail = true) (c : Cause) (k : BitVec 3)
    (i : BitVec 16) : r.recordAbort c k i = r := if_pos h

theorem Result.recordAbort_of_not_fail {r : Result} (h : r.fail = false) (c : Cause) (k : BitVec 3)
    (i : BitVec 16) :
    r.recordAbort c k i = { r with fail := true, cause := c, call := k, idx := i } := if_neg (by simp [h])

/-- Settles O52: outside a write call no busy step touches the result fields, and a row of a write call
touches them only to record the abort it diagnoses. -/
theorem firstAbortOfACommandIsKept : Obligations.FirstAbortOfACommandIsKept := by
  intro s t hbusy hrst h
  have hres : t.res = s.res ∨ ∃ cause, t.res = s.res.recordAbort cause s.callNo s.idx ∧
      .diag s.callNo s.idx cause ∈ newEvents s t := by
    rcases step_rows h with ⟨hr, -⟩ | ⟨-, hp, -⟩ | ⟨-, -, -, rfl⟩ | ⟨-, -, rfl⟩ | ⟨-, hi⟩ | ⟨-, charged, hw⟩
    · exact absurd (hr.symm.trans hrst) (by decide)
    · simp [State.busy, hp] at hbusy
    · exact .inl rfl
    · exact .inl rfl
    · obtain ⟨-, hres, -⟩ := hi.frame
      exact .inl hres
    · exact hw.res_cases.imp id fun ⟨cause, hres, hdiag, _⟩ => ⟨cause, hres, hdiag⟩
  rcases hres with hres | ⟨cause, hres, hdiag⟩
  · exact ⟨fun _ => hres, fun hne => absurd hres hne⟩
  · cases hfail : s.res.fail with
    | true =>
      rw [Result.recordAbort_of_fail hfail] at hres
      exact ⟨fun _ => hres, fun hne => absurd hres hne⟩
    | false =>
      rw [Result.recordAbort_of_not_fail hfail] at hres
      exact ⟨nofun, fun _ => ⟨by rw [hres], _, hdiag, by rw [hres], by rw [hres], by rw [hres]⟩⟩

/-! ### What a step leaves alone -/

/-- What the acceptance of a command leaves alone. -/
theorem exec_frame {i : Instr} {s t : State} (hp : s.phase = .idle) (h : exec i s = .next t) :
    t.par = s.par ∧ t.regs = s.regs ∧ t.env = s.env ∧ t.host = s.host ∧ t.rst = s.rst ∧ t.past = s.past ∧
      t.res = .clear ∧ t.op = i.op := by
  by_cases hi : i = .init
  · subst hi
    rw [exec_init hp] at h
    cases h
    exact ⟨rfl, rfl, rfl, rfl, rfl, rfl, rfl, rfl⟩
  · rw [exec_calls hp hi] at h
    cases h
    simp

/-- What a step in IDLE leaves alone. -/
theorem idleStep_frame {s t : State} (hp : s.phase = .idle) (h : idleStep s = .next t) :
    t.par = s.par ∧ t.regs = s.regs ∧ t.env = s.env ∧ t.rst = s.rst ∧ t.past = s.past := by
  rcases idleStep_cases s with hw | ⟨o, later, i, -, -, hi⟩ | ⟨o, later, -, hj⟩
  · cases hw.symm.trans h
    exact ⟨rfl, rfl, rfl, rfl, rfl⟩
  · obtain ⟨hpar, hregs, henv, -, hrst, hpast, -⟩ := exec_frame (by exact hp) (hi.symm.trans h)
    exact ⟨hpar, hregs, henv, hrst, hpast⟩
  · cases hj.symm.trans h
    exact ⟨rfl, rfl, rfl, rfl, rfl⟩

/-- What a step that is no reset leaves alone. -/
theorem step_frame {s t : State} (hr : s.rst = false) (h : step s = .next t) :
    t.par = s.par ∧ t.rst = s.rst ∧ t.past = s.past ∧ (s.phase ≠ .idle → t.host = s.host) := by
  rcases step_rows h with ⟨hrst, -⟩ | ⟨-, hp, hi⟩ | ⟨-, -, -, rfl⟩ | ⟨-, -, rfl⟩ | ⟨-, hi⟩ | ⟨-, charged, hw⟩
  · exact absurd (hrst.symm.trans hr) (by decide)
  · obtain ⟨hpar, -, -, hrst, hpast⟩ := idleStep_frame hp hi
    exact ⟨hpar, hrst, hpast, fun hbusy => absurd hp hbusy⟩
  · exact ⟨rfl, rfl, rfl, fun _ => rfl⟩
  · exact ⟨rfl, rfl, rfl, fun _ => rfl⟩
  · obtain ⟨hpar, -, -, hhost, hrst, hpast, -⟩ := hi.frame
    exact ⟨hpar, hrst, hpast, fun _ => hhost⟩
  · obtain ⟨hpar, -, -, hhost, hrst, hpast⟩ := hw.frame
    exact ⟨hpar, hrst, hpast, fun _ => hhost⟩

theorem busy_iff {s : State} : s.busy = true ↔ s.phase ≠ .idle := by
  simp [State.busy]

/-- Settles O11: a reset and every row but IDLE leave the host port as it is. -/
theorem offersWaitWhileBusy : Obligations.OffersWaitWhileBusy := by
  refine ⟨fun s t hbusy h => ?step, fun i s hbusy => ?exec⟩
  case step =>
    cases hr : s.rst with
    | true =>
      rw [step_rst hr] at h
      cases h
      rfl
    | false =>
      obtain ⟨-, -, -, hhost⟩ := step_frame hr h
      exact hhost (busy_iff.1 hbusy)
  case exec => exact exec_busy i (busy_iff.1 hbusy)

/-- A reset leaves every environment but the reference one (R38, R65 e). -/
theorem Env.afterReset_eq_self {e : Env} (h : ∀ r, e ≠ .reference r) : e.afterReset = e := by
  cases e with
  | reference r => exact absurd rfl (h r)
  | oracle k => rfl
  | script status raw => rfl
  | absent => rfl

/-- Settles O53: of the rows, IDLE alone takes an offer, and none touches the parameters or asserts reset. -/
theorem parametersAndInputsAreKept : Obligations.ParametersAndInputsAreKept := by
  intro s t h
  cases hr : s.rst with
  | true =>
    rw [step_rst hr] at h
    cases h
    exact ⟨rfl, rfl, fun hne => absurd rfl hne, fun _ he => Env.afterReset_eq_self he⟩
  | false =>
    obtain ⟨hpar, hrst, -, hhost⟩ := step_frame hr h
    refine ⟨hpar, hrst.trans hr, fun hne => ⟨?_, rfl⟩, nofun⟩
    by_contra hp
    exact hne (hhost hp)

/-- Settles O19: a step that writes a storage register is in a phase of INIT. -/
theorem onlyInitChangesStorageRegisters : Obligations.OnlyInitChangesStorageRegisters := by
  intro s t hr h h1 h2 h3 h4 h5
  rcases step_keepsStorage_or_initWrite hr h with ⟨hregs, -⟩ | ⟨r, v, hw, -⟩
  · exact hregs
  · rcases initWrite_cases hw with ⟨hp, -⟩ | ⟨hp, -⟩ | ⟨hp, -⟩ | ⟨hp, -⟩ | ⟨hp, -⟩
    · exact absurd hp h1
    · exact absurd hp h2
    · exact absurd hp h3
    · exact absurd hp h4
    · exact absurd hp h5

/-! ### The position in the command (R30, R31, R112 a) -/

theorem phaseInv_idle {s : State} (hp : s.phase = .idle) : s.PhaseInv := by
  rw [State.PhaseInv, hp]
  trivial

theorem phaseInv_wBuild {s : State} (hp : s.phase = .wBuild) :
    s.PhaseInv ↔ s.InCall ∧ 1 ≤ s.retries.toNat := by
  rw [State.PhaseInv, hp]

theorem phaseInv_wPoll {s : State} (hp : s.phase = .wPoll) :
    s.PhaseInv ↔ s.InCall ∧ 1 ≤ s.retries.toNat ∧ s.WordIsCurrent ∧ 1 ≤ s.pollCnt.toNat ∧
      s.pollCnt.toNat ≤ 10 := by
  rw [State.PhaseInv, hp]

theorem phaseInv_wIssue {s : State} (hp : s.phase = .wIssue) :
    s.PhaseInv ↔ s.InCall ∧ s.WordIsCurrent := by
  rw [State.PhaseInv, hp]

theorem phaseInv_wPace {s : State} (hp : s.phase = .wPace) :
    s.PhaseInv ↔ s.InCall ∧ s.WordIsCurrent := by
  rw [State.PhaseInv, hp]

theorem phaseInv_wCheck {s : State} (hp : s.phase = .wCheck) :
    s.PhaseInv ↔ s.InCall ∧ s.WordIsCurrent := by
  rw [State.PhaseInv, hp]

/-- Starting calls keeps the position right, if there are no more calls than R30 allows. -/
theorem phaseInv_startCall {calls : List (List Byte)} {s : State}
    (hcalls : s.callNo.toNat + calls.length ≤ 6) (hres : s.res.illegal = false) :
    (startCall calls s).PhaseInv := by
  rcases startCall_cases calls s with ⟨hp, -⟩ |
    ⟨hp, -, -, hret, hcause, hidx, hn, hcount, passed, -, hsplit, hno⟩
  · exact phaseInv_idle hp
  · have hlen := congrArg List.length hsplit
    rw [List.length_append, List.length_cons] at hlen
    refine (phaseInv_wBuild hp).2 ⟨⟨hcount, ?_, ?_, ?_, ?_⟩, ?_⟩
    · rw [hidx]
      exact Nat.pos_of_ne_zero fun h => hn (BitVec.eq_of_toNat_eq h)
    · rw [hno, BitVec.toNat_add, BitVec.toNat_ofNat]
      omega
    · exact fun h => absurd hret h
    · rw [startCall_res, hres]
    · rw [hret]
      decide

theorem phaseInv_endCall {s : State} (hcalls : s.callNo.toNat + s.calls.length ≤ 5)
    (hres : s.res.illegal = false) : (endCall s).PhaseInv := by
  refine phaseInv_startCall ?_ hres
  rw [BitVec.toNat_add]
  simp only [BitVec.ofNat_eq_ofNat, BitVec.toNat_ofNat]
  omega

theorem satdec_toNat (r : BitVec 2) : (satdec r).toNat = r.toNat - 1 := by
  revert r
  decide

/-- Every row of a write call keeps the position right. -/
theorem WriteStep.phaseInv {c : Bool} {s t : State} (h : WriteStep c s t) (hs : s.PhaseInv) : t.PhaseInv := by
  cases h with
  | @build _ b hp hb =>
    obtain ⟨hcall, hret⟩ := (phaseInv_wBuild hp).1 hs
    refine (phaseInv_wPoll rfl).2 ⟨hcall, hret, ⟨b, hb, ?_⟩,
      (by decide : 1 ≤ Config.pollInit.toNat), (by decide : Config.pollInit.toNat ≤ 10)⟩
    rw [beq_eq_decide]
  | pollFree hp =>
    obtain ⟨hcall, -, hword, -⟩ := (phaseInv_wPoll hp).1 hs
    exact (phaseInv_wIssue rfl).2 ⟨hcall, hword⟩
  | pollFull hp _ _ hc =>
    obtain ⟨hcall, hret, hword, hlow, hhigh⟩ := (phaseInv_wPoll hp).1 hs
    refine (phaseInv_wPoll (by exact hp)).2 ⟨hcall, hret, hword, ?_, ?_⟩
    · change 1 ≤ (s.pollCnt - 1).toNat
      bv_omega
    · change (s.pollCnt - 1).toNat ≤ 10
      bv_omega
  | pollTimeout hp =>
    obtain ⟨⟨hn, hidx, hcalls, -, hres⟩, -, hword, -⟩ := (phaseInv_wPoll hp).1 hs
    exact (phaseInv_wIssue rfl).2 ⟨⟨hn, hidx, hcalls, nofun, hres⟩, hword⟩
  | issue hp =>
    obtain ⟨hcall, hword⟩ := (phaseInv_wIssue hp).1 hs
    exact (phaseInv_wPace rfl).2 ⟨hcall, hword⟩
  | pace hp =>
    obtain ⟨hcall, hword⟩ := (phaseInv_wPace hp).1 hs
    exact (phaseInv_wCheck rfl).2 ⟨hcall, hword⟩
  | abortGiveUp hp =>
    obtain ⟨⟨-, -, hcalls, -, hres⟩, -⟩ := (phaseInv_wCheck hp).1 hs
    exact phaseInv_endCall hcalls (by simpa using hres)
  | abortRepeat hp _ _ hr =>
    obtain ⟨⟨hn, hidx, hcalls, -, hres⟩, -⟩ := (phaseInv_wCheck hp).1 hs
    exact (phaseInv_wBuild rfl).2 ⟨⟨hn, hidx, hcalls, nofun, hres⟩,
      Nat.pos_of_ne_zero fun h => hr (BitVec.eq_of_toNat_eq h)⟩
  | zeroGiveUp hp =>
    obtain ⟨⟨-, -, hcalls, -, hres⟩, -⟩ := (phaseInv_wCheck hp).1 hs
    exact phaseInv_endCall hcalls (by simpa using hres)
  | nextByte hp _ _ _ hi =>
    obtain ⟨⟨hn, hidx, hcalls, -, hres⟩, -⟩ := (phaseInv_wCheck hp).1 hs
    refine (phaseInv_wBuild rfl).2 ⟨⟨hn, ?_, hcalls, fun h => absurd rfl h, hres⟩,
      (by decide : 1 ≤ Config.retryInit.toNat)⟩
    change (s.idx + 1).toNat < s.n.toNat
    bv_omega
  | lastByte hp =>
    obtain ⟨⟨-, -, hcalls, -, hres⟩, -⟩ := (phaseInv_wCheck hp).1 hs
    exact phaseInv_endCall hcalls hres

/-- Every row of INIT keeps the enable order (R26, R101). -/
theorem InitStep.phaseInv {s t : State} (h : InitStep s t) (hs : s.PhaseInv) : t.PhaseInv := by
  unfold State.PhaseInv at hs
  cases h with
  | i1 hp =>
    rw [hp] at hs
    exact ⟨hs, rfl⟩
  | i2 hp =>
    rw [hp] at hs
    obtain ⟨hinit, hfuncsel⟩ := hs
    exact ⟨hinit, hfuncsel, rfl⟩
  | i3 hp =>
    rw [hp] at hs
    obtain ⟨hinit, hfuncsel, henable⟩ := hs
    exact ⟨hinit, hfuncsel, henable, rfl⟩
  | i4 hp =>
    rw [hp] at hs
    obtain ⟨hinit, hfuncsel, henable, hctrl⟩ := hs
    exact ⟨hinit, hfuncsel, henable, hctrl, rfl⟩
  | i5 hp => exact phaseInv_idle rfl

/-- The acceptance of a command brings the position right, whatever it was in IDLE. -/
theorem phaseInv_exec {i : Instr} {s t : State} (hp : s.phase = .idle) (h : exec i s = .next t) :
    t.PhaseInv := by
  by_cases hi : i = .init
  · subst hi
    rw [exec_init hp] at h
    cases h
    exact ⟨rfl, rfl⟩
  · rw [exec_calls hp hi] at h
    cases h
    exact phaseInv_startCall (by simpa using callsOf_length s.par i) rfl

theorem phaseInv_idleStep {s t : State} (hp : s.phase = .idle) (h : idleStep s = .next t) : t.PhaseInv := by
  rcases idleStep_cases s with hw | ⟨o, later, i, -, -, hi⟩ | ⟨o, later, -, hj⟩
  · cases hw.symm.trans h
    exact phaseInv_idle hp
  · exact phaseInv_exec (by exact hp) (hi.symm.trans h)
  · cases hj.symm.trans h
    exact phaseInv_idle hp

/-- Every step keeps the position right. -/
theorem phaseInv_step {s t : State} (hs : s.PhaseInv) (h : step s = .next t) : t.PhaseInv := by
  rcases step_rows h with ⟨-, rfl⟩ | ⟨-, hp, hi⟩ | ⟨-, -, -, rfl⟩ | ⟨-, -, rfl⟩ | ⟨-, hi⟩ | ⟨-, charged, hw⟩
  · exact phaseInv_idle rfl
  · exact phaseInv_idleStep hp hi
  · trivial
  · exact hs
  · exact hi.phaseInv hs
  · exact hw.phaseInv hs

/-! ### The storage registers (R93) -/

theorem regsInv_applyReset (s : State) : (applyReset s).RegsInv := ⟨nofun, nofun, nofun, nofun⟩

/-- The write of a phase of INIT keeps the storage registers at words the block writes. -/
theorem regsInv_initWrite {s t : State} {r : Reg} {v : Word} (hs : s.RegsInv)
    (hw : s.initWrite = some (r, v)) (h : s.WritesStorage r v t) : t.RegsInv := by
  obtain ⟨hfuncsel, hctrl, htar, henable⟩ := hs
  obtain ⟨hpar, hregs, -⟩ := h
  unfold State.RegsInv
  rw [hpar, hregs]
  rcases initWrite_cases hw with ⟨-, rfl, rfl⟩ | ⟨-, rfl, rfl⟩ | ⟨-, rfl, rfl⟩ | ⟨-, rfl, rfl⟩ | ⟨-, rfl, rfl⟩
  · exact ⟨fun v hv => (Option.some.inj hv).symm, hctrl, htar, henable⟩
  · exact ⟨hfuncsel, hctrl, htar, fun v hv => .inl (Option.some.inj hv).symm⟩
  · exact ⟨hfuncsel, fun v hv => (Option.some.inj hv).symm, htar, henable⟩
  · exact ⟨hfuncsel, hctrl, fun v hv => (Option.some.inj hv).symm, henable⟩
  · exact ⟨hfuncsel, hctrl, htar, fun v hv => .inr (Option.some.inj hv).symm⟩

theorem regsInv_step {s t : State} (hs : s.RegsInv) (h : step s = .next t) : t.RegsInv := by
  cases hr : s.rst with
  | true =>
    rw [step_rst hr] at h
    cases h
    exact regsInv_applyReset s
  | false =>
    rcases step_keepsStorage_or_initWrite hr h with ⟨hregs, -⟩ | ⟨r, v, hw, hwrites⟩
    · obtain ⟨hpar, -⟩ := step_frame hr h
      unfold State.RegsInv
      rw [hpar, hregs]
      exact hs
    · exact regsInv_initWrite hs hw hwrites

/-! ### The result fields (R32) -/

/-- The result fields are consistent (R32); `State.ResultInv` says it of a state. -/
def Result.Consistent (r : Result) : Prop :=
  (r.fail = true → r.cause ≠ .none ∧ r.illegal = false) ∧
  (r.fail = false → r.cause = .none ∧ r.call = 0 ∧ r.idx = 0)

theorem resultInv_iff (s : State) : s.ResultInv ↔ s.res.Consistent := Iff.rfl

theorem Result.consistent_clear : Result.clear.Consistent := ⟨nofun, fun _ => ⟨rfl, rfl, rfl⟩⟩

theorem Result.consistent_refusedHeader : Result.refusedHeader.Consistent :=
  ⟨nofun, fun _ => ⟨rfl, rfl, rfl⟩⟩

/-- The record of an abort with a cause keeps the result fields consistent. -/
theorem Result.Consistent.recordAbort {r : Result} (h : r.Consistent) (hill : r.illegal = false) {c : Cause}
    (hc : c ≠ .none) (k : BitVec 3) (i : BitVec 16) : (r.recordAbort c k i).Consistent := by
  cases hfail : r.fail with
  | true => rwa [Result.recordAbort_of_fail hfail]
  | false =>
    rw [Result.recordAbort_of_not_fail hfail]
    exact ⟨fun _ => ⟨hc, hill⟩, nofun⟩

theorem inCall_of_writes {s : State} (hw : s.phase.writes = true) (h : s.PhaseInv) : s.InCall := by
  cases hp : s.phase with
  | idle | i1 | i2 | i3 | i4 | i5 | fault =>
    rw [hp] at hw
    cases hw
  | wBuild => exact ((phaseInv_wBuild hp).1 h).1
  | wPoll => exact ((phaseInv_wPoll hp).1 h).1
  | wIssue => exact ((phaseInv_wIssue hp).1 h).1
  | wPace => exact ((phaseInv_wPace hp).1 h).1
  | wCheck => exact ((phaseInv_wCheck hp).1 h).1

/-- In a write call a cause stands behind every abort recorded. -/
theorem WriteStep.consistent {c : Bool} {s t : State} (h : WriteStep c s t) (hs : s.PhaseInv)
    (hres : s.res.Consistent) : t.res.Consistent := by
  obtain ⟨-, -, -, hcause, hill⟩ := inCall_of_writes h.writes hs
  rcases h.res_cases with hsame | ⟨cause, hrecord, -, hwhy⟩
  · rwa [hsame]
  · rw [hrecord]
    refine hres.recordAbort hill ?_ _ _
    rcases hwhy with rfl | ⟨rfl, hzero⟩
    · nofun
    · exact hcause (by rw [hzero]; decide)

theorem resultInv_idleStep {s t : State} (hp : s.phase = .idle) (hs : s.res.Consistent)
    (h : idleStep s = .next t) : t.res.Consistent := by
  rcases idleStep_cases s with hw | ⟨o, later, i, -, -, hi⟩ | ⟨o, later, -, hj⟩
  · cases hw.symm.trans h
    exact hs
  · obtain ⟨-, -, -, -, -, -, hres, -⟩ := exec_frame (by exact hp) (hi.symm.trans h)
    rw [hres]
    exact Result.consistent_clear
  · cases hj.symm.trans h
    exact Result.consistent_refusedHeader

theorem resultInv_step {s t : State} (hphase : s.PhaseInv) (hs : s.ResultInv) (h : step s = .next t) :
    t.ResultInv := by
  rw [resultInv_iff] at hs ⊢
  rcases step_rows h with ⟨-, rfl⟩ | ⟨-, hp, hi⟩ | ⟨-, -, -, rfl⟩ | ⟨-, -, rfl⟩ | ⟨-, hi⟩ | ⟨-, charged, hw⟩
  · exact Result.consistent_clear
  · exact resultInv_idleStep hp hs hi
  · exact hs
  · exact hs
  · obtain ⟨-, hres, -⟩ := hi.frame
    rwa [hres]
  · exact hw.consistent hphase hs

/-! ### The reference FIFO (R65) -/

/-- A reference environment holds at most `d` words in its FIFO; `State.EnvInv` says it of a state. -/
def Env.Within (d : Nat) (e : Env) : Prop := ∀ r, e = .reference r → r.fifo.length ≤ d

theorem envInv_iff (s : State) : s.EnvInv ↔ s.env.Within s.par.fifoDepth := by
  unfold State.EnvInv Env.Within
  cases s.env <;> simp

theorem Env.Within.turn {d : Nat} {e : Env} (h : e.Within d) (enabled : Bool) : (e.turn enabled).Within d := by
  cases e with
  | reference r =>
    rintro _ ⟨⟩
    exact Nat.le_trans (RefEnv.turn_fifo_le enabled r) (h r rfl)
  | oracle k => exact h
  | script status raw => exact h
  | absent => exact h

theorem Env.Within.readStatus {d : Nat} {e : Env} (h : e.Within d) (depth : Nat) :
    (e.readStatus depth).2.Within d := by
  cases e with
  | reference r => exact h
  | oracle k => nofun
  | script status raw => cases status <;> nofun
  | absent => exact h

theorem Env.Within.readRaw {d : Nat} {e : Env} (h : e.Within d) : e.readRaw.2.Within d := by
  cases e with
  | reference r => exact h
  | oracle k => nofun
  | script status raw => cases raw <;> nofun
  | absent => exact h

theorem Env.Within.offer {d : Nat} {e : Env} (h : e.Within d) (w : Word) : (e.offer d w).Within d := by
  cases e with
  | reference r =>
    rintro _ ⟨⟩
    exact RefEnv.offer_fifo_le d w r (h r rfl)
  | oracle k => exact h
  | script status raw => exact h
  | absent => exact h

theorem Env.within_afterReset (d : Nat) (e : Env) : e.afterReset.Within d := by
  cases e with
  | reference r =>
    rintro _ ⟨⟩
    exact Nat.zero_le d
  | oracle k => nofun
  | script status raw => nofun
  | absent => nofun

/-- Every row of a write call keeps the reference FIFO within its depth. -/
theorem WriteStep.within {c : Bool} {s t : State} (h : WriteStep c s t) (hs : s.env.Within s.par.fifoDepth) :
    t.env.Within s.par.fifoDepth := by
  have hturn := hs.turn s.regs.enabled
  have status : ∀ {v e}, s.envTurn.env.readStatus s.par.fifoDepth = (v, e) → e.Within s.par.fifoDepth := by
    intro v e he
    simpa [← envTurn_env, he] using hturn.readStatus s.par.fifoDepth
  have raw : ∀ {v e}, s.envTurn.env.readRaw = (v, e) → e.Within s.par.fifoDepth := by
    intro v e he
    simpa [← envTurn_env, he] using hturn.readRaw
  cases h with
  | build => exact hs
  | pollFree _ he | pollFull _ he | pollTimeout _ he => exact status he
  | issue => exact hturn.offer s.word
  | pace => exact hturn
  | abortRepeat _ he | nextByte _ he => exact raw he
  | abortGiveUp _ he | zeroGiveUp _ he | lastByte _ he => simpa using raw he

theorem envInv_step {s t : State} (hs : s.EnvInv) (h : step s = .next t) : t.EnvInv := by
  rw [envInv_iff] at hs ⊢
  rcases step_rows h with ⟨-, rfl⟩ | ⟨-, hp, hi⟩ | ⟨-, -, -, rfl⟩ | ⟨-, -, rfl⟩ | ⟨-, hi⟩ | ⟨-, charged, hw⟩
  · exact Env.within_afterReset _ _
  · obtain ⟨hpar, -, henv, -⟩ := idleStep_frame hp hi
    rwa [hpar, henv]
  · exact hs
  · exact hs
  · obtain ⟨hpar, -, -, -, -, -, -, henv⟩ := hi.frame
    rw [hpar, henv]
    exact hs.turn _
  · obtain ⟨hpar, -⟩ := hw.frame
    rw [hpar]
    exact hw.within hs

/-! ### The invariant -/

/-- Settles O48: each of its four parts is kept by every row. -/
theorem everyStepKeepsTheInvariant : Obligations.EveryStepKeepsTheInvariant := by
  rintro s t ⟨hphase, hregs, hres, henv⟩ h
  exact ⟨phaseInv_step hphase h, regsInv_step hregs h, resultInv_step hphase hres h, envInv_step henv h⟩

/-- Settles O47: in IDLE, with no register written, the result fields clear and the oracle behind. -/
theorem invariantHoldsAtReset : Obligations.InvariantHoldsAtReset :=
  ⟨phaseInv_idle rfl, ⟨nofun, nofun, nofun, nofun⟩, Result.consistent_clear, trivial⟩

/-! ### Steps answer a next state -/

/-- `exec` answers a next state for every command in every state. -/
theorem exec_next (i : Instr) (s : State) : ∃ t, exec i s = .next t := by
  by_cases hp : s.phase = .idle
  · by_cases hi : i = .init
    · exact ⟨_, hi ▸ exec_init hp⟩
    · exact ⟨_, exec_calls hp hi⟩
  · exact ⟨s, exec_busy i hp⟩

theorem idleStep_next (s : State) : ∃ t, idleStep s = .next t := by
  rcases idleStep_cases s with hw | ⟨o, later, i, -, -, hi⟩ | ⟨o, later, -, hj⟩
  · exact ⟨s, hw⟩
  · obtain ⟨t, ht⟩ := exec_next i { s with host := later }
    exact ⟨t, hi.trans ht⟩
  · exact ⟨_, hj⟩

/-- An access ends in a next state, with a value or by a Fault, if what follows it does. -/
theorem andThen_next {α : Type} (a : Access α) {k : α → State → Host.Outcome State Fault Refusal}
    (hk : ∀ v t, ∃ u, k v t = .next u) : ∃ u, a.andThen k = .next u := by
  cases a with
  | ok v t => exact hk v t
  | fault t => exact ⟨t, rfl⟩

/-- A step stops only in W_BUILD with no byte at the position (log 16). -/
theorem step_next_or_noSuchByte (s : State) :
    (∃ t, step s = .next t) ∨
      (s.phase = .wBuild ∧ s.buf[s.idx.toNat]? = none ∧ step s = .fault .noSuchByte) := by
  cases hr : s.rst with
  | true => exact .inl ⟨_, step_rst hr⟩
  | false =>
    cases hp : s.phase with
    | idle => exact .inl ((step_idle hr hp).symm ▸ idleStep_next s)
    | i1 => exact .inl ((step_i1 hr hp).symm ▸ andThen_next _ fun _ _ => ⟨_, rfl⟩)
    | i2 => exact .inl ((step_i2 hr hp).symm ▸ andThen_next _ fun _ _ => ⟨_, rfl⟩)
    | i3 => exact .inl ((step_i3 hr hp).symm ▸ andThen_next _ fun _ _ => ⟨_, rfl⟩)
    | i4 => exact .inl ((step_i4 hr hp).symm ▸ andThen_next _ fun _ _ => ⟨_, rfl⟩)
    | i5 => exact .inl ((step_i5 hr hp).symm ▸ andThen_next _ fun _ _ => ⟨_, rfl⟩)
    | wBuild =>
      rw [step_wBuild hr hp]
      cases hb : s.buf[s.idx.toNat]? with
      | none => exact .inr ⟨rfl, rfl, by rw [buildStep, hb]⟩
      | some b => exact .inl ⟨_, buildStep_byte hb⟩
    | wPoll => exact .inl ((step_wPoll hr hp).symm ▸ andThen_next _ fun _ _ => ⟨_, rfl⟩)
    | wIssue => exact .inl ((step_wIssue hr hp).symm ▸ andThen_next _ fun _ _ => ⟨_, rfl⟩)
    | wPace => exact .inl ⟨_, (step_wPace hr hp).trans (paceStep_next s)⟩
    | wCheck => exact .inl ((step_wCheck hr hp).symm ▸ andThen_next _ fun _ _ => ⟨_, rfl⟩)
    | fault => exact .inl ⟨_, step_fault hr hp⟩

/-- In a write call there is a byte at the position. -/
theorem State.InCall.byte {s : State} (h : s.InCall) : ∃ b, s.buf[s.idx.toNat]? = some b := by
  obtain ⟨hn, hidx, -⟩ := h
  have hle := countOf_le s.buf
  rw [← hn] at hle
  exact ⟨_, List.getElem?_eq_getElem (Nat.lt_of_lt_of_le hidx hle)⟩

/-- With the position right every step answers a next state. -/
theorem step_next {s : State} (h : s.PhaseInv) : ∃ t, step s = .next t := by
  rcases step_next_or_noSuchByte s with hnext | ⟨hp, hnone, -⟩
  · exact hnext
  · obtain ⟨hcall, -⟩ := (phaseInv_wBuild hp).1 h
    obtain ⟨b, hb⟩ := hcall.byte
    exact absurd (hb.symm.trans hnone) (by simp)

/-- Settles O50: the only stop is the fault of W_BUILD, whose state the invariant rules out. -/
theorem noStepStopsUnderTheInvariant : Obligations.NoStepStopsUnderTheInvariant := by
  refine ⟨fun s hs => step_next hs.1, fun s r h => ?_⟩
  rcases step_next_or_noSuchByte s with ⟨t, hnext⟩ | ⟨-, -, hfault⟩
  · cases hnext.symm.trans h
  · cases hfault.symm.trans h

end Sys2Proof.Machine
end

section
/-! SUPPORT. Runs of write calls from their start to IDLE: each row does some of a bounded work (R112, R184),
so that every command completes, in one state only, and what is kept by every row holds at its end. -/

namespace Sys2Proof.Machine

/-! ### What a command may still cost (R112 a, b, R184) -/

/-- The most an attempt costs when each row costs what `cost` says of its phase: ten reads of STATUS, and the
other rows once. -/
def attemptCost (cost : Phase → Nat) : Nat :=
  cost .wBuild + 10 * cost .wPoll + cost .wIssue + cost .wPace + cost .wCheck

/-- The bytes of the command after the current one. -/
def State.bytesLater (s : State) : Nat := s.n.toNat - s.idx.toNat - 1 + (s.calls.map List.length).sum

/-- The most the rows after the current attempt cost: one attempt for each further retry in hand, and three for
each later byte. -/
def State.laterCost (cost : Phase → Nat) (s : State) : Nat :=
  attemptCost cost * (s.retries.toNat - 1) + 3 * attemptCost cost * s.bytesLater

/-- The most the rows to the end of the command cost. -/
def State.costLeft (cost : Phase → Nat) (s : State) : Nat :=
  match s.phase with
  | .wBuild => attemptCost cost + s.laterCost cost
  | .wPoll => s.pollCnt.toNat * cost .wPoll + cost .wIssue + cost .wPace + cost .wCheck + s.laterCost cost
  | .wIssue => cost .wIssue + cost .wPace + cost .wCheck + s.laterCost cost
  | .wPace => cost .wPace + cost .wCheck + s.laterCost cost
  | .wCheck => cost .wCheck + s.laterCost cost
  | .idle | .i1 | .i2 | .i3 | .i4 | .i5 | .fault => 0

section
variable (cost : Phase → Nat) {s : State}

theorem costLeft_wBuild (hp : s.phase = .wBuild) :
    s.costLeft cost = attemptCost cost + s.laterCost cost := by
  rw [State.costLeft, hp]
theorem costLeft_wPoll (hp : s.phase = .wPoll) :
    s.costLeft cost =
      s.pollCnt.toNat * cost .wPoll + cost .wIssue + cost .wPace + cost .wCheck + s.laterCost cost := by
  rw [State.costLeft, hp]
theorem costLeft_wIssue (hp : s.phase = .wIssue) :
    s.costLeft cost = cost .wIssue + cost .wPace + cost .wCheck + s.laterCost cost := by
  rw [State.costLeft, hp]
theorem costLeft_wPace (hp : s.phase = .wPace) :
    s.costLeft cost = cost .wPace + cost .wCheck + s.laterCost cost := by
  rw [State.costLeft, hp]
theorem costLeft_wCheck (hp : s.phase = .wCheck) : s.costLeft cost = cost .wCheck + s.laterCost cost := by
  rw [State.costLeft, hp]
theorem costLeft_idle (hp : s.phase = .idle) : s.costLeft cost = 0 := by
  rw [State.costLeft, hp]

end

/-- A list of calls costs at most three attempts per byte. -/
theorem costLeft_startCall (cost : Phase → Nat) (calls : List (List Byte)) (s : State) :
    (startCall calls s).costLeft cost ≤ 3 * attemptCost cost * (calls.map List.length).sum := by
  rcases startCall_cases calls s with ⟨hp, -⟩ |
    ⟨hp, -, -, hret, -, hidx, hn, hcount, passed, -, hsplit, -⟩
  · rw [costLeft_idle cost hp]
    exact Nat.zero_le _
  · have hsum : (calls.map List.length).sum = (passed.map List.length).sum +
        ((startCall calls s).buf.length + ((startCall calls s).calls.map List.length).sum) := by
      have := congrArg (fun l => (l.map List.length).sum) hsplit
      simpa using this
    have hle := countOf_le (startCall calls s).buf
    have hpos : (startCall calls s).n.toNat ≠ 0 := fun h => hn (BitVec.eq_of_toNat_eq h)
    rw [← hcount] at hle
    have hbytes : (startCall calls s).bytesLater + 1 ≤ (calls.map List.length).sum := by
      rw [State.bytesLater, hidx, hsum]
      simp only [BitVec.ofNat_eq_ofNat, BitVec.toNat_ofNat]
      omega
    have htwo : (startCall calls s).retries.toNat - 1 = 2 := by rw [hret]; rfl
    calc (startCall calls s).costLeft cost
        = 3 * attemptCost cost * ((startCall calls s).bytesLater + 1) := by
          rw [costLeft_wBuild cost hp, State.laterCost, htwo, Nat.mul_succ (3 * attemptCost cost)]
          omega
      _ ≤ _ := Nat.mul_le_mul_left _ hbytes

theorem costLeft_endCall (cost : Phase → Nat) (s : State) :
    (endCall s).costLeft cost ≤ 3 * attemptCost cost * (s.calls.map List.length).sum :=
  costLeft_startCall cost _ _

/-- The end of a call in W_CHECK leaves what the calls to come may cost. -/
theorem costLeft_endCall_of_check (cost : Phase → Nat) {s t : State} (hp : s.phase = .wCheck)
    (hcalls : t.calls = s.calls) : (endCall t).costLeft cost + cost .wCheck ≤ s.costLeft cost := by
  have hend := costLeft_endCall cost t
  have hlater : 3 * attemptCost cost * (s.calls.map List.length).sum ≤
      3 * attemptCost cost * s.bytesLater := Nat.mul_le_mul_left _ (Nat.le_add_left _ _)
  rw [hcalls] at hend
  rw [costLeft_wCheck cost hp, State.laterCost]
  omega

/-- Every row of a write call pays its cost. -/
theorem WriteStep.costLeft_le {c : Bool} {s t : State} (h : WriteStep c s t) (hs : s.PhaseInv)
    (cost : Phase → Nat) : t.costLeft cost + cost s.phase ≤ s.costLeft cost := by
  cases h with
  | build hp =>
    rw [costLeft_wBuild cost hp, costLeft_wPoll cost rfl, hp, attemptCost]
    change 10 * cost .wPoll + _ + _ + _ + s.laterCost cost + _ ≤ _
    omega
  | pollFree hp =>
    obtain ⟨-, -, -, hlow, -⟩ := (phaseInv_wPoll hp).1 hs
    have hone : 1 * cost .wPoll ≤ s.pollCnt.toNat * cost .wPoll := Nat.mul_le_mul_right _ hlow
    rw [costLeft_wPoll cost hp, costLeft_wIssue cost rfl, hp]
    change _ + s.laterCost cost + _ ≤ _
    omega
  | pollFull hp =>
    obtain ⟨-, -, -, hlow, -⟩ := (phaseInv_wPoll hp).1 hs
    have hone : s.pollCnt.toNat = (s.pollCnt - 1).toNat + 1 := by bv_omega
    rw [costLeft_wPoll cost hp, costLeft_wPoll cost (by exact hp), hp, hone, Nat.succ_mul]
    change (s.pollCnt - 1).toNat * cost .wPoll + _ + _ + _ + s.laterCost cost + _ ≤ _
    omega
  | pollTimeout hp _ _ hc =>
    obtain ⟨-, hret, -⟩ := (phaseInv_wPoll hp).1 hs
    have hfewer : attemptCost cost * ((s.retries - 1).toNat - 1) ≤ attemptCost cost * (s.retries.toNat - 1) :=
      Nat.mul_le_mul_left _ (by bv_omega)
    rw [costLeft_wPoll cost hp, costLeft_wIssue cost rfl, hp, hc]
    change _ + (attemptCost cost * ((s.retries - 1).toNat - 1) + 3 * attemptCost cost * s.bytesLater) + _ ≤
      1 * cost .wPoll + _ + _ + _ + (_ + _)
    omega
  | issue hp =>
    rw [costLeft_wIssue cost hp, costLeft_wPace cost rfl, hp]
    change _ + s.laterCost cost + _ ≤ _
    omega
  | pace hp =>
    rw [costLeft_wPace cost hp, costLeft_wCheck cost rfl, hp]
    change _ + s.laterCost cost + _ ≤ _
    omega
  | abortGiveUp hp | zeroGiveUp hp | lastByte hp =>
    rw [hp]
    exact costLeft_endCall_of_check cost hp rfl
  | abortRepeat hp _ _ hr =>
    have hret := satdec_toNat s.retries
    have hpos : (satdec s.retries).toNat ≠ 0 := fun h => hr (BitVec.eq_of_toNat_eq h)
    have hone : s.retries.toNat - 1 = (satdec s.retries).toNat - 1 + 1 := by omega
    rw [costLeft_wCheck cost hp, costLeft_wBuild cost rfl, hp, State.laterCost, State.laterCost, hone,
      Nat.mul_succ]
    change attemptCost cost + (attemptCost cost * ((satdec s.retries).toNat - 1) +
      3 * attemptCost cost * s.bytesLater) + _ ≤ _
    omega
  | @nextByte _ v e hp _ _ _ hi =>
    obtain ⟨⟨-, hidx, -⟩, -⟩ := (phaseInv_wCheck hp).1 hs
    have hnext : (s.idx + 1).toNat = s.idx.toNat + 1 := by bv_omega
    have hne : s.idx.toNat + 1 ≠ s.n.toNat := fun h => hi (BitVec.eq_of_toNat_eq (hnext.trans h))
    have hone : s.bytesLater = s.n.toNat - (s.idx + 1).toNat - 1 + (s.calls.map List.length).sum + 1 := by
      rw [State.bytesLater, hnext]
      omega
    rw [costLeft_wCheck cost hp, costLeft_wBuild cost rfl, hp, State.laterCost, State.laterCost, hone,
      Nat.mul_succ]
    change attemptCost cost + (attemptCost cost * 2 + 3 * attemptCost cost *
      (s.n.toNat - (s.idx + 1).toNat - 1 + (s.calls.map List.length).sum)) + _ ≤ _
    omega

/-! ### Runs of write calls -/

/-- Rows of write calls, one after another. -/
abbrev WriteRun : State → State → Prop := Relation.ReflTransGen fun s t => ∃ charged, WriteStep charged s t

theorem startCall_phase (calls : List (List Byte)) (s : State) :
    (startCall calls s).phase.writes = true ∨ (startCall calls s).phase = .idle := by
  rcases startCall_cases calls s with ⟨hp, -⟩ | ⟨hp, -⟩
  · exact .inr hp
  · rw [hp]
    exact .inl rfl

/-- A row of a write call leads to another, or to IDLE. -/
theorem WriteStep.next_phase {c : Bool} {s t : State} (h : WriteStep c s t) :
    t.phase.writes = true ∨ t.phase = .idle := by
  cases h with
  | build | pollFree | pollTimeout | issue | pace | abortRepeat | nextByte => exact .inl rfl
  | pollFull hp => exact .inl (by rw [hp]; rfl)
  | abortGiveUp | zeroGiveUp | lastByte => exact startCall_phase _ _

/-- What every row keeps holds at the end of a run, with the position right in every state of it. -/
theorem WriteRun.keeps {P : State → Prop} {s u : State} (h : WriteRun s u) (hphase : s.PhaseInv) (hs : P s)
    (hstep : ∀ c a b, a.PhaseInv → P a → WriteStep c a b → P b) : P u := by
  suffices hboth : u.PhaseInv ∧ P u from hboth.2
  induction h with
  | refl => exact ⟨hphase, hs⟩
  | tail _ hlast ih =>
    obtain ⟨ha, hP⟩ := ih
    obtain ⟨charged, hrow⟩ := hlast
    exact ⟨hrow.phaseInv ha, hstep charged _ _ ha hP hrow⟩

/-- A bound on the steps to the end of the command: fourteen for an attempt. -/
def State.work (s : State) : Nat := s.costLeft fun _ => 1

theorem WriteStep.work_lt {c : Bool} {s t : State} (h : WriteStep c s t) (hs : s.PhaseInv) :
    t.work < s.work := h.costLeft_le hs fun _ => 1

/-- A run of write calls comes to IDLE, within its work (R184). -/
theorem writeRun_to_idle {s : State} (hphase : s.PhaseInv) (hr : s.rst = false) (he : s.env ≠ .absent)
    (hp : s.phase.writes = true ∨ s.phase = .idle) :
    ∃ k u, k ≤ s.work ∧ BusyRun k s u ∧ u.phase = .idle ∧ WriteRun s u := by
  induction hw : s.work using Nat.strong_induction_on generalizing s with
  | _ w ih =>
    rcases hp with hwrites | hidle
    · obtain ⟨t, ht⟩ := step_next hphase
      obtain ⟨charged, hrow⟩ := writeStep_of_step hr he hwrites ht
      obtain ⟨-, -, -, -, hrst, -⟩ := hrow.frame
      have hlt := hrow.work_lt hphase
      obtain ⟨k, u, hk, hrun, hu, hrows⟩ := ih t.work (hw ▸ hlt) (hrow.phaseInv hphase) (hrst.trans hr)
        (hrow.env_ne_absent he) hrow.next_phase rfl
      exact ⟨k + 1, u, by omega, .step (Phase.ne_idle_of_writes hwrites) ht hrun, hu,
        .head ⟨charged, hrow⟩ hrows⟩
    · exact ⟨0, s, Nat.zero_le _, .refl s, hidle, .refl⟩

/-! ### Commands -/

/-- The state in which a command of write calls is accepted (R111, R130). -/
def accepted (i : Instr) (s : State) : State := startCall (callsOf s.par i) (acceptHeader i.op i.payload s)

theorem phaseInv_accepted (i : Instr) (s : State) : (accepted i s).PhaseInv :=
  phaseInv_startCall (by simpa using callsOf_length s.par i) rfl

/-- A command of write calls completes, within 42 steps per byte (R112 e, R184). -/
theorem command_completes {i : Instr} {s : State} (h : s.Ready) (hi : i ≠ .init) :
    ∃ k u, k ≤ 42 * bytesOf s.par i ∧ CompletesIn k i s u ∧ WriteRun (accepted i s) u := by
  obtain ⟨hp, hr, he⟩ := h
  obtain ⟨k, u, hk, hrun, hu, hrows⟩ := writeRun_to_idle (phaseInv_accepted i s)
    (by simpa [accepted] using hr) (by simpa [accepted] using he) (startCall_phase _ _)
  exact ⟨k, u, hk.trans (costLeft_startCall _ _ _), completesIn_of_busyRun (exec_calls hp hi) hrun hu, hrows⟩

/-- A command completes in one state only. -/
theorem completes_unique {i : Instr} {s u v : State} (hu : Completes i s u) (hv : Completes i s v) :
    u = v := by
  obtain ⟨j, t, ht, hju, huidle, hubusy⟩ := hu
  obtain ⟨k, t', ht', hkv, hvidle, hvbusy⟩ := hv
  cases ht.symm.trans ht'
  rcases Nat.lt_trichotomy j k with hlt | rfl | hlt
  · obtain ⟨w, hw, hbusy⟩ := hvbusy j hlt
    cases hju.symm.trans hw
    exact absurd huidle hbusy
  · cases hju.symm.trans hkv
    rfl
  · obtain ⟨w, hw, hbusy⟩ := hubusy k hlt
    cases hkv.symm.trans hw
    exact absurd hvidle hbusy

theorem completes_phase {i : Instr} {s u : State} (h : Completes i s u) : u.phase = .idle := by
  obtain ⟨k, t, -, -, hidle, -⟩ := h
  exact hidle

/-- The state INIT ends in. -/
theorem completes_init {s u : State} (h : s.Ready) (hu : Completes .init s u) :
    u = initDone { acceptHeader .init [] s with phase := .i1 } :=
  completes_unique hu ⟨5, completesIn_init h⟩

/-- Any other command that completes has run through rows of write calls. -/
theorem writeRun_of_completes {i : Instr} {s u : State} (h : s.Ready) (hi : i ≠ .init)
    (hu : Completes i s u) : WriteRun (accepted i s) u := by
  obtain ⟨k, v, -, hv, hrun⟩ := command_completes h hi
  rwa [completes_unique hu ⟨k, hv⟩]

/-! ### What a command of write calls keeps -/

/-- State `a` occurs in the run of command `i` accepted in `s`: what is as it was, and what the history and the
ghost display state have become. -/
structure Underway (i : Instr) (s a : State) : Prop where
  par  : a.par = s.par
  regs : a.regs = s.regs
  host : a.host = s.host
  rst  : a.rst = s.rst
  past : a.past = s.past
  op   : a.op = i.op
  env  : a.env ≠ .absent
  disp : a.disp = a.dispAfter s.disp
  hist : ∃ es, a.hist = s.hist ++ ([.acc i.op i.payload.length i.payload] ++ es ++ a.doneEvents) ∧
    ∀ e ∈ es, e.isAccess = true ∨ e.isDelay = true ∨ e.isDiag = true

theorem WriteAccess.isAccess_or_isDelay {s : State} {access : Option Event} (h : WriteAccess s access) :
    ∀ e ∈ access, e.isAccess = true ∨ e.isDelay = true := by
  cases h with
  | build => nofun
  | status | word | raw =>
    rintro e ⟨⟩
    exact .inl rfl
  | pace =>
    rintro e ⟨⟩
    exact .inr rfl

theorem underway_accepted {i : Instr} {s : State} (h : s.Ready) : Underway i s (accepted i s) := by
  obtain ⟨-, -, he⟩ := h
  refine ⟨startCall_par _ _, startCall_regs _ _, startCall_host _ _, startCall_rst _ _, startCall_past _ _,
    startCall_op _ _, by simpa [accepted] using he, startCall_disp _ _, [], ?_, nofun⟩
  rw [accepted, startCall_hist, acceptHeader_hist]
  simp

theorem doneEvents_of_writes {s : State} (h : s.phase.writes = true) : s.doneEvents = [] :=
  if_neg (Phase.ne_idle_of_writes h)

theorem dispAfter_of_writes {s : State} (h : s.phase.writes = true) (d : Disp) : s.dispAfter d = d :=
  if_neg (Phase.ne_idle_of_writes h)

theorem Underway.step {i : Instr} {s a b : State} {c : Bool} (ha : Underway i s a) (h : WriteStep c a b) :
    Underway i s b := by
  obtain ⟨hpar, hregs, hop, hhost, hrst, hpast⟩ := h.frame
  obtain ⟨access, diags, hh, haccess, hdiags⟩ := h.hist_append
  obtain ⟨es, hes, hall⟩ := ha.hist
  have hdisp : b.disp = b.dispAfter s.disp := by
    rw [h.disp, ha.disp, dispAfter_of_writes h.writes]
  refine ⟨hpar.trans ha.par, hregs.trans ha.regs, hhost.trans ha.host, hrst.trans ha.rst,
    hpast.trans ha.past, hop.trans ha.op, h.env_ne_absent ha.env, hdisp, es ++ access.toList ++ diags, ?_, ?_⟩
  · rw [hh, hes, doneEvents_of_writes h.writes]
    simp
  · intro e he
    simp only [List.mem_append, Option.mem_toList] at he
    rcases he with (he | he) | he
    · exact hall e he
    · exact (haccess.isAccess_or_isDelay e he).imp id .inl
    · exact .inr (.inr (hdiags.isDiag e he))

theorem underway_of_completes {i : Instr} {s u : State} (h : s.Ready) (hi : i ≠ .init)
    (hu : Completes i s u) : Underway i s u :=
  (writeRun_of_completes h hi hu).keeps (phaseInv_accepted i s) (underway_accepted h)
    fun _ _ _ _ ha hstep => ha.step hstep

theorem doneEvents_of_idle {s : State} (h : s.phase = .idle) : s.doneEvents = [.done s.res.word] := if_pos h

theorem Result.word_clear : Result.clear.word = 0x00000000 := by decide

/-- The history of INIT (R100). -/
theorem initDone_init_hist (s : State) :
    (initDone { acceptHeader .init [] s with phase := .i1 }).hist =
      s.hist ++ [.acc .init 0 []] ++ initEvents s.par := rfl

/-- Settles O35: INIT by its run of five steps, every other command by the work of its calls and by what every
row keeps. -/
theorem everyCommandCompletes : Obligations.EveryCommandCompletes := by
  intro i s h
  by_cases hi : i = .init
  · subst hi
    refine ⟨_, 5, _, [.wr .funcsel s.par.funcselI2c, .wr .enable 0x00000000, .wr .ctrl s.par.ctrlInit,
      .wr .tar 0x0000003C, .wr .enable 0x00000001], exec_init h.1, Nat.le_add_right 5 _, completesIn_init h,
      ?_, ?_, fun hne => absurd rfl hne, rfl, rfl, rfl, ?_, rfl⟩
    · rw [initDone_init_hist, List.append_assoc, List.append_assoc, List.append_assoc]
      change _ = s.hist ++ (_ ++ (_ ++ [.done Result.clear.word]))
      rw [Result.word_clear]
      rfl
    · simp [Event.isAccess]
    · have hturn : ∀ {e : Env} (b : Bool), e ≠ .absent → e.turn b ≠ .absent := fun b he =>
        Env.turn_ne_absent he b
      exact hturn _ (hturn _ (hturn _ (hturn _ (hturn _ h.2.2))))
  · obtain ⟨k, u, hk, hu, -⟩ := command_completes h hi
    have hway := underway_of_completes h hi ⟨k, hu⟩
    obtain ⟨es, hes, hall⟩ := hway.hist
    rw [doneEvents_of_idle (completes_phase ⟨k, hu⟩)] at hes
    exact ⟨accepted i s, k, u, es, exec_calls h.1 hi, by omega, hu, by simp [hes], hall,
      fun _ => hway.regs, hway.par, hway.host, hway.rst, hway.env, hway.op⟩

end Sys2Proof.Machine
end

section
/-! SUPPORT. Clean commands: a clean history counts the full reads in a row (R9), a clean command runs through
rows that consume no retry, and it offers exactly its words (R112 f, R130). -/

namespace Sys2Proof.Machine

/-! ### Clean histories as a count of full reads (R9) -/

/-- The number of full reads of STATUS in a row after one more event, if it consumes no retry. -/
def fullsAfter (k : Nat) : Event → Option Nat
  | .rd .status v => if tfnf v then some 0 else if k + 1 < 10 then some (k + 1) else none
  | .rd .rawIntrStat v => if abrt v then none else some 0
  | .wr _ _ => some 0
  | _ => some k

/-- The number of full reads of STATUS in a row after a history, if it is clean. -/
def fullsFrom (k : Nat) (es : List Event) : Option Nat := es.foldlM fullsAfter k

@[simp] theorem fullsFrom_nil (k : Nat) : fullsFrom k [] = some k := rfl

theorem fullsFrom_cons (k : Nat) (e : Event) (es : List Event) :
    fullsFrom k (e :: es) = (fullsAfter k e).bind (fullsFrom · es) := rfl

theorem fullsFrom_append (k : Nat) (es later : List Event) :
    fullsFrom k (es ++ later) = (fullsFrom k es).bind (fullsFrom · later) := List.foldlM_append

theorem cleanFrom_eq_isSome (k : Nat) (es : List Event) : cleanFrom k es = (fullsFrom k es).isSome := by
  induction es generalizing k with
  | nil => rfl
  | cons e es ih =>
    rw [fullsFrom_cons]
    cases e with
    | rd r v =>
      cases r with
      | status =>
        simp only [cleanFrom, fullsAfter]
        split_ifs with hv hk
        · exact ih 0
        · simp [hk, ih]
        · simp [hk]
      | rawIntrStat =>
        simp only [cleanFrom, fullsAfter]
        split_ifs with hv
        · simp [hv]
        · simp [hv, ih]
      | _ => exact ih k
    | wr r v => exact ih 0
    | _ => exact ih k

theorem clean_iff {es : List Event} : Clean es ↔ ∃ k, fullsFrom 0 es = some k := by
  rw [Clean, cleanFrom_eq_isSome, Option.isSome_iff_exists]

/-- A history that begins a clean one is clean. -/
theorem Clean.of_append {es later : List Event} (h : Clean (es ++ later)) : Clean es := by
  obtain ⟨k, hk⟩ := clean_iff.1 h
  rw [fullsFrom_append, Option.bind_eq_some_iff] at hk
  obtain ⟨j, hj, -⟩ := hk
  exact clean_iff.2 ⟨j, hj⟩

/-- After a clean history the count goes on from its full reads. -/
theorem fullsFrom_append_of_eq {j k : Nat} {es : List Event} (h : fullsFrom k es = some j)
    (later : List Event) : fullsFrom k (es ++ later) = fullsFrom j later := by
  rw [fullsFrom_append, h]
  rfl

theorem fullsFrom_doneEvents (k : Nat) (s : State) : fullsFrom k s.doneEvents = some k := by
  unfold State.doneEvents
  split_ifs <;> rfl

/-! ### Clean runs -/

/-- Rows of write calls that consume no retry. -/
abbrev CleanRun : State → State → Prop := Relation.ReflTransGen (WriteStep false)

/-- The full reads of STATUS in a row that the poll counter stands for (R104). -/
def State.fulls (s : State) : Nat := if s.phase = .wPoll then 10 - s.pollCnt.toNat else 0

theorem fulls_wPoll {s : State} (hp : s.phase = .wPoll) : s.fulls = 10 - s.pollCnt.toNat := if_pos hp

theorem fulls_of_ne {s : State} (hp : s.phase ≠ .wPoll) : s.fulls = 0 := if_neg hp

/-- No retry has been consumed at the current byte, and `k` full reads in a row are behind the block. -/
def State.Untouched (s : State) (k : Nat) : Prop := (s.phase.writes = true → s.retries = 3) ∧ k = s.fulls

theorem untouched_startCall (calls : List (List Byte)) (s : State) : (startCall calls s).Untouched 0 := by
  rcases startCall_cases calls s with ⟨hp, -⟩ | ⟨hp, -, -, hret, -⟩
  · exact ⟨fun hw => absurd hp (Phase.ne_idle_of_writes hw), (fulls_of_ne (by simp [hp])).symm⟩
  · exact ⟨fun _ => hret, (fulls_of_ne (by simp [hp])).symm⟩

/-- Of a row whose events are clean after the full reads counted so far: it consumes no retry. -/
theorem WriteStep.untouched {c : Bool} {s t : State} {k : Nat} {es : List Event} (h : WriteStep c s t)
    (hphase : s.PhaseInv) (hs : s.Untouched k) (hh : t.hist = s.hist ++ es)
    (hclean : (fullsFrom k es).isSome = true) :
    c = false ∧ ∃ j, fullsFrom k es = some j ∧ t.Untouched j := by
  obtain ⟨hret, hk⟩ := hs
  have hthree := hret h.writes
  have raw {v : Word} {later : List Event} (hes : es = .rd .rawIntrStat v :: later) : abrt v = false := by
    cases hv : abrt v with
    | false => rfl
    | true => simp [hes, fullsFrom_cons, fullsAfter, hv] at hclean
  have settled {v : Word} (hv : abrt v = false) (hes : es = .rd .rawIntrStat v :: t.doneEvents) :
      fullsFrom k es = some 0 := by
    rw [hes, fullsFrom_cons, fullsAfter, hv]
    exact fullsFrom_doneEvents 0 t
  cases h with
  | build hp =>
    obtain rfl : es = [] := List.append_right_eq_self.1 hh.symm
    rw [fulls_of_ne (by simp [hp])] at hk
    exact ⟨rfl, k, rfl, fun _ => hthree, hk⟩
  | pollFree hp _ hv =>
    obtain rfl := List.append_cancel_left hh
    exact ⟨rfl, 0, by simp [fullsFrom_cons, fullsAfter, hv], fun _ => hthree, rfl⟩
  | pollFull hp _ hv hc =>
    obtain rfl := List.append_cancel_left hh
    obtain ⟨-, -, -, hlow, hhigh⟩ := (phaseInv_wPoll hp).1 hphase
    have hne : s.pollCnt.toNat ≠ 1 := fun h => hc (BitVec.eq_of_toNat_eq h)
    rw [fulls_wPoll hp] at hk
    refine ⟨rfl, k + 1, ?_, fun _ => hthree, ?_⟩
    · have hlt : k + 1 < 10 := by omega
      simp [fullsFrom_cons, fullsAfter, hv, hlt]
    · rw [fulls_wPoll (by exact hp)]
      change k + 1 = 10 - (s.pollCnt - 1).toNat
      bv_omega
  | pollTimeout hp _ hv hc =>
    obtain rfl := List.append_cancel_left hh
    rw [fulls_wPoll hp, hc] at hk
    have hlt : ¬ k + 1 < 10 := by
      rw [hk]
      decide
    simp [fullsFrom_cons, fullsAfter, hv, hlt] at hclean
  | issue hp =>
    obtain rfl := List.append_cancel_left hh
    exact ⟨rfl, 0, rfl, fun _ => hthree, rfl⟩
  | pace hp =>
    obtain rfl := List.append_cancel_left hh
    rw [fulls_of_ne (by simp [hp])] at hk
    exact ⟨rfl, k, rfl, fun _ => hthree, hk⟩
  | abortGiveUp hp _ hv =>
    rw [endCall_recordAbort_hist, List.append_assoc] at hh
    exact absurd (raw (List.append_cancel_left hh).symm) (by simp [hv])
  | abortRepeat hp _ hv =>
    exact absurd (raw (List.append_cancel_left hh).symm) (by simp [hv])
  | zeroGiveUp hp _ _ hr => exact absurd (hthree.symm.trans hr) (by decide)
  | nextByte hp _ hv =>
    exact ⟨rfl, 0, settled hv (List.append_cancel_left hh).symm, fun _ => rfl, rfl⟩
  | lastByte hp _ hv =>
    rw [endCall_hist, List.append_assoc] at hh
    exact ⟨rfl, 0, settled hv (List.append_cancel_left hh).symm, untouched_startCall _ _⟩

/-- A run of write calls only adds to the history. -/
theorem WriteRun.hist_append {s u : State} (h : WriteRun s u) : ∃ es, u.hist = s.hist ++ es := by
  induction h with
  | refl => exact ⟨[], (List.append_nil _).symm⟩
  | tail _ hlast ih =>
    obtain ⟨es, hes⟩ := ih
    obtain ⟨charged, hrow⟩ := hlast
    obtain ⟨access, diags, hnew, -, -⟩ := hrow.hist_append
    exact ⟨_, by rw [hnew, hes, List.append_assoc]⟩

/-- As long as the events since `s` are clean, no retry has been consumed. -/
def CleanSoFar (k : Nat) (s a : State) : Prop :=
  ∃ es, a.hist = s.hist ++ es ∧ ((fullsFrom k es).isSome = true →
    CleanRun s a ∧ ∃ j, fullsFrom k es = some j ∧ a.Untouched j)

theorem CleanSoFar.step {k : Nat} {s a b : State} {c : Bool} (h : CleanSoFar k s a) (ha : a.PhaseInv)
    (hrow : WriteStep c a b) : CleanSoFar k s b := by
  obtain ⟨es, hes, hrun⟩ := h
  obtain ⟨access, diags, hnew, -, -⟩ := hrow.hist_append
  refine ⟨es ++ (access.toList ++ (diags ++ b.doneEvents)), by rw [hnew, hes, List.append_assoc],
    fun hboth => ?_⟩
  have hfirst : (fullsFrom k es).isSome = true := by
    rw [fullsFrom_append] at hboth
    exact Option.isSome_of_isSome_bind hboth
  obtain ⟨hrun, j, hj, hun⟩ := hrun hfirst
  rw [fullsFrom_append_of_eq hj] at hboth ⊢
  obtain ⟨rfl, hnext⟩ := hrow.untouched ha hun hnew hboth
  exact ⟨hrun.tail hrow, hnext⟩

/-- A run whose events are clean consumes no retry. -/
theorem cleanRun_of_clean {s u : State} {k : Nat} {es : List Event} (h : WriteRun s u) (hphase : s.PhaseInv)
    (hs : s.Untouched k) (hh : u.hist = s.hist ++ es) (hclean : (fullsFrom k es).isSome = true) :
    CleanRun s u := by
  have hkept : CleanSoFar k s u := h.keeps hphase ⟨[], by simp, fun _ => ⟨.refl, k, rfl, hs⟩⟩
    fun _ _ _ ha hfar hrow => hfar.step ha hrow
  obtain ⟨es', hes', hrun⟩ := hkept
  obtain rfl : es' = es := List.append_cancel_left (hes'.symm.trans hh)
  exact (hrun hclean).1

/-- The history of a command of write calls, from its acceptance on. -/
theorem accepted_hist (i : Instr) (s : State) :
    (accepted i s).hist = s.hist ++ ([.acc i.op i.payload.length i.payload] ++ (accepted i s).doneEvents) := by
  rw [accepted, startCall_hist, acceptHeader_hist, List.append_assoc]

/-- A command of write calls whose events are clean consumes no retry. -/
theorem cleanRun_of_completes {i : Instr} {s u : State} (h : s.Ready) (hi : i ≠ .init)
    (hu : Completes i s u) (hclean : Clean (newEvents s u)) : CleanRun (accepted i s) u := by
  have hrun := writeRun_of_completes h hi hu
  obtain ⟨es, hes⟩ := hrun.hist_append
  refine cleanRun_of_clean hrun (phaseInv_accepted i s) (untouched_startCall _ _) hes ?_
  rw [accepted_hist, List.append_assoc] at hes
  rw [newEvents_of_hist hes, Clean, cleanFrom_eq_isSome, List.append_assoc] at hclean
  rwa [fullsFrom_append_of_eq (j := 0) rfl, fullsFrom_append_of_eq (fullsFrom_doneEvents 0 _)] at hclean

/-- A row without a retry leaves three tries in hand. -/
theorem WriteStep.three_tries {s t : State} (h : WriteStep false s t) (hs : s.retries = 3)
    (hw : t.phase.writes = true) : t.retries = 3 := by
  have start (calls : List (List Byte)) (v : State) (hv : (startCall calls v).phase.writes = true) :
      (startCall calls v).retries = 3 := (untouched_startCall calls v).1 hv
  cases h with
  | build | pollFree | pollFull | issue | pace => exact hs
  | nextByte => rfl
  | zeroGiveUp | lastByte => exact start _ _ hw

/-- What every row without a retry keeps holds at the end of a clean run, with the position right and three
tries in hand in every state of it. -/
theorem CleanRun.keeps {P : State → Prop} {i : Instr} {s u : State} (h : CleanRun (accepted i s) u)
    (hs : P (accepted i s))
    (hstep : ∀ a b, a.PhaseInv → a.retries = 3 → P a → WriteStep false a b → P b) : P u := by
  suffices hall : u.PhaseInv ∧ (u.phase.writes = true → u.retries = 3) ∧ P u from hall.2.2
  induction h with
  | refl => exact ⟨phaseInv_accepted i s, (untouched_startCall _ _).1, hs⟩
  | tail _ hrow ih =>
    obtain ⟨ha, hthree, hP⟩ := ih
    have hret := hthree hrow.writes
    exact ⟨hrow.phaseInv ha, hrow.three_tries hret, hstep _ _ ha hret hP hrow⟩

/-! ### The words of a call (R75, R112 f) -/

theorem bufferWords_length (b : List Byte) : (bufferWords b).length = b.length := by
  induction b using bufferWords.induct with
  | case1 => rfl
  | case2 b => rfl
  | case3 b b' rest ih => simpa [bufferWords] using ih

/-- The word of each byte of a call carries the stop flag exactly on the last. -/
theorem bufferWords_getElem? (b : List Byte) (k : Nat) :
    (bufferWords b)[k]? = b[k]?.map fun x => fifoWord x (decide (k + 1 = b.length)) := by
  induction b using bufferWords.induct generalizing k with
  | case1 => rfl
  | case2 b => cases k <;> simp [bufferWords]
  | case3 b b' rest ih =>
    cases k with
    | zero => simp [bufferWords]
    | succ k => simpa [bufferWords] using ih k

theorem callBytes_length (b : List Byte) : (callBytes b).length = (countOf b).toNat := by
  rw [callBytes, List.length_take, Nat.min_eq_left (countOf_le b)]

/-- The word built is the one the call has at the current byte. -/
theorem word_of_wordIsCurrent {s : State} (hcall : s.InCall) (hword : s.WordIsCurrent) :
    (bufferWords (callBytes s.buf))[s.idx.toNat]? = some s.word := by
  obtain ⟨hn, hidx, -⟩ := hcall
  obtain ⟨b, hb, hw⟩ := hword
  have hlast : (s.idx.toNat + 1 = (callBytes s.buf).length) ↔ s.idx + 1 = s.n := by
    rw [callBytes_length, ← hn]
    bv_omega
  have hbyte : (callBytes s.buf)[s.idx.toNat]? = some b := by
    rw [callBytes, ← hn, List.getElem?_take_of_lt hidx, hb]
  rw [bufferWords_getElem?, hbyte, Option.map_some, hw]
  simp only [hlast]

/-- The words a list of calls offers in a clean run. -/
def wordsOf (calls : List (List Byte)) : List Word := (calls.map callBytes).flatMap bufferWords

theorem wordsOf_append (calls later : List (List Byte)) :
    wordsOf (calls ++ later) = wordsOf calls ++ wordsOf later := by
  simp [wordsOf]

theorem wordsOf_cons (b : List Byte) (later : List (List Byte)) :
    wordsOf (b :: later) = bufferWords (callBytes b) ++ wordsOf later := rfl

theorem callBytes_of_countOf {b : List Byte} (h : countOf b = 0) : callBytes b = [] := by
  rw [callBytes, h]
  rfl

theorem wordsOf_passed {calls : List (List Byte)} (h : ∀ c ∈ calls, countOf c = 0) : wordsOf calls = [] := by
  rw [wordsOf, List.flatMap_eq_nil_iff]
  intro b hb
  obtain ⟨c, hc, rfl⟩ := List.mem_map.1 hb
  rw [callBytes_of_countOf (h c hc)]
  rfl

/-- The bytes of the current call that have been offered. -/
def State.sent (s : State) : Nat :=
  match s.phase with
  | .wPace | .wCheck => s.idx.toNat + 1
  | .idle | .i1 | .i2 | .i3 | .i4 | .i5 | .wBuild | .wPoll | .wIssue | .fault => s.idx.toNat

/-- The words the command has still to offer, if no retry is consumed. -/
def State.wordsLeft (s : State) : List Word :=
  if s.phase = .idle then [] else (bufferWords (callBytes s.buf)).drop s.sent ++ wordsOf s.calls

theorem wordsLeft_idle {s : State} (hp : s.phase = .idle) : s.wordsLeft = [] := if_pos hp

theorem wordsLeft_of_sent {s : State} {k : Nat} (hp : s.phase ≠ .idle) (hk : s.sent = k) :
    s.wordsLeft = (bufferWords (callBytes s.buf)).drop k ++ wordsOf s.calls := by
  rw [State.wordsLeft, if_neg hp, hk]

/-- The words left are told by the call, the calls to come and the bytes offered. -/
theorem wordsLeft_eq_of_sent {s t : State} (hs : s.phase ≠ .idle) (ht : t.phase ≠ .idle) (hbuf : t.buf = s.buf)
    (hcalls : t.calls = s.calls) (hsent : s.sent = t.sent) : s.wordsLeft = t.wordsLeft := by
  rw [wordsLeft_of_sent hs hsent, wordsLeft_of_sent ht rfl, hbuf, hcalls]

theorem wordsLeft_startCall (calls : List (List Byte)) (s : State) :
    (startCall calls s).wordsLeft = wordsOf calls := by
  rcases startCall_cases calls s with ⟨hp, -, -, -, hall⟩ |
    ⟨hp, -, -, -, -, hidx, -, -, passed, hpassed, hsplit, -⟩
  · rw [wordsLeft_idle hp, wordsOf_passed hall]
  · have hsent : (startCall calls s).sent = 0 := by
      rw [State.sent, hp, hidx]
      rfl
    have hwords := congrArg wordsOf hsplit
    rw [wordsOf_append, wordsOf_passed hpassed, List.nil_append, wordsOf_cons] at hwords
    rw [wordsLeft_of_sent (by simp [hp]) hsent, List.drop_zero, hwords]

theorem dataWords_append (es later : List Event) : dataWords (es ++ later) = dataWords es ++ dataWords later :=
  List.filterMap_append

/-- The word a row offers: W_ISSUE alone offers one. -/
def State.offers (s : State) : List Word := if s.phase = .wIssue then [s.word] else []

theorem dataWords_doneEvents (s : State) : dataWords s.doneEvents = [] := by
  unfold State.doneEvents
  split_ifs <;> rfl

theorem Event.dataWord_of_isDiag {e : Event} (h : e.isDiag = true) : e.dataWord = none := by
  cases e with
  | diag => rfl
  | _ => cases h

theorem WriteReport.dataWords {c : Bool} {s t : State} {diags : List Event} (h : WriteReport c s t diags) :
    dataWords diags = [] :=
  List.filterMap_eq_nil_iff.2 fun e he => e.dataWord_of_isDiag (h.isDiag e he)

theorem WriteAccess.dataWords {s : State} {access : Option Event} (h : WriteAccess s access) :
    dataWords access.toList = s.offers := by
  unfold State.offers
  cases h with
  | build hp | status hp | pace hp | raw hp =>
    rw [if_neg (by simp [hp])]
    rfl
  | word hp =>
    rw [if_pos hp]
    rfl

/-- The words of the events a row adds. -/
theorem dataWords_row {c : Bool} {s t : State} {access : Option Event} {diags : List Event}
    (ha : WriteAccess s access) (hd : WriteReport c s t diags) :
    dataWords (access.toList ++ (diags ++ t.doneEvents)) = s.offers := by
  rw [dataWords_append, dataWords_append, ha.dataWords, hd.dataWords, dataWords_doneEvents,
    List.append_nil, List.append_nil]

/-- A row without a retry offers the first of the words left, or none. -/
theorem WriteStep.wordsLeft {s t : State} (h : WriteStep false s t) (hphase : s.PhaseInv)
    (hs : s.retries = 3) : s.wordsLeft = s.offers ++ t.wordsLeft := by
  have busy := Phase.ne_idle_of_writes h.writes
  have quiet (hp : s.phase ≠ .wIssue) (h : s.wordsLeft = t.wordsLeft) :
      s.wordsLeft = s.offers ++ t.wordsLeft := by
    rw [State.offers, if_neg hp, List.nil_append, h]
  cases h with
  | build hp => exact quiet (by simp [hp]) (wordsLeft_eq_of_sent busy nofun rfl rfl (by rw [State.sent, hp]; rfl))
  | pollFree hp =>
    exact quiet (by simp [hp]) (wordsLeft_eq_of_sent busy nofun rfl rfl (by rw [State.sent, hp]; rfl))
  | pollFull hp =>
    exact quiet (by simp [hp]) (wordsLeft_eq_of_sent busy (by simp [hp]) rfl rfl rfl)
  | issue hp =>
    obtain ⟨hcall, hword⟩ := (phaseInv_wIssue hp).1 hphase
    have hdrop := List.drop_eq_getElem?_toList_append (l := bufferWords (callBytes s.buf)) (i := s.idx.toNat)
    rw [word_of_wordIsCurrent hcall hword] at hdrop
    rw [State.offers, if_pos hp, wordsLeft_of_sent busy (by rw [State.sent, hp]), hdrop]
    rfl
  | pace hp => exact quiet (by simp [hp]) (wordsLeft_eq_of_sent busy nofun rfl rfl (by rw [State.sent, hp]; rfl))
  | zeroGiveUp hp _ _ hr => exact absurd (hs.symm.trans hr) (by decide)
  | nextByte hp _ _ _ hi =>
    obtain ⟨⟨-, hidx, -⟩, -⟩ := (phaseInv_wCheck hp).1 hphase
    refine quiet (by simp [hp]) (wordsLeft_eq_of_sent busy nofun rfl rfl ?_)
    rw [State.sent, hp]
    change s.idx.toNat + 1 = (s.idx + 1).toNat
    bv_omega
  | lastByte hp _ _ _ hi =>
    obtain ⟨⟨hn, hidx, -⟩, -⟩ := (phaseInv_wCheck hp).1 hphase
    have hend : (bufferWords (callBytes s.buf)).length ≤ s.idx.toNat + 1 := by
      rw [bufferWords_length, callBytes_length, ← hn]
      bv_omega
    refine quiet (by simp [hp]) ?_
    rw [wordsLeft_of_sent busy (by rw [State.sent, hp]), endCall, wordsLeft_startCall,
      List.drop_eq_nil_of_le hend, List.nil_append]

/-! ### Clean commands -/

/-- State `a` occurs in a clean run of command `i` accepted in `s`: the words offered and those left are the
command's, with no failure and no diagnosis. -/
def CleanlyUnderway (i : Instr) (s a : State) : Prop :=
  ∃ es, a.hist = s.hist ++ es ∧ dataWords es ++ a.wordsLeft = wordsOf (callsOf s.par i) ∧ a.res = .clear ∧
    ∀ e ∈ es, e.isDiag = false

theorem Event.isDiag_of_mem_doneEvents {s : State} {e : Event} (h : e ∈ s.doneEvents) : e.isDiag = false := by
  rw [mem_doneEvents h]
  rfl

theorem WriteAccess.isDiag {s : State} {access : Option Event} (h : WriteAccess s access) :
    ∀ e ∈ access, e.isDiag = false := by
  cases h with
  | build => nofun
  | status | word | pace | raw =>
    rintro e ⟨⟩
    rfl

/-- A row that consumes no retry, with three tries in hand, gives no call up. -/
theorem WriteReport.of_clean {s t : State} {diags : List Event} (h : WriteReport false s t diags)
    (hs : s.retries = 3) : diags = [] ∧ t.res = s.res := by
  cases h with
  | none hres => exact ⟨rfl, hres⟩
  | gaveUp _ hwhy =>
    rcases hwhy with ⟨-, hc⟩ | ⟨-, hr⟩
    · cases hc
    · exact absurd (hs.symm.trans hr) (by decide)

/-- What such a row adds to the history. -/
theorem WriteStep.hist_of_clean {s t : State} (h : WriteStep false s t) (hs : s.retries = 3) :
    ∃ access, t.hist = s.hist ++ (access.toList ++ t.doneEvents) ∧ WriteAccess s access ∧ t.res = s.res := by
  obtain ⟨access, diags, hh, haccess, hreport⟩ := h.hist_append
  obtain ⟨rfl, hres⟩ := hreport.of_clean hs
  exact ⟨access, hh, haccess, hres⟩

theorem CleanlyUnderway.step {i : Instr} {s a b : State} (h : CleanlyUnderway i s a) (ha : a.PhaseInv)
    (hret : a.retries = 3) (hrow : WriteStep false a b) : CleanlyUnderway i s b := by
  obtain ⟨es, hes, hwords, hres, hdiag⟩ := h
  obtain ⟨access, hnew, haccess, hsame⟩ := hrow.hist_of_clean hret
  refine ⟨es ++ (access.toList ++ b.doneEvents), by rw [hnew, hes, List.append_assoc], ?_, hsame.trans hres, ?_⟩
  · rw [dataWords_append, dataWords_append, haccess.dataWords, dataWords_doneEvents, List.append_nil,
      List.append_assoc, ← hrow.wordsLeft ha hret, hwords]
  · intro e he
    simp only [List.mem_append, Option.mem_toList] at he
    rcases he with he | he | he
    · exact hdiag e he
    · exact haccess.isDiag e he
    · exact e.isDiag_of_mem_doneEvents he

theorem cleanlyUnderway_accepted (i : Instr) (s : State) : CleanlyUnderway i s (accepted i s) := by
  refine ⟨_, accepted_hist i s, ?_, startCall_res _ _, ?_⟩
  · rw [dataWords_append, dataWords_doneEvents, List.append_nil, accepted, wordsLeft_startCall]
    rfl
  · intro e he
    rcases List.mem_append.1 he with he | he
    · rw [List.mem_singleton.1 he]
      rfl
    · exact e.isDiag_of_mem_doneEvents he

/-- A clean command of write calls offers its words, with the result clear and nothing diagnosed. -/
theorem clean_command {i : Instr} {s u : State} (h : s.Ready) (hi : i ≠ .init) (hu : Completes i s u)
    (hclean : Clean (newEvents s u)) :
    dataWords (newEvents s u) = wordsOf (callsOf s.par i) ∧ u.res = .clear ∧
      ∀ e ∈ newEvents s u, e.isDiag = false := by
  obtain ⟨es, hes, hwords, hres, hdiag⟩ : CleanlyUnderway i s u :=
    (cleanRun_of_completes h hi hu hclean).keeps (cleanlyUnderway_accepted i s)
      fun _ _ ha hret hfar hrow => hfar.step ha hret hrow
  rw [wordsLeft_idle (completes_phase hu), List.append_nil] at hwords
  rw [newEvents_of_hist hes]
  exact ⟨hwords, hres, hdiag⟩

/-- The events INIT adds (R100). -/
theorem newEvents_init {s u : State} (h : s.Ready) (hu : Completes .init s u) :
    newEvents s u = .acc .init 0 [] :: initEvents s.par := by
  rw [completes_init h hu]
  exact newEvents_of_hist (List.append_assoc _ _ _)

/-- INIT offers no word. -/
theorem dataWords_init (p : Params) : dataWords (.acc .init 0 [] :: initEvents p) = [] := rfl

/-- Settles O36: INIT offers no word; any other command that is clean runs through rows without a retry, each of
which offers the first of the words left or none. -/
theorem cleanCommandOffersExactlyItsWords : Obligations.CleanCommandOffersExactlyItsWords := by
  intro i s u h hu hclean
  by_cases hi : i = .init
  · subst hi
    rw [newEvents_init h hu]
    refine ⟨rfl, ?_, ?_⟩
    · rw [completes_init h hu]
      rfl
    · simp [initEvents, Event.isDiag]
  · exact clean_command h hi hu hclean

end Sys2Proof.Machine
end

section
/-! SUPPORT. The steps against the pseudocode (R100, R102, R130): in every state of a command the pseudocode has
a rest, every step leaves that rest as it is, and at the end the rest is the state itself. -/

namespace Sys2Proof.Machine

/-! ### Sequencing of pseudocode -/

@[simp] theorem Flow.next_go (s : State) (k : State → Flow) : (Flow.go s).next k = k s := rfl

theorem Flow.next_assoc (f : Flow) (k l : State → Flow) :
    (f.next k).next l = f.next fun s => (k s).next l := by
  cases f <;> rfl

@[simp] theorem Access.flow_ok {α : Type} (a : α) (s : State) (k : α → State → Flow) :
    (Access.ok a s).flow k = k a s := rfl

theorem Access.flow_next {α : Type} (a : Access α) (k : α → State → Flow) (l : State → Flow) :
    (a.flow k).next l = a.flow fun v s => (k v s).next l := by
  cases a <;> rfl

/-! ### The rest of the pseudocode at each point of an attempt (R102) -/

/-- The state as the pseudocode has it, which knows no phases. -/
def State.unphased (s : State) : State := { s with phase := .idle }

/-- What is left of a command at a byte: the bytes after it and the calls after its call, and how many further
attempts at it are allowed for. -/
structure Remaining where
  byte     : Byte
  last     : Bool
  bytes    : List Byte
  calls    : List (List Byte)
  attempts : Nat

/-- The rest after a call. -/
def afterCall (calls : List (List Byte)) (s : State) : Flow :=
  (writeCallList calls { s with callNo := s.callNo + 1 }).next fun t => .go (finish t)

/-- The rest of a call after a byte that counts as sent. -/
def afterByte (bytes : List Byte) (s : State) : Flow :=
  if bytes = [] then .go s else writeBytes bytes { s with idx := s.idx + 1 }

namespace Remaining

/-- The rest before an attempt, `k` attempts being allowed for. -/
def beforeAttempt (m : Remaining) (k : Nat) (s : State) : Flow :=
  (sendByte k m.byte m.last s (afterByte m.bytes)).next (afterCall m.calls)

/-- The rest after S5: step S6. -/
def afterCheck (m : Remaining) (aborted : Bool) (s : State) : Flow :=
  if s.retries = 0 ∧ (aborted = true ∨ s.par.zeroPolicy = .abort) then afterCall m.calls (recordAbort s)
  else if aborted then m.beforeAttempt m.attempts s
  else (afterByte m.bytes s).next (afterCall m.calls)

/-- The rest before S5. -/
def beforeCheck (m : Remaining) (s : State) : Flow :=
  (regRead .rawIntrStat s).flow fun r t =>
    if abrt r then m.afterCheck true { t with retries := satdec t.retries, cause := .txAborted }
    else m.afterCheck false t

/-- The rest before S4. -/
def beforePace (m : Remaining) (s : State) : Flow := m.beforeCheck (delay s.par.paceN s)

/-- The rest before S3. -/
def beforeIssue (m : Remaining) (s : State) : Flow := (writeStmt .dataCmd s.word s).next m.beforePace

/-- The rest in S2, with at most `k` more reads. -/
def inPoll (m : Remaining) (k : Nat) (s : State) : Flow := (pollLoop k s).next m.beforeIssue

/-- An attempt is S1 and then the poll. -/
theorem beforeAttempt_succ (m : Remaining) (s : State) :
    m.beforeAttempt (m.attempts + 1) s =
      m.inPoll 10 { s with word := fifoWord m.byte m.last, pollCnt := Config.pollInit } := by
  rw [beforeAttempt, sendByte, attemptOnce, Flow.next_assoc, inPoll]
  congr 1
  funext t
  rw [Flow.next_assoc, beforeIssue]
  congr 1
  funext t
  rw [Access.flow_next, beforePace, beforeCheck]
  congr 1
  funext r t
  have settled (aborted : Bool) (t : State) :
      (if t.retries = 0 ∧ (aborted = true ∨ t.par.zeroPolicy = .abort) then Flow.go (recordAbort t)
        else if aborted then sendByte m.attempts m.byte m.last t (afterByte m.bytes)
        else afterByte m.bytes t).next (afterCall m.calls) = m.afterCheck aborted t := by
    unfold afterCheck beforeAttempt
    split_ifs <;> rfl
  by_cases hr : abrt r = true
  · rw [if_pos hr, if_pos hr]
    exact settled true _
  · rw [if_neg hr, if_neg hr]
    exact settled false _

end Remaining

/-- What is left at the byte a state stands at. -/
def State.Stands (s : State) (m : Remaining) : Prop :=
  (callBytes s.buf).drop s.idx.toNat = m.byte :: m.bytes ∧ m.last = (s.idx == s.n - 1) ∧ m.calls = s.calls ∧
    s.retries.toNat ≤ m.attempts + 1

/-- The rest of the pseudocode in a state of a command of write calls is `f`. -/
def State.Rest (s : State) (f : Flow) : Prop :=
  match s.phase with
  | .idle => f = .go s
  | .fault => f = .raised s
  | .wBuild => ∃ m, s.Stands m ∧ f = m.beforeAttempt (m.attempts + 1) s.unphased
  | .wPoll => ∃ m, s.Stands m ∧ f = m.inPoll s.pollCnt.toNat s.unphased
  | .wIssue => ∃ m, s.Stands m ∧ f = m.beforeIssue s.unphased
  | .wPace => ∃ m, s.Stands m ∧ f = m.beforePace s.unphased
  | .wCheck => ∃ m, s.Stands m ∧ f = m.beforeCheck s.unphased
  | .i1 | .i2 | .i3 | .i4 | .i5 => False

theorem rest_wBuild {s : State} (hp : s.phase = .wBuild) (f : Flow) :
    s.Rest f ↔ ∃ m, s.Stands m ∧ f = m.beforeAttempt (m.attempts + 1) s.unphased := by
  rw [State.Rest, hp]
theorem rest_wPoll {s : State} (hp : s.phase = .wPoll) (f : Flow) :
    s.Rest f ↔ ∃ m, s.Stands m ∧ f = m.inPoll s.pollCnt.toNat s.unphased := by
  rw [State.Rest, hp]
theorem rest_wIssue {s : State} (hp : s.phase = .wIssue) (f : Flow) :
    s.Rest f ↔ ∃ m, s.Stands m ∧ f = m.beforeIssue s.unphased := by
  rw [State.Rest, hp]
theorem rest_wPace {s : State} (hp : s.phase = .wPace) (f : Flow) :
    s.Rest f ↔ ∃ m, s.Stands m ∧ f = m.beforePace s.unphased := by
  rw [State.Rest, hp]
theorem rest_wCheck {s : State} (hp : s.phase = .wCheck) (f : Flow) :
    s.Rest f ↔ ∃ m, s.Stands m ∧ f = m.beforeCheck s.unphased := by
  rw [State.Rest, hp]
theorem rest_idle {s : State} (hp : s.phase = .idle) (f : Flow) : s.Rest f ↔ f = .go s := by
  rw [State.Rest, hp]
theorem rest_fault {s : State} (hp : s.phase = .fault) (f : Flow) : s.Rest f ↔ f = .raised s := by
  rw [State.Rest, hp]

/-! ### Starting and ending calls -/

/-- The pseudocode sets the calls to come itself. -/
theorem writeCallList_calls (calls l : List (List Byte)) (s : State) :
    writeCallList calls { s with calls := l } = writeCallList calls s := by
  cases calls <;> rfl

theorem callBytes_ne_nil {b : List Byte} (h : countOf b ≠ 0) : callBytes b ≠ [] := by
  intro hnil
  have hlen := callBytes_length b
  rw [hnil] at hlen
  exact h (BitVec.eq_of_toNat_eq hlen.symm)

/-- The pseudocode of a list of calls is the rest in the state that starts them. -/
theorem rest_startCall (calls : List (List Byte)) (s : State) :
    (startCall calls s).Rest ((writeCallList calls s.unphased).next fun t => .go (finish t)) := by
  induction calls generalizing s with
  | nil => exact (rest_idle rfl _).2 rfl
  | cons c later ih =>
    have hcall : writeCallList (c :: later) s.unphased = (writeBytes (callBytes c) { s.unphased with
        calls := later, buf := c, n := countOf c, idx := 0 }).next fun t =>
          writeCallList later { t with callNo := t.callNo + 1 } := rfl
    rw [hcall]
    by_cases hc : countOf c = 0
    · rw [startCall_skip hc, callBytes_of_countOf hc, hc]
      have hih := ih { s with callNo := s.callNo + 1, buf := c, n := 0, idx := 0 }
      rwa [← writeCallList_calls later later] at hih
    · obtain ⟨b, bytes, hbytes⟩ := List.exists_cons_of_ne_nil (callBytes_ne_nil hc)
      rw [startCall_buffer hc, hbytes, Flow.next_assoc]
      exact (rest_wBuild rfl _).2 ⟨⟨b, 0 == countOf c - 1, bytes, later, 2⟩,
        ⟨hbytes, rfl, rfl, (by decide : Config.retryInit.toNat ≤ 3)⟩, rfl⟩

theorem rest_endCall (s : State) : (endCall s).Rest (afterCall s.calls s.unphased) :=
  rest_startCall s.calls { s with callNo := s.callNo + 1 }

/-! ### Every step leaves the rest as it is -/

theorem beq_sub_one_eq (i n : BitVec 16) : (i == n - 1) = (i + 1 == n) := by
  rw [Bool.eq_iff_iff, beq_iff_eq, beq_iff_eq]
  bv_omega

/-- A phase that makes an access has a rest that raises the Fault when the controller is absent (R63). -/
theorem rest_raiseFault {s : State} {f : Flow} (hphase : s.PhaseInv) (hs : s.Rest f)
    (ha : s.phase.accesses = true) (he : s.env = .absent) : s.raiseFault.Rest f := by
  have he' : s.unphased.env = .absent := he
  rw [rest_fault rfl]
  cases hp : s.phase with
  | idle | wBuild | wPace | fault => simp [hp, Phase.accesses] at ha
  | i1 | i2 | i3 | i4 | i5 => simp [State.Rest, hp] at hs
  | wPoll =>
    obtain ⟨m, -, rfl⟩ := (rest_wPoll hp f).1 hs
    obtain ⟨-, -, -, hlow, -⟩ := (phaseInv_wPoll hp).1 hphase
    obtain ⟨j, hj⟩ := Nat.exists_eq_add_of_le' hlow
    rw [hj, Remaining.inPoll, pollLoop, regRead_absent _ he']
    rfl
  | wIssue =>
    obtain ⟨m, -, rfl⟩ := (rest_wIssue hp f).1 hs
    rw [Remaining.beforeIssue, writeStmt, regWrite_absent _ _ he']
    rfl
  | wCheck =>
    obtain ⟨m, -, rfl⟩ := (rest_wCheck hp f).1 hs
    rw [Remaining.beforeCheck, regRead_absent _ he']
    rfl

/-- Reads of the two flag registers do not look at the phase. -/
theorem regRead_status_unphased {s : State} {v : Word} {e : Env} (h : s.env ≠ .absent)
    (he : s.envTurn.env.readStatus s.par.fifoDepth = (v, e)) :
    regRead .status s.unphased =
      .ok v { s with env := e, hist := s.hist ++ [Event.rd .status v] }.unphased := by
  have hsame : s.unphased.envTurn.env.readStatus s.unphased.par.fifoDepth = (v, e) := he
  rw [regRead_status (s := s.unphased) h, hsame]
  rfl

theorem regRead_rawIntrStat_unphased {s : State} {v : Word} {e : Env} (h : s.env ≠ .absent)
    (he : s.envTurn.env.readRaw = (v, e)) :
    regRead .rawIntrStat s.unphased =
      .ok v { s with env := e, hist := s.hist ++ [Event.rd .rawIntrStat v] }.unphased := by
  have hsame : s.unphased.envTurn.env.readRaw = (v, e) := he
  rw [regRead_rawIntrStat (s := s.unphased) h, hsame]
  rfl

/-- In a poll the reads the pseudocode allows are those the counter still has. -/
theorem inPoll_read {s : State} {v : Word} {e : Env} (m : Remaining) (h : s.env ≠ .absent)
    (he : s.envTurn.env.readStatus s.par.fifoDepth = (v, e)) (hlow : 1 ≤ s.pollCnt.toNat) :
    m.inPoll s.pollCnt.toNat s.unphased =
      if tfnf v then m.beforeIssue { s with env := e, hist := s.hist ++ [Event.rd .status v] }.unphased
      else if s.pollCnt - 1 = 0 then m.beforeIssue { s with
        env := e, hist := s.hist ++ [Event.rd .status v]
        pollCnt := s.pollCnt - 1, retries := s.retries - 1, cause := .fifoTimeout }.unphased
      else m.inPoll (s.pollCnt - 1).toNat { s with
        env := e, hist := s.hist ++ [Event.rd .status v], pollCnt := s.pollCnt - 1 }.unphased := by
  obtain ⟨j, hj⟩ := Nat.exists_eq_add_of_le' hlow
  have hpred : (s.pollCnt - 1).toNat = j := by bv_omega
  rw [hj, Remaining.inPoll, pollLoop, regRead_status_unphased h he, Access.flow_ok, hpred]
  split_ifs with hv hc
  · rfl
  · simp only [State.unphased, hc, if_true]
    rfl
  · simp only [State.unphased, hc, if_false]
    rfl

/-- After the read of RAW_INTR_STAT, by the abort bit (R107). -/
theorem beforeCheck_aborted {s : State} {v : Word} {e : Env} (m : Remaining) (h : s.env ≠ .absent)
    (he : s.envTurn.env.readRaw = (v, e)) (hv : abrt v = true) :
    m.beforeCheck s.unphased = m.afterCheck true { s with
      env := e, hist := s.hist ++ [Event.rd .rawIntrStat v]
      retries := satdec s.retries, cause := .txAborted }.unphased := by
  rw [Remaining.beforeCheck, regRead_rawIntrStat_unphased h he, Access.flow_ok, if_pos hv]
  rfl

theorem beforeCheck_clear {s : State} {v : Word} {e : Env} (m : Remaining) (h : s.env ≠ .absent)
    (he : s.envTurn.env.readRaw = (v, e)) (hv : abrt v = false) :
    m.beforeCheck s.unphased = m.afterCheck false
      { s with env := e, hist := s.hist ++ [Event.rd .rawIntrStat v] }.unphased := by
  rw [Remaining.beforeCheck, regRead_rawIntrStat_unphased h he, Access.flow_ok, if_neg (by simp [hv])]

/-- Step S6 by its three outcomes (R108). -/
theorem afterCheck_giveUp {aborted : Bool} {s : State} (m : Remaining) (hr : s.retries = 0)
    (h : aborted = true ∨ s.par.zeroPolicy = .abort) :
    m.afterCheck aborted s = afterCall m.calls (recordAbort s) := if_pos ⟨hr, h⟩

theorem afterCheck_repeat {s : State} (m : Remaining) (hr : s.retries ≠ 0) :
    m.afterCheck true s = m.beforeAttempt m.attempts s := by
  rw [Remaining.afterCheck, if_neg fun h => hr h.1, if_pos rfl]

theorem afterCheck_sent {s : State} (m : Remaining) (h : s.retries ≠ 0 ∨ s.par.zeroPolicy = .proceed) :
    m.afterCheck false s = (afterByte m.bytes s).next (afterCall m.calls) := by
  have hkeep : ¬ (s.retries = 0 ∧ (false = true ∨ s.par.zeroPolicy = .abort)) := by
    rintro ⟨hzero, hz⟩
    rcases h with hr | hz'
    · exact hr hzero
    · simp [hz'] at hz
  rw [Remaining.afterCheck, if_neg hkeep, if_neg nofun]

/-- The rest of a call after a byte that counts as sent, by whether it is the call's last. -/
theorem afterByte_nil (s : State) : afterByte [] s = .go s := rfl

theorem afterByte_cons (b : Byte) (bytes : List Byte) (s : State) :
    afterByte (b :: bytes) s = sendByte 3 b (s.idx + 1 == s.n - 1)
      { s with idx := s.idx + 1, retries := Config.retryInit, cause := .none } (afterByte bytes) := rfl

/-- The bytes left after the current one. -/
theorem length_of_stands {s : State} {m : Remaining} (hn : s.n = countOf s.buf) (hs : s.Stands m) :
    s.n.toNat = s.idx.toNat + (m.bytes.length + 1) := by
  obtain ⟨hbytes, -⟩ := hs
  have hlen := congrArg List.length hbytes
  rw [List.length_drop, callBytes_length, ← hn, List.length_cons] at hlen
  omega

/-- Every row of a write call leaves the rest of the pseudocode as it is. -/
theorem WriteStep.rest {c : Bool} {s t : State} {f : Flow} (h : WriteStep c s t) (hphase : s.PhaseInv)
    (hs : s.Rest f) (he : s.phase.accesses = true → s.env ≠ .absent) : t.Rest f := by
  have present {p : Phase} (hp : s.phase = p) (ha : p.accesses = true) : s.env ≠ .absent := he (hp ▸ ha)
  cases h with
  | @build _ b hp hb =>
    obtain ⟨m, hm, rfl⟩ := (rest_wBuild hp f).1 hs
    obtain ⟨hbytes, hlast, hcalls, hret⟩ := hm
    have hbyte : s.buf[s.idx.toNat]? = some m.byte := getElem?_of_drop_take hbytes
    obtain rfl : b = m.byte := Option.some.inj (hb.symm.trans hbyte)
    refine (rest_wPoll rfl _).2 ⟨m, ⟨hbytes, hlast, hcalls, hret⟩, ?_⟩
    rw [m.beforeAttempt_succ, hlast, beq_sub_one_eq]
    rfl
  | pollFree hp hread hv =>
    obtain ⟨m, hm, rfl⟩ := (rest_wPoll hp f).1 hs
    obtain ⟨-, -, -, hlow, -⟩ := (phaseInv_wPoll hp).1 hphase
    refine (rest_wIssue rfl _).2 ⟨m, hm, ?_⟩
    rw [inPoll_read m (present hp rfl) hread hlow, if_pos hv]
    rfl
  | pollFull hp hread hv hc =>
    obtain ⟨m, hm, rfl⟩ := (rest_wPoll hp f).1 hs
    obtain ⟨-, -, -, hlow, -⟩ := (phaseInv_wPoll hp).1 hphase
    refine (rest_wPoll (by exact hp) _).2 ⟨m, hm, ?_⟩
    rw [inPoll_read m (present hp rfl) hread hlow, if_neg (by simp [hv]), if_neg (by bv_omega)]
  | pollTimeout hp hread hv hc =>
    obtain ⟨m, ⟨hbytes, hlast, hcalls, hret⟩, rfl⟩ := (rest_wPoll hp f).1 hs
    obtain ⟨-, hpos, -, hlow, -⟩ := (phaseInv_wPoll hp).1 hphase
    refine (rest_wIssue rfl _).2 ⟨m, ⟨hbytes, hlast, hcalls, ?_⟩, ?_⟩
    · change (s.retries - 1).toNat ≤ _
      bv_omega
    · rw [inPoll_read m (present hp rfl) hread hlow, if_neg (by simp [hv]), if_pos (by simp [hc]), hc]
      rfl
  | issue hp =>
    obtain ⟨m, hm, rfl⟩ := (rest_wIssue hp f).1 hs
    refine (rest_wPace rfl _).2 ⟨m, hm, ?_⟩
    have hpresent : s.unphased.env ≠ .absent := present hp rfl
    rw [Remaining.beforeIssue, writeStmt, regWrite_dataCmd _ hpresent]
    rfl
  | pace hp =>
    obtain ⟨m, hm, rfl⟩ := (rest_wPace hp f).1 hs
    exact (rest_wCheck rfl _).2 ⟨m, hm, rfl⟩
  | abortGiveUp hp hread hv hr =>
    obtain ⟨m, ⟨-, -, hcalls, -⟩, rfl⟩ := (rest_wCheck hp f).1 hs
    rw [beforeCheck_aborted m (present hp rfl) hread hv, hr, afterCheck_giveUp m (by rfl) (.inl rfl), hcalls]
    exact rest_endCall _
  | abortRepeat hp hread hv hr =>
    obtain ⟨m, ⟨hbytes, hlast, hcalls, hret⟩, rfl⟩ := (rest_wCheck hp f).1 hs
    have hsat := satdec_toNat s.retries
    have hpos : (satdec s.retries).toNat ≠ 0 := fun h => hr (BitVec.eq_of_toNat_eq h)
    obtain ⟨j, hj⟩ : ∃ j, m.attempts = j + 1 := Nat.exists_eq_succ_of_ne_zero (by omega)
    refine (rest_wBuild rfl _).2 ⟨{ m with attempts := j }, ⟨hbytes, hlast, hcalls, ?_⟩, ?_⟩
    · change (satdec s.retries).toNat ≤ j + 1
      omega
    · rw [beforeCheck_aborted m (present hp rfl) hread hv, afterCheck_repeat m (by exact hr), hj]
      rfl
  | zeroGiveUp hp hread hv hr hz =>
    obtain ⟨m, ⟨-, -, hcalls, -⟩, rfl⟩ := (rest_wCheck hp f).1 hs
    rw [beforeCheck_clear m (present hp rfl) hread hv, afterCheck_giveUp m (by exact hr) (.inr (by exact hz)), hcalls]
    exact rest_endCall _
  | nextByte hp hread hv hr hi =>
    obtain ⟨m, hm, rfl⟩ := (rest_wCheck hp f).1 hs
    obtain ⟨⟨hn, hidx, -⟩, -⟩ := (phaseInv_wCheck hp).1 hphase
    have hlen := length_of_stands hn hm
    obtain ⟨hbytes, -, hcalls, -⟩ := hm
    have hnext : (s.idx + 1).toNat = s.idx.toNat + 1 := by bv_omega
    have hne : m.bytes ≠ [] := by
      intro hnil
      rw [hnil] at hlen
      exact hi (BitVec.eq_of_toNat_eq (hnext.trans hlen.symm))
    obtain ⟨b, bytes, hrest⟩ := List.exists_cons_of_ne_nil hne
    refine (rest_wBuild rfl _).2 ⟨⟨b, s.idx + 1 == s.n - 1, bytes, s.calls, 2⟩,
      ⟨?_, rfl, rfl, (by decide : Config.retryInit.toNat ≤ 3)⟩, ?_⟩
    · change (callBytes s.buf).drop (s.idx + 1).toNat = _
      rw [hnext, ← List.drop_drop, hbytes, hrest]
      rfl
    · rw [beforeCheck_clear m (present hp rfl) hread hv, afterCheck_sent m (by exact hr), hrest, afterByte_cons,
        hcalls]
      rfl
  | lastByte hp hread hv hr hi =>
    obtain ⟨m, hm, rfl⟩ := (rest_wCheck hp f).1 hs
    obtain ⟨⟨hn, hidx, -⟩, -⟩ := (phaseInv_wCheck hp).1 hphase
    have hlen := length_of_stands hn hm
    obtain ⟨-, -, hcalls, -⟩ := hm
    have hnil : m.bytes = [] := by
      rw [← List.length_eq_zero_iff]
      bv_omega
    rw [beforeCheck_clear m (present hp rfl) hread hv, afterCheck_sent m (by exact hr), hnil, afterByte_nil, hcalls]
    exact rest_endCall _

/-! ### The end of a command -/

/-- A run of a command of write calls comes to the end its pseudocode has: to IDLE in the state the pseudocode
computes, or to FAULT where it raises Fault. -/
theorem rest_run {s : State} {f : Flow} (hphase : s.PhaseInv) (hr : s.rst = false) (hs : s.Rest f)
    (hp : s.phase.writes = true ∨ s.phase = .idle) :
    ∃ k u, runSteps k s = .next u ∧
      ((f = .go u ∧ u.phase = .idle ∧ BusyRun k s u) ∨ (f = .raised u ∧ u.phase = .fault)) := by
  induction hw : s.work using Nat.strong_induction_on generalizing s with
  | _ w ih =>
    rcases hp with hwrites | hidle
    · have hbusy := Phase.ne_idle_of_writes hwrites
      by_cases hfault : s.phase.accesses = true ∧ s.env = .absent
      · obtain ⟨ha, he⟩ := hfault
        have hraise := rest_raiseFault hphase hs ha he
        exact ⟨1, s.raiseFault, runSteps_succ 0 (step_absent hr ha he), .inr ⟨(rest_fault rfl f).1 hraise, rfl⟩⟩
      · have he : s.phase.accesses = true → s.env ≠ .absent := fun ha he => hfault ⟨ha, he⟩
        obtain ⟨t, ht⟩ := step_next hphase
        obtain ⟨charged, hrow⟩ : ∃ charged, WriteStep charged s t := by
          rcases step_rows ht with ⟨hrst, -⟩ | ⟨-, hp, -⟩ | ⟨-, ha, habsent, -⟩ | ⟨-, hp, -⟩ | ⟨-, hi⟩ | ⟨-, hrow⟩
          · exact absurd (hrst.symm.trans hr) (by decide)
          · exact absurd hp hbusy
          · exact absurd habsent (he ha)
          · simp [hp, Phase.writes] at hwrites
          · cases hi with
            | i1 hp | i2 hp | i3 hp | i4 hp | i5 hp => simp [hp, Phase.writes] at hwrites
          · exact hrow
        obtain ⟨-, -, -, -, hrst, -⟩ := hrow.frame
        obtain ⟨k, u, hrun, hend⟩ := ih t.work (hw ▸ hrow.work_lt hphase) (hrow.phaseInv hphase)
          (hrst.trans hr) (hrow.rest hphase hs he) hrow.next_phase rfl
        refine ⟨k + 1, u, (runSteps_succ k ht).trans hrun, hend.imp ?_ id⟩
        rintro ⟨hf, hidle, hbusyRun⟩
        exact ⟨hf, hidle, .step hbusy ht hbusyRun⟩
    · exact ⟨0, s, rfl, .inl ⟨(rest_idle hidle f).1 hs, hidle, .refl s⟩⟩

/-! ### INIT (R100) -/

theorem writeStmt_storage {s : State} {r : Reg} (v : Word) (h : s.env ≠ .absent)
    (hr : r = .funcsel ∨ r = .ctrl ∨ r = .tar ∨ r = .enable) :
    writeStmt r v s = .go
      { s with
        regs := s.regs.write v r
        env  := s.envTurn.env
        hist := s.hist ++ [.wr r v] } := by
  rw [writeStmt, regWrite_storage v h hr]
  rfl

/-- The pseudocode of INIT at a present controller computes the state its five steps lead to. -/
theorem initPseudocode_present {s : State} (hp : s.phase = .idle) (he : s.env ≠ .absent) :
    initPseudocode s = .go (initDone { acceptHeader .init [] s with phase := .i1 }) := by
  have he₁ := Env.turn_ne_absent he s.regs.enabled
  have he₂ := Env.turn_ne_absent he₁ s.regs.enabled
  have he₃ := Env.turn_ne_absent he₂ false
  have he₄ := Env.turn_ne_absent he₃ false
  rw [initPseudocode, writeStmt_storage _ (by exact he) (by simp), Flow.next_go,
    writeStmt_storage _ (by exact he₁) (by simp), Flow.next_go,
    writeStmt_storage _ (by exact he₂) (by simp), Flow.next_go,
    writeStmt_storage _ (by exact he₃) (by simp), Flow.next_go,
    writeStmt_storage _ (by exact he₄) (by simp), Flow.next_go]
  simp [initDone, initRegs, initEvents, Env.afterInit, RegSet.write, Stored.put, RegSet.enabled, acceptHeader,
    State.emit, hp]

/-- At an absent controller it raises Fault at its first write. -/
theorem initPseudocode_absent {s : State} (he : s.env = .absent) :
    initPseudocode s = .raised (acceptHeader .init [] s).raiseFault := by
  rw [initPseudocode, writeStmt, regWrite_absent _ _ (by exact he)]
  rfl

/-- The step from phase I1 then raises it too. -/
theorem init_absent {s : State} (hr : s.rst = false) (he : s.env = .absent) :
    runSteps 1 { acceptHeader .init [] s with phase := .i1 } = .next (acceptHeader .init [] s).raiseFault :=
  runSteps_succ 0 (step_absent (by exact hr) rfl he)

theorem commandPseudocode_calls {i : Instr} (hi : i ≠ .init) (s : State) :
    commandPseudocode i s =
      (writeCallList (callsOf s.par i) (acceptHeader i.op i.payload s)).next fun t => .go (finish t) := by
  cases i with
  | init => exact absurd rfl hi
  | _ => rfl

/-- Settles O34: INIT by its five writes; every other command by the rest of its pseudocode, which starting the
calls gives and every row leaves as it is. -/
theorem stepsRefineThePseudocode : Obligations.StepsRefineThePseudocode := by
  intro i s hp hr
  by_cases hi : i = .init
  · subst hi
    by_cases he : s.env = .absent
    · exact ⟨_, 1, exec_init hp, _, init_absent hr he, .inr ⟨initPseudocode_absent he, rfl⟩⟩
    · have hdone := completesIn_init ⟨hp, hr, he⟩
      obtain ⟨t, ht, hrun, -⟩ := hdone
      exact ⟨t, 5, ht, _, hrun, .inl ⟨initPseudocode_present hp he, completesIn_init ⟨hp, hr, he⟩⟩⟩
  · have hrest : (accepted i s).Rest (commandPseudocode i s) := by
      have hidle : (acceptHeader i.op i.payload s).unphased = acceptHeader i.op i.payload s := by
        rw [State.unphased, ← hp]
        rfl
      have hstart := rest_startCall (callsOf s.par i) (acceptHeader i.op i.payload s)
      rwa [hidle, ← commandPseudocode_calls hi] at hstart
    obtain ⟨k, u, hrun, hend⟩ := rest_run (phaseInv_accepted i s) (by simpa [accepted] using hr) hrest
      (startCall_phase _ _)
    refine ⟨accepted i s, k, exec_calls hp hi, u, hrun, hend.imp ?_ id⟩
    rintro ⟨hgo, hidle, hbusy⟩
    exact ⟨hgo, completesIn_of_busyRun (exec_calls hp hi) hbusy hidle⟩

/-! ### A command at an absent controller (R154) -/

/-- A list of calls with a byte among them starts one. -/
theorem startCall_of_byte {calls : List (List Byte)} (h : ∃ c ∈ calls, countOf c ≠ 0) (s : State) :
    (startCall calls s).phase = .wBuild := by
  obtain ⟨c, hc, hne⟩ := h
  rcases startCall_cases calls s with ⟨-, -, -, -, hall⟩ | ⟨hp, -⟩
  · exact absurd (hall c hc) hne
  · exact hp

/-- A write call at an absent controller comes to FAULT in two steps, which change nothing but the word, the
poll counter and the phase. -/
theorem wBuild_absent {s : State} (hphase : s.PhaseInv) (hp : s.phase = .wBuild) (hr : s.rst = false)
    (he : s.env = .absent) :
    ∃ u, runSteps 2 s = .next u ∧ u.phase = .fault ∧ u.hist = s.hist ∧ u.regs = s.regs ∧ u.disp = s.disp := by
  obtain ⟨hcall, -⟩ := (phaseInv_wBuild hp).1 hphase
  obtain ⟨b, hb⟩ := hcall.byte
  have hbuild := (step_wBuild hr hp).trans (buildStep_byte hb)
  exact ⟨_, (runSteps_succ 1 hbuild).trans (runSteps_succ 0 (step_absent (by exact hr) rfl he)), rfl, rfl, rfl, rfl⟩

/-- Settles O15: INIT faults at its first write, any other command at the first poll of its first call with a
byte. -/
theorem commandOnAbsentControllerEndsInFault : Obligations.CommandOnAbsentControllerEndsInFault := by
  intro i s hp hr he hbyte
  by_cases hi : i = .init
  · subst hi
    exact ⟨_, _, 1, exec_init hp, init_absent hr he, rfl, rfl, rfl, rfl⟩
  · have hbuild : (accepted i s).phase = .wBuild := startCall_of_byte (hbyte.resolve_left hi) _
    obtain ⟨u, hrun, hfault, hhist, hregs, hdisp⟩ := wBuild_absent (phaseInv_accepted i s) hbuild
      (by simpa [accepted] using hr) (by simpa [accepted] using he)
    have hwrites : (accepted i s).phase.writes = true := by rw [hbuild]; rfl
    refine ⟨_, u, 2, exec_calls hp hi, hrun, hfault, ?_, hregs.trans (startCall_regs _ _), ?_⟩
    · rw [hhist, accepted_hist, doneEvents_of_writes hwrites, List.append_nil]
    · rw [hdisp, accepted, startCall_disp]
      exact dispAfter_of_writes hwrites _

end Sys2Proof.Machine
end

section
/-! SUPPORT. What a command of write calls does whatever the environment answers: its counts of words, reads,
delays and checks (R112 d), the words of a WRITE (R112 b), and the ghost display state (R136). -/

namespace Sys2Proof.Machine

/-! ### Counts of events (R112 d) -/

/-- One row of phase `p`, none of another. -/
def oneIn (p q : Phase) : Nat := if q = p then 1 else 0

theorem doneEvents_countP {kind : Event → Bool} (h : ∀ w, kind (.done w) = false) (s : State) :
    s.doneEvents.countP kind = 0 := by
  unfold State.doneEvents
  split_ifs
  · simp [h]
  · rfl

theorem WriteReport.countP {kind : Event → Bool} (h : ∀ k i c, kind (.diag k i c) = false) {c : Bool}
    {s t : State} {diags : List Event} (hd : WriteReport c s t diags) : diags.countP kind = 0 := by
  cases hd with
  | none => rfl
  | gaveUp => simp [h]

/-- How many events of a kind the row of each phase adds, if no report is of that kind. -/
theorem WriteAccess.countP {s : State} {access : Option Event} (h : WriteAccess s access) :
    access.toList.countP Event.isStatusRead = oneIn .wPoll s.phase ∧
      access.toList.countP Event.isDelay = oneIn .wPace s.phase ∧
      access.toList.countP Event.isRawRead = oneIn .wCheck s.phase := by
  cases h with
  | build hp | status hp | word hp | pace hp | raw hp =>
    rw [hp]
    exact ⟨rfl, rfl, rfl⟩

theorem offers_length (s : State) : s.offers.length = oneIn .wIssue s.phase := by
  unfold State.offers oneIn
  split_ifs <;> rfl

/-- The delays and the checks owed by a word already offered. -/
def State.delaysOwed (s : State) : Nat := oneIn .wPace s.phase
def State.checksOwed (s : State) : Nat := oneIn .wPace s.phase + oneIn .wCheck s.phase

theorem startCall_owes (calls : List (List Byte)) (s : State) :
    (startCall calls s).delaysOwed = 0 ∧ (startCall calls s).checksOwed = 0 := by
  rcases startCall_cases calls s with ⟨hp, -⟩ | ⟨hp, -⟩ <;>
    exact ⟨by rw [State.delaysOwed, hp]; rfl, by rw [State.checksOwed, hp]; rfl⟩

/-- A delay and a check are owed by each word until W_PACE and W_CHECK have made them. -/
theorem WriteStep.owes {c : Bool} {s t : State} (h : WriteStep c s t) :
    t.delaysOwed + oneIn .wPace s.phase = s.delaysOwed + oneIn .wIssue s.phase ∧
      t.checksOwed + oneIn .wCheck s.phase = s.checksOwed + oneIn .wIssue s.phase := by
  unfold State.delaysOwed State.checksOwed
  cases h with
  | build hp | pollFree hp | pollTimeout hp | issue hp | pace hp | abortRepeat hp | nextByte hp =>
    rw [hp]
    exact ⟨rfl, rfl⟩
  | pollFull hp =>
    simp only [hp]
    exact ⟨rfl, rfl⟩
  | abortGiveUp hp | zeroGiveUp hp | lastByte hp =>
    obtain ⟨hd, hc⟩ := startCall_owes _ _
    rw [hp]
    exact ⟨congrArg (· + 0) hd, congrArg (· + 1) hc⟩

/-- State `a` occurs in the run of command `i` accepted in `s`: the events counted so far and those the rest of
the run may add are within bounds. -/
structure Counted (i : Instr) (s a : State) (es : List Event) : Prop where
  hist   : a.hist = s.hist ++ es
  words  : (dataWords es).length + a.costLeft (oneIn .wIssue) ≤ 3 * bytesOf s.par i
  reads  : es.countP Event.isStatusRead + a.costLeft (oneIn .wPoll) ≤ 30 * bytesOf s.par i
  delays : es.countP Event.isDelay + a.delaysOwed = (dataWords es).length
  checks : es.countP Event.isRawRead + a.checksOwed = (dataWords es).length

theorem Counted.step {i : Instr} {s a b : State} {es : List Event} {c : Bool} (h : Counted i s a es)
    (ha : a.PhaseInv) (hrow : WriteStep c a b) : ∃ es', Counted i s b es' := by
  obtain ⟨access, diags, hnew, haccess, hreport⟩ := hrow.hist_append
  obtain ⟨hstatus, hdelay, hraw⟩ := haccess.countP
  obtain ⟨hdelays, hchecks⟩ := hrow.owes
  have hwords := hrow.costLeft_le ha (oneIn .wIssue)
  have hreads := hrow.costLeft_le ha (oneIn .wPoll)
  have hlen : (dataWords (es ++ (access.toList ++ (diags ++ b.doneEvents)))).length =
      (dataWords es).length + oneIn .wIssue a.phase := by
    rw [dataWords_append, dataWords_row haccess hreport, List.length_append, offers_length]
  have count {kind : Event → Bool} (hd : ∀ w, kind (.done w) = false)
      (hg : ∀ k i c, kind (.diag k i c) = false) :
      (es ++ (access.toList ++ (diags ++ b.doneEvents))).countP kind =
        es.countP kind + access.toList.countP kind := by
    rw [List.countP_append, List.countP_append, List.countP_append, hreport.countP hg, doneEvents_countP hd]
    rfl
  refine ⟨_, ⟨by rw [hnew, h.hist, List.append_assoc], ?_, ?_, ?_, ?_⟩⟩
  · have := h.words
    omega
  · have := h.reads
    rw [count (fun _ => rfl) fun _ _ _ => rfl]
    omega
  · have := h.delays
    rw [count (fun _ => rfl) fun _ _ _ => rfl]
    omega
  · have := h.checks
    rw [count (fun _ => rfl) fun _ _ _ => rfl]
    omega

theorem counted_accepted (i : Instr) (s : State) : ∃ es, Counted i s (accepted i s) es := by
  have hwords := costLeft_startCall (oneIn .wIssue) (callsOf s.par i) (acceptHeader i.op i.payload s)
  have hreads := costLeft_startCall (oneIn .wPoll) (callsOf s.par i) (acceptHeader i.op i.payload s)
  obtain ⟨hdelays, hchecks⟩ := startCall_owes (callsOf s.par i) (acceptHeader i.op i.payload s)
  have hnone : dataWords ([.acc i.op i.payload.length i.payload] ++ (accepted i s).doneEvents) = [] := by
    rw [dataWords_append, dataWords_doneEvents]
    rfl
  have count {kind : Event → Bool} (hd : ∀ w, kind (.done w) = false) (ha : ∀ o n b, kind (.acc o n b) = false) :
      ([Event.acc i.op i.payload.length i.payload] ++ (accepted i s).doneEvents).countP kind = 0 := by
    rw [List.countP_append, doneEvents_countP hd]
    simp [ha]
  refine ⟨_, ⟨accepted_hist i s, ?_, ?_, ?_, ?_⟩⟩
  · rw [hnone, List.length_nil, Nat.zero_add]
    exact hwords
  · rw [count (fun _ => rfl) fun _ _ _ => rfl, Nat.zero_add]
    exact hreads
  · rw [hnone, count (fun _ => rfl) fun _ _ _ => rfl, accepted, hdelays]
    rfl
  · rw [hnone, count (fun _ => rfl) fun _ _ _ => rfl, accepted, hchecks]
    rfl

/-- Settles O41: INIT makes none of these accesses; of every other command each row pays its cost. -/
theorem accessesPerByteAreBounded : Obligations.AccessesPerByteAreBounded := by
  intro i s u h hu
  by_cases hi : i = .init
  · subst hi
    rw [newEvents_init h hu]
    exact ⟨Nat.zero_le _, Nat.zero_le _, rfl, rfl⟩
  · have hidle := completes_phase hu
    obtain ⟨es, hes⟩ : ∃ es, Counted i s u es :=
      (writeRun_of_completes h hi hu).keeps (P := fun a => ∃ es, Counted i s a es) (phaseInv_accepted i s)
        (counted_accepted i s) fun _ _ _ ha ⟨_, hcounted⟩ hrow => hcounted.step ha hrow
    have hdelays := hes.delays
    have hchecks := hes.checks
    rw [State.delaysOwed, hidle] at hdelays
    rw [State.checksOwed, hidle] at hchecks
    rw [newEvents_of_hist hes.hist]
    exact ⟨(Nat.le_add_right _ _).trans hes.words, (Nat.le_add_right _ _).trans hes.reads, hdelays, hchecks⟩

/-! ### The words of a WRITE (R112 b) -/

/-- Words in order, each as often as `tries` says. -/
def repeated (tries : List Nat) (ws : List Word) : List Word := (List.zipWith List.replicate tries ws).flatten

/-- The repetitions of one more word follow those of the words before it. -/
theorem repeated_concat {tries : List Nat} {ws : List Word} {w : Word} (h : ws[tries.length]? = some w)
    (k : Nat) : repeated (tries ++ [k]) ws = repeated tries ws ++ List.replicate k w := by
  induction tries generalizing ws with
  | nil =>
    obtain ⟨x, xs, rfl⟩ := List.exists_cons_of_ne_nil (l := ws) (by rintro rfl; cases h)
    cases h
    simp [repeated]
  | cons k' tries ih =>
    obtain ⟨x, xs, rfl⟩ := List.exists_cons_of_ne_nil (l := ws) (by rintro rfl; cases h)
    have := ih (ws := xs) (by simpa using h)
    simp only [repeated, List.cons_append, List.zipWith_cons_cons, List.flatten_cons, List.append_assoc] at this ⊢
    rw [this]

/-- Repetition counts between one and three. -/
def OneToThree (tries : List Nat) : Prop := ∀ k ∈ tries, 1 ≤ k ∧ k ≤ 3

theorem OneToThree.concat {tries : List Nat} {k : Nat} (h : OneToThree tries) (hk : 1 ≤ k ∧ k ≤ 3) :
    OneToThree (tries ++ [k]) := by
  intro j hj
  rcases List.mem_append.1 hj with hj | hj
  · exact h j hj
  · exact List.mem_singleton.1 hj ▸ hk

/-- The attempts at the current byte still possible that will offer its word. -/
def State.offersLeft (s : State) : Nat :=
  match s.phase with
  | .wBuild | .wPoll => s.retries.toNat
  | .wIssue => s.retries.toNat - 1 + 1
  | .wPace | .wCheck => s.retries.toNat - 1
  | .idle | .i1 | .i2 | .i3 | .i4 | .i5 | .fault => 0

/-- In a WRITE of `b`: every byte before the current one has been offered one to three times, the current one
`k` times, and it will be offered no more than three times in all. -/
structure AtByte (b : List Byte) (a : State) (ws : List Word) (tries : List Nat) (k : Nat) : Prop where
  buf    : a.buf = b
  calls  : a.calls = []
  fail   : a.res.fail = false
  before : OneToThree tries
  length : tries.length = a.idx.toNat
  words  : ws = repeated (tries ++ [k]) (bufferWords b)
  budget : k + a.offersLeft ≤ 3
  given  : a.phase = .wPace ∨ a.phase = .wCheck → 1 ≤ k

/-- At the end of a WRITE of `b`: the words offered are those of an initial part of it, each one to three times. -/
def PrefixOffered (b : List Byte) (r : Result) (ws : List Word) : Prop :=
  ∃ tries, OneToThree tries ∧ ws = repeated tries (bufferWords b) ∧
    tries.length = (if r.fail then r.idx.toNat + 1 else b.length) ∧ tries.length ≤ b.length

/-- What a WRITE of `b` accepted in `s` has offered when state `a` occurs in its run. -/
def Offering (b : List Byte) (s a : State) : Prop :=
  ∃ es, a.hist = s.hist ++ es ∧
    if a.phase = .idle then PrefixOffered b a.res (dataWords es)
    else ∃ tries k, AtByte b a (dataWords es) tries k

/-- With no calls to come the end of a call is the end of the command. -/
theorem endCall_phase_of_nil {s : State} (h : s.calls = []) : (endCall s).phase = .idle := by
  rw [endCall, h]
  rfl

theorem wordOf_byte {b : List Byte} {s : State} (hb : payloadFits b) (hbuf : s.buf = b) (hcall : s.InCall)
    (hword : s.WordIsCurrent) : (bufferWords b)[s.idx.toNat]? = some s.word := by
  have := word_of_wordIsCurrent hcall hword
  rwa [hbuf, callBytes_eq hb] at this

/-- The current byte as the last one offered. -/
theorem AtByte.prefixOffered {b : List Byte} {a : State} {ws : List Word} {tries : List Nat} {k : Nat}
    (h : AtByte b a ws tries k) (hp : a.phase = .wCheck) (hb : payloadFits b) (hcall : a.InCall) {r : Result}
    (hr : (r.fail = true ∧ r.idx = a.idx) ∨ (r.fail = false ∧ a.idx + 1 = a.n)) :
    PrefixOffered b r ws := by
  obtain ⟨hn, hidx, -⟩ := hcall
  have hlen : a.n.toNat = b.length := by rw [hn, h.buf, countOf_toNat hb]
  have hbudget := h.budget
  refine ⟨tries ++ [k], h.before.concat ⟨h.given (.inr hp), by omega⟩, h.words, ?_, ?_⟩
  · rw [List.length_append, h.length]
    rcases hr with ⟨hfail, hri⟩ | ⟨hfail, hlast⟩
    · rw [hfail, hri]
      rfl
    · rw [hfail, ← hlen]
      simp only [List.length_singleton, Bool.false_eq_true, if_false]
      bv_omega
  · rw [List.length_append, h.length, List.length_singleton]
    omega

/-- Every row of a WRITE offers no word, or the current one once more. -/
theorem Offering.step {b : List Byte} {s a t : State} {c : Bool} (hb : payloadFits b) (h : Offering b s a)
    (ha : a.PhaseInv) (hrow : WriteStep c a t) : Offering b s t := by
  obtain ⟨es, hes, hstate⟩ := h
  rw [if_neg (Phase.ne_idle_of_writes hrow.writes)] at hstate
  obtain ⟨tries, k, hat⟩ := hstate
  obtain ⟨access, diags, hnew, haccess, hreport⟩ := hrow.hist_append
  have hcall := inCall_of_writes hrow.writes ha
  refine ⟨es ++ (access.toList ++ (diags ++ t.doneEvents)), by rw [hnew, hes, List.append_assoc], ?_⟩
  rw [dataWords_append, dataWords_row haccess hreport]
  have quiet (hp : a.phase ≠ .wIssue) : dataWords es ++ a.offers = dataWords es := by
    rw [State.offers, if_neg hp, List.append_nil]
  obtain ⟨hbuf, hcalls, hfail, hbefore, hlength, hwords, hbudget, hgiven⟩ := hat
  cases hrow with
  | build hp =>
    rw [State.offersLeft, hp] at hbudget
    rw [quiet (by simp [hp]), if_neg nofun]
    exact ⟨tries, k, ⟨hbuf, hcalls, hfail, hbefore, hlength, hwords, hbudget, nofun⟩⟩
  | pollFree hp =>
    obtain ⟨-, hret, -⟩ := (phaseInv_wPoll hp).1 ha
    have hleft : a.offersLeft = a.retries.toNat := by rw [State.offersLeft, hp]
    rw [quiet (by simp [hp]), if_neg nofun]
    refine ⟨tries, k, ⟨hbuf, hcalls, hfail, hbefore, hlength, hwords, ?_, nofun⟩⟩
    change k + (a.retries.toNat - 1 + 1) ≤ 3
    omega
  | pollFull hp =>
    rw [State.offersLeft, hp] at hbudget
    rw [quiet (by simp [hp]), if_neg (by simp [hp])]
    refine ⟨tries, k, ⟨hbuf, hcalls, hfail, hbefore, hlength, hwords, ?_, by simp [hp]⟩⟩
    rw [State.offersLeft, hp]
    exact hbudget
  | pollTimeout hp =>
    obtain ⟨-, hret, -⟩ := (phaseInv_wPoll hp).1 ha
    have hleft : a.offersLeft = a.retries.toNat := by rw [State.offersLeft, hp]
    rw [quiet (by simp [hp]), if_neg nofun]
    refine ⟨tries, k, ⟨hbuf, hcalls, hfail, hbefore, hlength, hwords, ?_, nofun⟩⟩
    change k + ((a.retries - 1).toNat - 1 + 1) ≤ 3
    bv_omega
  | issue hp =>
    obtain ⟨-, hword⟩ := (phaseInv_wIssue hp).1 ha
    have hcurrent := wordOf_byte hb hbuf hcall hword
    have hleft : a.offersLeft = a.retries.toNat - 1 + 1 := by rw [State.offersLeft, hp]
    rw [← hlength] at hcurrent
    rw [if_neg nofun]
    refine ⟨tries, k + 1, ⟨hbuf, hcalls, hfail, hbefore, hlength, ?_, ?_, fun _ => Nat.le_add_left 1 k⟩⟩
    · rw [State.offers, if_pos hp, hwords, repeated_concat hcurrent, repeated_concat hcurrent,
        List.replicate_succ', List.append_assoc]
    · change k + 1 + (a.retries.toNat - 1) ≤ 3
      omega
  | pace hp =>
    rw [State.offersLeft, hp] at hbudget
    rw [quiet (by simp [hp]), if_neg nofun]
    exact ⟨tries, k, ⟨hbuf, hcalls, hfail, hbefore, hlength, hwords, hbudget, fun _ => hgiven (.inl hp)⟩⟩
  | abortGiveUp hp | zeroGiveUp hp =>
    have hat : AtByte b a (dataWords es) tries k :=
      ⟨hbuf, hcalls, hfail, hbefore, hlength, hwords, hbudget, hgiven⟩
    rw [quiet (by simp [hp]), if_pos (endCall_phase_of_nil (by exact hcalls)), endCall_res, recordAbort_res,
      Result.recordAbort_of_not_fail hfail]
    exact hat.prefixOffered hp hb hcall (.inl ⟨rfl, rfl⟩)
  | abortRepeat hp _ _ hr =>
    have hret := satdec_toNat a.retries
    have hleft : a.offersLeft = a.retries.toNat - 1 := by rw [State.offersLeft, hp]
    rw [quiet (by simp [hp]), if_neg nofun]
    refine ⟨tries, k, ⟨hbuf, hcalls, hfail, hbefore, hlength, hwords, ?_, nofun⟩⟩
    change k + (satdec a.retries).toNat ≤ 3
    omega
  | nextByte hp _ _ _ hi =>
    obtain ⟨hn, hidx, -⟩ := hcall
    have hnext : (a.idx + 1).toNat = a.idx.toNat + 1 := by bv_omega
    have hlen : a.n.toNat = b.length := by rw [hn, hbuf, countOf_toNat hb]
    have hlater : tries.length + 1 < (bufferWords b).length := by
      have hne : (a.idx + 1).toNat ≠ a.n.toNat := fun h => hi (BitVec.eq_of_toNat_eq h)
      rw [bufferWords_length, hlength]
      omega
    rw [quiet (by simp [hp]), if_neg nofun]
    refine ⟨tries ++ [k], 0, ⟨hbuf, hcalls, hfail,
      hbefore.concat ⟨hgiven (.inr hp), (Nat.le_add_right _ _).trans hbudget⟩, ?_, ?_, (by decide : 0 + 3 ≤ 3), nofun⟩⟩
    · rw [List.length_append, hlength]
      exact hnext.symm
    · rw [repeated_concat (tries := tries ++ [k]) (w := (bufferWords b)[tries.length + 1])
        (by rw [List.length_append]; exact List.getElem?_eq_getElem hlater)]
      simpa using hwords
  | lastByte hp _ _ _ hi =>
    have hat : AtByte b a (dataWords es) tries k :=
      ⟨hbuf, hcalls, hfail, hbefore, hlength, hwords, hbudget, hgiven⟩
    rw [quiet (by simp [hp]), if_pos (endCall_phase_of_nil (by exact hcalls)), endCall_res]
    exact hat.prefixOffered hp hb hcall (.inr ⟨hfail, hi⟩)

theorem offering_accepted (b : List Byte) (hb : payloadFits b) (s : State) :
    Offering b s (accepted (.write b) s) := by
  have hnone : dataWords ([.acc .write b.length b] ++ (accepted (.write b) s).doneEvents) = [] := by
    rw [dataWords_append, dataWords_doneEvents]
    rfl
  refine ⟨_, accepted_hist _ s, ?_⟩
  rw [show Instr.op (.write b) = .write from rfl, show Instr.payload (.write b) = b from rfl, hnone]
  by_cases hc : countOf b = 0
  · have hnil : b = [] := by
      rw [← List.length_eq_zero_iff, ← countOf_toNat hb, hc]
      rfl
    subst hnil
    exact ⟨[], nofun, rfl, rfl, Nat.le_refl 0⟩
  · rw [accepted, callsOf, startCall_buffer hc, if_neg nofun]
    refine ⟨[], 0, ⟨rfl, rfl, rfl, nofun, rfl, ?_, (by decide : 0 + 3 ≤ 3), nofun⟩⟩
    cases hw : bufferWords b <;> rfl

/-- Settles O40: every row of a WRITE offers no word, or the current one once more and no more than three times
in all. -/
theorem writeOffersAPrefixEachWordOneToThreeTimes : Obligations.WriteOffersAPrefixEachWordOneToThreeTimes := by
  intro b s u h hb hu
  obtain ⟨es, hes, hoffered⟩ : Offering b s u :=
    (writeRun_of_completes (i := .write b) h nofun hu).keeps (phaseInv_accepted _ s) (offering_accepted b hb s)
      fun _ _ _ ha hoff hrow => hoff.step hb ha hrow
  rw [if_pos (completes_phase hu)] at hoffered
  rw [newEvents_of_hist hes]
  exact hoffered

/-! ### The ghost display state (R136) -/

/-- Where a clean CLEAR_DISPLAY or DISPLAY_TEXT leads. -/
theorem Disp.moved_eq (target d : Disp) :
    Disp.moved target d = if d = .uninitialized ∨ d = .unknown then d else target := by
  cases d <;> rfl

/-- Settles O42: the display state moves at the `Done`, by the command and the FAIL bit. -/
theorem displayStateAfterACommand : Obligations.DisplayStateAfterACommand := by
  intro i s u h hu
  by_cases hi : i = .init
  · subst hi
    have hdisp : u.disp = s.disp := by rw [completes_init h hu]; rfl
    exact ⟨fun _ => hdisp, fun hne => absurd rfl hne, fun _ => ⟨by simp, nofun, nofun, nofun⟩⟩
  · have hway := underway_of_completes h hi hu
    have hdisp : u.disp = Disp.after i.op u.res.fail s.disp := by
      rw [hway.disp, State.dispAfter, if_pos (completes_phase hu), hway.op]
    rw [hdisp]
    refine ⟨fun hinit => absurd hinit hi, fun _ hfail => ?failed, fun hfail => ⟨?raw, ?_, ?_, ?_⟩⟩
    case failed =>
      rw [hfail]
      cases i with
      | init => exact absurd rfl hi
      | _ => rfl
    case raw => rintro b (rfl | rfl | rfl) <;> rfl
    all_goals rw [hfail]
    · rintro rfl
      rfl
    · rintro rfl
      exact Disp.moved_eq .cleared s.disp
    · rintro t rfl
      exact Disp.moved_eq .displayingText s.disp

end Sys2Proof.Machine
end

section
/-! SUPPORT. Claims about the bus (R114, R137, R170, R177): the storage registers by the history, what a command
adds to a run of which the bus may be spoken, the words as transactions, and where the claim is refused. -/

namespace Sys2Proof.Machine

/-! ### The storage registers by the history (R57, R91) -/

theorem regsAfter_append (es later : List Event) :
    regsAfter (es ++ later) = later.foldl Event.applied (regsAfter es) := List.foldl_append

theorem Event.applied_of_not_configuration {e : Event} (h : e.isConfiguration = false) (g : RegSet) :
    e.applied g = g := by
  cases e with
  | wr r v =>
    cases r with
    | dataCmd | rawIntrStat | status => rfl
    | funcsel | ctrl | tar | enable => cases h
  | _ => rfl

theorem foldl_applied_of_not_configuration {es : List Event} (h : ∀ e ∈ es, e.isConfiguration = false)
    (g : RegSet) : es.foldl Event.applied g = g := by
  induction es with
  | nil => rfl
  | cons e es ih =>
    obtain ⟨he, hes⟩ := List.forall_mem_cons.1 h
    rw [List.foldl_cons, e.applied_of_not_configuration he, ih hes]

theorem State.KeepsStorage.regsRecorded {s t : State} (h : s.KeepsStorage t) (hs : s.RegsRecorded) :
    t.RegsRecorded := by
  obtain ⟨hregs, es, hh, hes⟩ := h
  rw [State.RegsRecorded, hregs, hh, regsAfter_append, foldl_applied_of_not_configuration hes, ← hs]

theorem InitStep.regsRecorded {s t : State} (h : InitStep s t) (hs : s.RegsRecorded) : t.RegsRecorded := by
  unfold State.RegsRecorded at hs ⊢
  cases h with
  | i1 | i2 | i3 | i4 =>
    rw [regsAfter_append, ← hs]
    rfl
  | i5 =>
    rw [regsAfter_append, regsAfter_append, ← hs]
    rfl

/-- Settles O49: a reset forgets both, a row of INIT records its write, and every other row leaves the registers
alone and records no write to them. -/
theorem registersHoldWhatTheHistorySays : Obligations.RegistersHoldWhatTheHistorySays := by
  refine ⟨rfl, fun s t hs h => ?_⟩
  rcases step_rows h with ⟨-, rfl⟩ | ⟨-, hp, hi⟩ | ⟨-, -, -, rfl⟩ | ⟨-, -, rfl⟩ | ⟨-, hi⟩ | ⟨-, charged, hw⟩
  · rfl
  · exact (keepsStorage_idleStep hp hi).regsRecorded hs
  · exact hs
  · exact hs
  · exact hi.regsRecorded hs
  · exact hw.keepsStorage.regsRecorded hs

/-! ### Words under the launch premise (R114) -/

theorem underPremise_append (p : Params) (g : RegSet) (es later : List Event) :
    underPremise p g (es ++ later) =
      (underPremise p g es && underPremise p (es.foldl Event.applied g) later) := by
  induction es generalizing g with
  | nil => rfl
  | cons e es ih => simp [underPremise, ih, Bool.and_assoc]

/-- With the registers configured and none of them written, every word is offered under the premise. -/
theorem underPremise_of_configured {p : Params} {g : RegSet} (hg : g.Configured p) {es : List Event}
    (h : ∀ e ∈ es, e.isConfiguration = false) : underPremise p g es = true := by
  induction es with
  | nil => rfl
  | cons e es ih =>
    obtain ⟨he, hes⟩ := List.forall_mem_cons.1 h
    rw [underPremise, e.applied_of_not_configuration he, ih hes, decide_eq_true hg, Bool.or_true, Bool.and_true]

/-! ### What a completed command adds to the run -/

theorem WriteRun.keepsStorage {s u : State} (h : WriteRun s u) : s.KeepsStorage u := by
  induction h with
  | refl => exact keepsStorage_of_eq rfl rfl
  | tail _ hlast ih =>
    obtain ⟨charged, hrow⟩ := hlast
    exact ih.trans hrow.keepsStorage

/-- Any command but INIT leaves the storage registers alone. -/
theorem keepsStorage_of_completes {i : Instr} {s u : State} (h : s.Ready) (hi : i ≠ .init)
    (hu : Completes i s u) : s.KeepsStorage u :=
  (keepsStorage_exec h.1 (exec_calls h.1 hi)).trans (writeRun_of_completes h hi hu).keepsStorage

/-- The block is ready again after a command, with the same parameters, past and a longer history. -/
theorem ready_of_completes {i : Instr} {s u : State} (h : s.Ready) (hu : Completes i s u) :
    u.Ready ∧ u.par = s.par ∧ u.past = s.past ∧ ∃ es, u.hist = s.hist ++ es := by
  by_cases hi : i = .init
  · subst hi
    have hturn : ∀ {e : Env} (b : Bool), e ≠ .absent → e.turn b ≠ .absent := fun b he =>
      Env.turn_ne_absent he b
    rw [completes_init h hu]
    exact ⟨⟨rfl, h.2.1, hturn _ (hturn _ (hturn _ (hturn _ (hturn _ h.2.2))))⟩, rfl, rfl, _,
      List.append_assoc _ _ _⟩
  · have hway := underway_of_completes h hi hu
    obtain ⟨es, hes, -⟩ := hway.hist
    exact ⟨⟨completes_phase hu, hway.rst.trans h.2.1, hway.env⟩, hway.par, hway.past, _, hes⟩

/-- Fewer full reads in a row behind the block make no history unclean. -/
theorem fullsFrom_isSome_of_le {j k : Nat} (hjk : j ≤ k) {es : List Event}
    (h : (fullsFrom k es).isSome = true) : (fullsFrom j es).isSome = true := by
  induction es generalizing j k with
  | nil => rfl
  | cons e es ih =>
    rw [fullsFrom_cons] at h ⊢
    obtain ⟨k', hk', hk⟩ : ∃ k', fullsAfter k e = some k' ∧ (fullsFrom k' es).isSome = true := by
      cases hk : fullsAfter k e with
      | none => simp [hk] at h
      | some k' => exact ⟨k', rfl, by simpa [hk] using h⟩
    obtain ⟨j', hj', hle⟩ : ∃ j', fullsAfter j e = some j' ∧ j' ≤ k' := by
      unfold fullsAfter at hk' ⊢
      split at hk'
      · split_ifs at hk' with hv hlt
        · cases hk'
          exact ⟨0, if_pos hv, Nat.le_refl 0⟩
        · cases hk'
          exact ⟨j + 1, by rw [if_neg hv, if_pos (by omega)], Nat.succ_le_succ hjk⟩
      · split_ifs at hk' with hv
        cases hk'
        exact ⟨0, if_neg hv, Nat.le_refl 0⟩
      · cases hk'
        exact ⟨0, rfl, Nat.le_refl 0⟩
      · cases hk'
        exact ⟨j, rfl, hjk⟩
    rw [hj', Option.bind_some]
    exact ih hle hk

/-- The later part of a clean history is clean. -/
theorem Clean.append_right {es later : List Event} (h : Clean (es ++ later)) : Clean later := by
  obtain ⟨k, hk⟩ := clean_iff.1 h.of_append
  rw [Clean, cleanFrom_eq_isSome, fullsFrom_append_of_eq hk] at h
  rw [Clean, cleanFrom_eq_isSome]
  exact fullsFrom_isSome_of_le (Nat.zero_le k) h

theorem offeredWords_append (run later : List RunEvent) :
    offeredWords (run ++ later) = offeredWords run ++ offeredWords later := List.filterMap_append

theorem offeredWords_block (es : List Event) : offeredWords (es.map .block) = dataWords es :=
  List.filterMap_map ..

theorem offeredWords_cons (e : RunEvent) (run : List RunEvent) :
    offeredWords (e :: run) = e.offered.toList ++ offeredWords run := by
  cases h : e.offered <;> simp [offeredWords, h]

/-- The environment's sending offers no word. -/
theorem offeredWords_filter (run : List RunEvent) :
    offeredWords (run.filter RunEvent.isOfBlock) = offeredWords run := by
  induction run with
  | nil => rfl
  | cons e run ih =>
    cases e with
    | block e => rw [List.filter_cons_of_pos rfl, offeredWords_cons, offeredWords_cons, ih]
    | reset cut => exact ih
    | sent w => exact ih

/-- A longer history adds its words to those of the run. -/
theorem offeredWords_run {s u : State} {es : List Event} (hpast : u.past = s.past) (hh : u.hist = s.hist ++ es) :
    offeredWords u.run = offeredWords s.run ++ dataWords es := by
  rw [State.run, State.run, hpast, hh, List.map_append, ← List.append_assoc, offeredWords_append,
    offeredWords_block]

/-! ### Words as transactions (R137) -/

/-- No transaction is under way after the words `ws`. -/
def EndsStopped (ws : List Word) : Prop := ∀ w ∈ ws.getLast?, wordStop w = true

theorem endsStopped_nil : EndsStopped [] := nofun

theorem EndsStopped.of_cons {w w' : Word} {ws : List Word} (h : EndsStopped (w :: w' :: ws)) :
    EndsStopped (w' :: ws) := by
  unfold EndsStopped at h ⊢
  rwa [List.getLast?_cons_cons] at h

theorem EndsStopped.append {ws ws' : List Word} (h : EndsStopped ws) (h' : EndsStopped ws') :
    EndsStopped (ws ++ ws') := by
  unfold EndsStopped at *
  rw [List.getLast?_append]
  cases hlast : ws'.getLast? with
  | none => simpa [hlast] using h
  | some w => simpa [hlast] using h'

theorem transactionsFrom_append {a : BitVec 7} {w : Word} {ws : List Word} (h : EndsStopped (w :: ws))
    (cur : List Byte) (later : List Word) :
    transactionsFrom a cur (w :: ws ++ later) = transactionsFrom a cur (w :: ws) ++ transactions a later := by
  induction ws generalizing w cur with
  | nil =>
    have hstop : wordStop w = true := h w rfl
    simp [transactionsFrom, transactions, hstop]
  | cons w' ws ih =>
    have hih := ih h.of_cons
    by_cases hstop : wordStop w = true
    · rw [List.cons_append, transactionsFrom, if_pos hstop, transactionsFrom, if_pos hstop, hih]
      rfl
    · rw [List.cons_append, transactionsFrom, if_neg hstop, transactionsFrom, if_neg hstop, hih]

/-- Words after a stop flag are transactions of their own. -/
theorem transactions_append {a : BitVec 7} {ws : List Word} (h : EndsStopped ws) (later : List Word) :
    transactions a (ws ++ later) = transactions a ws ++ transactions a later := by
  cases ws with
  | nil => rfl
  | cons w ws => exact transactionsFrom_append h [] later

/-- The words of a call with a byte are one transaction, of its bytes. -/
theorem transactionsFrom_bufferWords {b : List Byte} (hb : b ≠ []) (a : BitVec 7) (cur : List Byte)
    (later : List Word) :
    transactionsFrom a cur (bufferWords b ++ later) =
      writeTransaction a (cur ++ b) :: transactions a later := by
  induction b using bufferWords.induct generalizing cur with
  | case1 => exact absurd rfl hb
  | case2 b => simp [bufferWords, transactionsFrom, transactions]
  | case3 b b' rest ih =>
    rw [bufferWords, List.cons_append, transactionsFrom, if_neg (by simp), ih nofun, wordByte_fifoWord,
      List.append_assoc]
    rfl

theorem endsStopped_bufferWords (b : List Byte) : EndsStopped (bufferWords b) := by
  induction b using bufferWords.induct with
  | case1 => exact endsStopped_nil
  | case2 b =>
    rintro w ⟨⟩
    exact wordStop_fifoWord b true
  | case3 b b' rest ih =>
    unfold EndsStopped at ih ⊢
    cases hws : bufferWords (b' :: rest) with
    | nil =>
      have hlen := bufferWords_length (b' :: rest)
      rw [hws] at hlen
      cases hlen
    | cons w ws => rwa [bufferWords, hws, List.getLast?_cons_cons, ← hws]

/-- The words of a list of calls are one transaction for each call with a byte. -/
theorem transactions_wordsOf (a : BitVec 7) (calls : List (List Byte)) :
    transactions a (wordsOf calls) = ((calls.map callBytes).filter (· ≠ [])).map (writeTransaction a) := by
  induction calls with
  | nil => rfl
  | cons c calls ih =>
    rw [wordsOf_cons, List.map_cons]
    by_cases hc : callBytes c = []
    · rw [hc, List.filter_cons_of_neg (by simp), ← ih]
      rfl
    · rw [List.filter_cons_of_pos (by simpa using hc), List.map_cons, ← ih]
      exact transactionsFrom_bufferWords hc a [] _

/-! ### Commands in a run of which the bus may be spoken -/

/-- A state between commands of a run of which the bus may be spoken: ready, the claims about the bus open, and
the registers by the history. -/
structure Spoken (s : State) : Prop where
  ready    : s.Ready
  claims   : s.BusClaims
  recorded : s.RegsRecorded

theorem busy_of_idle {s : State} (hp : s.phase = .idle) : s.busy = false := by
  simp [State.busy, hp]

/-- After an INIT whose history is clean the claims are open, whatever the registers were before. -/
theorem spoken_init {s u : State} (h : s.Ready) (hu : Completes .init s u) (hclean : Clean u.hist)
    (hunder : underPremise s.par .reset s.hist = true)
    (hpast : ∀ e ∈ s.past, Speakable s.par e.events ∧ e.cut = false) : Spoken u := by
  obtain ⟨hready, -⟩ := ready_of_completes h hu
  have hu := completes_init h hu
  subst hu
  refine ⟨hready, ⟨rfl, ⟨rfl, rfl, rfl, rfl⟩, ⟨hclean, ?_⟩, hpast⟩, ?_⟩
  · rw [initDone_init_hist, List.append_assoc, underPremise_append]
    exact Bool.and_eq_true_iff.2 ⟨hunder, rfl⟩
  · rw [State.RegsRecorded, initDone_init_hist, List.append_assoc, regsAfter_append]
    rfl

/-- A clean command keeps the claims open. -/
theorem Spoken.command {i : Instr} {s u : State} (h : Spoken s) (hu : Completes i s u) (hclean : Clean u.hist) :
    Spoken u := by
  obtain ⟨hready, ⟨-, hpremise, ⟨-, hunder⟩, hpast⟩, hrecorded⟩ := h
  by_cases hi : i = .init
  · subst hi
    exact spoken_init hready hu hclean hunder hpast
  · have hkeeps := keepsStorage_of_completes hready hi hu
    have hnew := hkeeps.regsRecorded hrecorded
    obtain ⟨hready', hpar, hpasts, -⟩ := ready_of_completes hready hu
    obtain ⟨hregs, es, hh, hes⟩ := hkeeps
    refine ⟨hready', ⟨busy_of_idle hready'.1, ?_, ⟨hclean, ?_⟩, ?_⟩, hnew⟩
    · rw [State.BusPremise, hregs, hpar]
      exact hpremise
    · have hregsAfter : s.hist.foldl Event.applied .reset = s.regs := hrecorded.symm
      rw [hpar, hh, underPremise_append, hunder, hregsAfter, underPremise_of_configured hpremise hes]
      rfl
    · rw [hpasts, hpar]
      exact hpast

/-- The words a clean command adds to the run are those of its calls. -/
theorem offeredWords_command {i : Instr} {s u : State} (h : s.Ready) (hu : Completes i s u)
    (hclean : Clean u.hist) : offeredWords u.run = offeredWords s.run ++ wordsOf (callsOf s.par i) := by
  obtain ⟨-, -, hpast, es, hh⟩ := ready_of_completes h hu
  rw [hh] at hclean
  have hnew : Clean (newEvents s u) := by
    rw [newEvents_of_hist hh]
    exact hclean.append_right
  obtain ⟨hwords, -⟩ := cleanCommandOffersExactlyItsWords i s u h hu hnew
  rw [newEvents_of_hist hh] at hwords
  rw [offeredWords_run hpast hh, hwords]
  rfl

theorem targetAddress_of_configured {g : RegSet} {p : Params} (h : g.Configured p) :
    g.targetAddress = 0x3C := by
  obtain ⟨-, -, htar, -⟩ := h
  have hval : g.tar.val = 0x0000003C := by
    unfold Stored.get at htar
    split_ifs at htar
    exact Option.some.inj htar
  rw [RegSet.targetAddress, hval]
  rfl

/-- What the bus has carried, where the claim is open. -/
theorem carried_of_spoken {u : State} {run : List RunEvent} (h : Spoken u)
    (hrun : run.filter RunEvent.isOfBlock = u.run) (hsends : sendsInOrder [] run = true) :
    u.carried run = some (transactions 0x3C (offeredWords u.run)) := by
  have hclaims := h.claims
  rw [State.carried, if_pos ⟨hclaims, hrun, hsends⟩, targetAddress_of_configured hclaims.2.1, ← hrun,
    offeredWords_filter]

/-- Settles O43: the command keeps the claims open and adds the words of its calls after a stop flag. -/
theorem cleanCommandIsOneTransactionPerCall : Obligations.CleanCommandIsOneTransactionPerCall := by
  intro i s u run hready hclaims hrecorded hstop hu hclean hrun hsends
  have hspoken : Spoken u := Spoken.command ⟨hready, hclaims, hrecorded⟩ hu hclean
  refine ⟨?_, hspoken.claims.2.1⟩
  rw [carried_of_spoken hspoken hrun hsends, offeredWords_command hready hu hclean, transactions_append hstop,
    transactions_wordsOf]

/-- Commands one after another only add to the history. -/
theorem completesAll_hist {is : List Instr} {s u : State} (h : s.Ready) (hu : CompletesAll is s u) :
    ∃ es, u.hist = s.hist ++ es := by
  induction is generalizing s with
  | nil =>
    cases hu
    exact ⟨[], (List.append_nil _).symm⟩
  | cons i is ih =>
    obtain ⟨t, ht, hu⟩ := hu
    obtain ⟨hready, -, -, es, hes⟩ := ready_of_completes h ht
    obtain ⟨es', hes'⟩ := ih hready hu
    exact ⟨es ++ es', by rw [hes', hes, List.append_assoc]⟩

/-- Clean commands one after another keep the claims open and add the words of all their calls. -/
theorem Spoken.commands {is : List Instr} {s u : State} (h : Spoken s) (hu : CompletesAll is s u)
    (hclean : Clean u.hist) :
    Spoken u ∧ offeredWords u.run = offeredWords s.run ++ wordsOf (is.flatMap (callsOf s.par)) := by
  induction is generalizing s with
  | nil =>
    cases hu
    exact ⟨h, (List.append_nil _).symm⟩
  | cons i is ih =>
    obtain ⟨t, ht, hu⟩ := hu
    obtain ⟨hready, hpar, -⟩ := ready_of_completes h.ready ht
    obtain ⟨es, hes⟩ := completesAll_hist hready hu
    have hclean' : Clean t.hist := Clean.of_append (hes ▸ hclean)
    obtain ⟨hspoken, hwords⟩ := ih (h.command ht hclean') hu
    refine ⟨hspoken, ?_⟩
    rw [hwords, offeredWords_command h.ready ht hclean', hpar, List.flatMap_cons, wordsOf_append,
      List.append_assoc]

/-- Settles O44: INIT opens the claims with no word offered, and each further command keeps them open and adds
the words of its calls. -/
theorem cleanRunIsOneTransactionPerCall : Obligations.CleanRunIsOneTransactionPerCall := by
  intro is s t u run hready hhist hpast ht hu hclean hrun hsends
  obtain ⟨hready', hpar, hpasts, -⟩ := ready_of_completes hready ht
  obtain ⟨es, hes⟩ := completesAll_hist hready' hu
  have hclean' : Clean t.hist := Clean.of_append (hes ▸ hclean)
  have hspoken : Spoken t := spoken_init hready ht hclean' (by rw [hhist]; rfl) (by simp [hpast])
  obtain ⟨hspoken', hwords⟩ := hspoken.commands hu hclean
  have hnone : offeredWords s.run = [] := by rw [State.run, hhist, hpast]; rfl
  have hinit : offeredWords t.run = [] := by
    rw [offeredWords_command hready ht hclean', hnone]
    rfl
  rw [carried_of_spoken hspoken' hrun hsends, hwords, hinit, List.nil_append, transactions_wordsOf, hpar]

/-! ### Where the claim is refused (R137, R170, R177) -/

theorem carried_eq_none {s : State} {run : List RunEvent} (h : ¬ s.BusClaims) : s.carried run = none :=
  if_neg fun hall => h hall.1

/-- By each write of an INIT an environment that sends in order has sent every word offered before it. -/
theorem sent_of_sendsInOrder {before later : List RunEvent} {e : Event} (he : e.isConfiguration = true)
    {pending : List Word} (h : sendsInOrder pending (before ++ .block e :: later) = true) :
    pending ++ offeredWords before = sentWords before := by
  induction before generalizing pending with
  | nil =>
    simp only [List.nil_append, sendsInOrder, he, Bool.not_true, Bool.false_or, Bool.and_eq_true,
      List.isEmpty_iff] at h
    rw [h.1]
    rfl
  | cons x before ih =>
    cases x with
    | block e' =>
      simp only [List.cons_append, sendsInOrder, Bool.and_eq_true] at h
      have hih := ih h.2
      rw [List.append_assoc] at hih
      rw [offeredWords_cons]
      exact hih
    | reset cut => exact ih h
    | sent w =>
      cases pending with
      | nil => cases h
      | cons q pending =>
        simp only [List.cons_append, sendsInOrder, Bool.and_eq_true, beq_iff_eq] at h
        obtain ⟨rfl, hlater⟩ := h
        exact congrArg (q :: ·) (ih hlater)

/-- Settles O45: each part denies one of the premises of a claim. -/
theorem busClaimsAreRefusedOutsideCleanRuns : Obligations.BusClaimsAreRefusedOutsideCleanRuns := by
  refine ⟨fun s run h => ?premise, fun i s u run hready hu h => ?unclean, fun u before later r v hr hne => ?unsent⟩
  case premise =>
    refine carried_eq_none ?_
    rintro ⟨hidle, hpremise, -⟩
    rcases h with hnot | hbusy
    · exact hnot hpremise
    · exact absurd (hbusy.symm.trans hidle) (by decide)
  case unclean =>
    obtain ⟨-, hpar, -, es, hes⟩ := ready_of_completes hready hu
    refine carried_eq_none ?_
    rintro ⟨-, -, ⟨hclean, hunder⟩, -⟩
    rw [hes] at hclean
    rw [hpar, hes, underPremise_append, Bool.and_eq_true] at hunder
    rcases h with hnot | hfalse
    · exact hnot hclean.of_append
    · exact absurd (hunder.1.symm.trans hfalse) (by decide)
  case unsent =>
    refine if_neg ?_
    rintro ⟨-, -, hsends⟩
    have hconf : (Event.wr r v).isConfiguration = true := by rcases hr with rfl | rfl | rfl | rfl <;> rfl
    exact hne (sent_of_sendsInOrder hconf hsends).symm

/-- A step keeps the record of the stretches that resets ended, and a reset alone extends it. -/
theorem past_step {s t : State} (h : step s = .next t) :
    s.past <+: t.past ∧ (s.rst = false → t.past = s.past) := by
  cases hr : s.rst with
  | true =>
    rw [step_rst hr] at h
    cases h
    exact ⟨List.prefix_append _ _, nofun⟩
  | false =>
    obtain ⟨-, -, hpast, -⟩ := step_frame hr h
    exact ⟨hpast ▸ List.prefix_rfl, fun _ => hpast⟩

theorem past_runSteps {k : Nat} {s u : State} (h : runSteps k s = .next u) : s.past <+: u.past := by
  induction k generalizing s with
  | zero =>
    cases h
    exact List.prefix_rfl
  | succ k ih =>
    rw [runSteps] at h
    split at h
    next t ht => exact (past_step ht).1.trans (ih h)
    next => cases h
    next => cases h

/-- Once a stretch of the run was cut off in mid-command or was not clean, no claim is made. -/
theorem carried_eq_none_of_past {s : State} {run : List RunEvent} {e : Epoch} (he : e ∈ s.past)
    (h : e.cut = true ∨ ¬ Clean e.events) : s.carried run = none := by
  refine carried_eq_none ?_
  rintro ⟨-, -, -, hpast⟩
  obtain ⟨⟨hclean, -⟩, hcut⟩ := hpast e he
  rcases h with hcut' | hnot
  · exact absurd (hcut'.symm.trans hcut) (by decide)
  · exact hnot hclean

/-- Settles O46: the reset records the stretch it ends, and no later step loses the record. -/
theorem resetInMidCommandRefusesBusClaims : Obligations.ResetInMidCommandRefusesBusClaims := by
  refine ⟨fun s k u run hr hbad h => ?reset, fun s t h => past_step h, fun s run ⟨e, he, hcut⟩ => ?cut⟩
  case reset =>
    rw [runSteps_succ k (step_rst hr)] at h
    have hmem : { events := s.hist, cut := s.busy } ∈ u.past :=
      (past_runSteps h).subset (List.mem_append_right _ (List.mem_singleton_self _))
    exact carried_eq_none_of_past hmem hbad
  case cut => exact carried_eq_none_of_past he (.inl hcut)

end Sys2Proof.Machine
end

section
/-! SUPPORT. Single steps and accesses: the row IDLE, the acceptance of each command, register accesses, the
poll and the check of an attempt, the start of calls, and the accesses a step can make. -/

namespace Sys2Proof.Machine

/-! ### The row IDLE (R74, R111) -/

theorem step_offer {s : State} {o : Offer} {later : List Offer} {i : Instr} (hp : s.phase = .idle)
    (hr : s.rst = false) (hh : s.host = o :: later) (hd : decode o = .ok i) :
    step s = exec i { s with host := later } := by
  rw [step_idle hr hp, idleStep, fetch, hh]
  simp only [hd]

/-- Settles O12: the offer placed for a numbered instruction is the one at the head of the port. -/
theorem stepRunsTheDecodedCommand : Obligations.StepRunsTheDecodedCommand := by
  refine ⟨fun s o later i hp hr hh hd => step_offer hp hr hh hd, fun s nbits w i hd => ?_⟩
  have hok : decode (offerOfBits nbits w) = .ok i := by
    unfold decodeTableWord at hd
    split at hd
    next j hj => rw [hj, Option.some.inj hd]
    next => cases hd
  exact step_offer rfl rfl rfl hok

theorem decode_illegal {o : Offer} {why : HeaderError} (h : decodeHeader o.header = .error why) :
    decode o = .error (.illegal why) := by
  rw [decode, h]

/-- Settles O13: the row IDLE refuses the header, whose result word is 8. -/
theorem illegalHeaderIsRefused : Obligations.IllegalHeaderIsRefused := by
  intro s o later why hp hr hh hwhy
  have hword : Result.refusedHeader.word = 0x00000008 := by decide
  rw [step_idle hr hp, idleStep, fetch, hh]
  simp only [decode_illegal hwhy, reject, State.emit, hword, List.append_assoc]
  rfl

/-! ### Acceptance (R102, R130) -/

theorem countOf_eq_ofNat {b : List Byte} (h : payloadFits b) : countOf b = BitVec.ofNat 16 b.length := if_pos h

theorem countOf_eq_zero_iff {b : List Byte} (h : payloadFits b) : countOf b = 0 ↔ b = [] := by
  rw [← BitVec.toNat_inj, countOf_toNat h, ← List.length_eq_zero_iff]
  rfl

/-- A command whose first call has a byte is accepted at byte 0 of that call with three tries. -/
theorem exec_firstCall {i : Instr} {s : State} {c : List Byte} {later : List (List Byte)}
    (hp : s.phase = .idle) (hi : i ≠ .init) (hcalls : callsOf s.par i = c :: later) (hfits : payloadFits c)
    (hne : c ≠ []) :
    exec i s = .next { s with
      res := .clear, op := i.op, calls := later, callNo := 0
      buf := c, n := BitVec.ofNat 16 c.length, idx := 0, retries := 3, cause := .none, phase := .wBuild
      hist := s.hist ++ [.acc i.op i.payload.length i.payload] } := by
  rw [exec_calls hp hi, hcalls, startCall_buffer (mt (countOf_eq_zero_iff hfits).1 hne),
    countOf_eq_ofNat hfits]
  rfl

/-- Settles O22: the one call is the buffer; the empty one is passed over, and the command is done. -/
theorem writeIsAccepted : Obligations.WriteIsAccepted := by
  intro s hp
  refine ⟨fun b bs hfits => exec_firstCall (i := .write (b :: bs)) hp nofun rfl hfits nofun, ?_⟩
  rw [exec_calls (i := .write []) hp nofun, callsOf, startCall_empty, startCall_nil]
  simp only [finish, acceptHeader, State.emit, List.append_assoc, Result.word_clear, hp]
  rfl

theorem payloadFits_singleton (b : Byte) : payloadFits [b] := by
  simp [payloadFits, Config.lenMax]

/-- Settles O23: the first of the three calls is the slave-address byte. -/
theorem framesAreAcceptedAsThreeCalls : Obligations.FramesAreAcceptedAsThreeCalls := by
  intro s bs hp
  exact ⟨exec_firstCall (i := .sendCommand bs) hp nofun rfl (payloadFits_singleton _) nofun,
    exec_firstCall (i := .sendData bs) hp nofun rfl (payloadFits_singleton _) nofun⟩

theorem length_displayText (p : Params) (t : List Byte) :
    (0x40 :: t.take p.textMax).length = 1 + min t.length p.textMax := by
  rw [List.length_cons, List.length_take, Nat.min_comm, Nat.add_comm]

theorem length_initDisplay (p : Params) : (0x00 :: p.initCmds.toList).length = 16 := by
  rw [List.length_cons, Vector.length_toList]

theorem payloadFits_initDisplay (p : Params) : payloadFits (0x00 :: p.initCmds.toList) := by
  rw [payloadFits, length_initDisplay, Config.lenMax]
  decide

/-- Settles O24: each display command by its first call. -/
theorem displayCommandsAreAccepted : Obligations.DisplayCommandsAreAccepted := by
  intro s hp
  refine ⟨?init, exec_firstCall (i := .clearDisplay) hp nofun rfl (payloadFits_singleton _) nofun,
    fun text hlen => ?text, fun text => exec_calls (i := .displayText text) hp nofun⟩
  case init =>
    rw [exec_firstCall (i := .initDisplay) (c := 0x00 :: s.par.initCmds.toList) hp nofun rfl
      (payloadFits_initDisplay s.par) nofun, length_initDisplay]
    rfl
  case text =>
    have hfits : payloadFits (0x40 :: text.take s.par.textMax) := by
      rw [payloadFits, length_displayText]
      exact hlen
    rw [exec_firstCall (i := .displayText text) (c := 0x40 :: text.take s.par.textMax) hp nofun rfl hfits nofun,
      length_displayText]
    rfl

/-! ### Register accesses (R57, R90, R91, R92) -/

theorem regRead_present {s : State} (r : Reg) (h : s.env ≠ .absent) : regRead r s = readPresent r s.envTurn :=
  if_neg h

theorem regWrite_present {s : State} (r : Reg) (v : Word) (h : s.env ≠ .absent) :
    regWrite r v s = writePresent r v s.envTurn := if_neg h

/-- RegRead of a storage register at a present controller returns the value last written (R57, R90). -/
theorem regRead_storage {s : State} {r : Reg} {v : Word} (h : s.env ≠ .absent)
    (hv : s.regs.lastWritten r = some v) :
    regRead r s = .ok v (s.envTurn.emit (.rd r v)) := by
  have get {x : Stored} (hx : x.get = some v) : x.val = v := by
    unfold Stored.get at hx
    split_ifs at hx
    exact Option.some.inj hx
  rw [regRead_present r h]
  cases r with
  | dataCmd | rawIntrStat | status => cases hv
  | funcsel | ctrl | tar | enable =>
    have hval := get hv
    subst hval
    rfl

/-- Settles O20: the register keeps the word and the read returns it. -/
theorem storageReadsBackTheLastWrite : Obligations.StorageReadsBackTheLastWrite := by
  intro s r r' v he hr
  have hlast := fun r' => lastWritten_write s.regs v r r' hr
  have hwritten : (s.regs.write v r).lastWritten r = some v := (hlast r).trans (if_pos rfl)
  refine ⟨_, _, regWrite_storage v he hr, rfl, hwritten, fun hne => (hlast r').trans (if_neg hne),
    regRead_storage ?_ hwritten, rfl, rfl⟩
  exact Env.turn_ne_absent he _

/-- A write to a register that is no storage register leaves them all. -/
theorem RegSet.lastWritten_write_of_ne (g : RegSet) (v : Word) {r r' : Reg} (h : r' ≠ r) :
    (g.write v r).lastWritten r' = g.lastWritten r' := by
  cases r with
  | dataCmd | rawIntrStat | status => rfl
  | funcsel | ctrl | tar | enable =>
    rw [lastWritten_write g v _ _ (by simp), if_neg h]

/-- Settles O21: each register's read and write at a present controller completes with its event. -/
theorem everyAccessCompletes : Obligations.EveryAccessCompletes := by
  intro s r he
  have hturn : s.envTurn.env ≠ .absent := Env.turn_ne_absent he s.regs.enabled
  refine ⟨?read, fun v => ?write⟩
  case read =>
    rw [regRead_present r he]
    cases r with
    | funcsel | ctrl | tar | enable | dataCmd => exact ⟨_, _, rfl, rfl, hturn⟩
    | status => exact ⟨_, _, rfl, rfl, Env.readStatus_ne_absent _ hturn⟩
    | rawIntrStat => exact ⟨_, _, rfl, rfl, Env.readRaw_ne_absent hturn⟩
  case write =>
    have hother := fun r' (h : r' ≠ r) => s.regs.lastWritten_write_of_ne v h
    rw [regWrite_present r v he]
    cases r with
    | dataCmd => exact ⟨_, rfl, rfl, mt (Env.offer_eq_absent _ _ _).1 hturn, fun _ _ => rfl⟩
    | funcsel | ctrl | tar | enable | rawIntrStat | status => exact ⟨_, rfl, rfl, hturn, hother⟩

/-! ### The poll and the check (R104, R107, R108) -/

theorem pollResult_free {v : Word} (hv : tfnf v = true) (s : State) :
    pollResult v s = { s with phase := .wIssue } := if_pos hv

theorem pollResult_full {v : Word} (hv : tfnf v = false) {s : State} (hc : s.pollCnt ≠ 1) :
    pollResult v s = { s with pollCnt := s.pollCnt - 1 } := by
  rw [pollResult, if_neg (by simp [hv]), if_neg (by bv_omega)]

theorem pollResult_timeout {v : Word} (hv : tfnf v = false) {s : State} (hc : s.pollCnt = 1) :
    pollResult v s = { s with
      pollCnt := 0, retries := s.retries - 1, cause := .fifoTimeout, phase := .wIssue } := by
  rw [pollResult, if_neg (by simp [hv]), if_pos (by simp [hc])]

/-- The state after a read of STATUS in the poll, before its result is used. -/
def State.polled (s : State) (v : Word) (e : Env) : State :=
  { s with env := e, hist := s.hist ++ [.rd .status v] }

theorem step_poll {s : State} {v : Word} {e : Env} (hp : s.phase = .wPoll) (hr : s.rst = false)
    (he : s.env ≠ .absent) (hread : s.envTurn.env.readStatus s.par.fifoDepth = (v, e)) :
    step s = .next (pollResult v (s.polled v e)) := by
  rw [step_wPoll hr hp, pollStep_present he, hread]
  rfl

/-- Settles O26: the value read and the environment after it, then the three outcomes of `pollResult`. -/
theorem pollStepCountsFullReads : Obligations.PollStepCountsFullReads := by
  intro s hp hr he
  have hstep := (step_wPoll hr hp).trans (pollStep_present he)
  refine ⟨_, _, Env.readStatus_ne_absent s.par.fifoDepth (Env.turn_ne_absent he s.regs.enabled), ?script,
    fun hv => hstep.trans (congrArg _ (pollResult_free hv _)),
    fun hv hc => hstep.trans (congrArg _ (pollResult_full hv hc)),
    fun hv hc => hstep.trans (congrArg _ (pollResult_timeout hv hc))⟩
  case script =>
    intro x xs raw henv
    rw [envTurn_env, henv]
    exact ⟨rfl, rfl⟩

/-- What the charge of step S5 leaves in the retry counter and the cause (R107). -/
def chargedRetries (aborted : Bool) (s : State) : BitVec 2 := if aborted then satdec s.retries else s.retries
def chargedCause (aborted : Bool) (s : State) : Cause := if aborted then .txAborted else s.cause

/-- The state after S5 read `v`, before S6. -/
def State.charged (s : State) (v : Word) (e : Env) : State := { s with
  env := e, hist := s.hist ++ [.rd .rawIntrStat v]
  retries := chargedRetries (abrt v) s, cause := chargedCause (abrt v) s }

/-- The step of W_CHECK at a present controller is the read with its charge, and S6. -/
theorem step_check {s : State} {v : Word} {e : Env} (hp : s.phase = .wCheck) (hr : s.rst = false)
    (he : s.env ≠ .absent) (hread : s.envTurn.env.readRaw = (v, e)) :
    step s = .next (settle (abrt v) (s.charged v e)) := by
  rw [step_wCheck hr hp, checkStep_present he, hread, checkResult, State.charged]
  cases abrt v <;> rfl

theorem settle_giveUp {aborted : Bool} {s : State} (hr : s.retries = 0)
    (h : aborted = true ∨ s.par.zeroPolicy = .abort) : settle aborted s = endCall (recordAbort s) := by
  rw [settle, if_pos ((givesUp_eq_true_iff aborted s).2 ⟨hr, h⟩)]

theorem settle_repeat {s : State} (hr : s.retries ≠ 0) : settle true s = { s with phase := .wBuild } := by
  rw [settle, if_neg fun h => hr ((givesUp_eq_true_iff true s).1 h).1, if_pos rfl]

theorem settle_lastByte {s : State} (h : s.retries ≠ 0 ∨ s.par.zeroPolicy = .proceed) (hi : s.idx + 1 = s.n) :
    settle false s = endCall s := by
  rw [settle, (givesUp_false_eq_false_iff s).2 h, if_neg nofun, if_neg nofun, if_pos hi]

theorem settle_nextByte {s : State} (h : s.retries ≠ 0 ∨ s.par.zeroPolicy = .proceed) (hi : s.idx + 1 ≠ s.n) :
    settle false s = { s with
      idx := s.idx + 1, retries := Config.retryInit, cause := .none, phase := .wBuild } := by
  rw [settle, (givesUp_false_eq_false_iff s).2 h, if_neg nofun, if_neg nofun, if_neg hi]

/-- Settles O28: the value read and the charge, then the four outcomes of `settle`. -/
theorem checkStepSettlesTheAttempt : Obligations.CheckStepSettlesTheAttempt := by
  intro s hp hr he
  obtain ⟨v, e, hread⟩ : ∃ v e, s.envTurn.env.readRaw = (v, e) := ⟨_, _, rfl⟩
  have hstep := step_check hp hr he hread
  refine ⟨v, chargedRetries (abrt v) s, chargedCause (abrt v) s, s.charged v e, readRaw_snd_ne_absent he hread,
    ?script, rfl, fun hv => ?set, fun hv => ?clear, fun h0 hwhy => ⟨_, hstep, ?giveUp⟩, fun h0 hv => ?again,
    fun hv hkeep hi => ?next, fun hv hkeep hi => ?last⟩
  case script =>
    intro x xs st henv
    rw [envTurn_env, henv] at hread
    cases hread
    exact ⟨rfl, rfl⟩
  case set =>
    have ha : abrt v = true := hv
    rw [ha]
    exact ⟨satdec_toNat s.retries, rfl⟩
  case clear =>
    have ha : abrt v = false := hv
    rw [ha]
    exact ⟨rfl, rfl⟩
  case giveUp =>
    have hends : settle (abrt v) (s.charged v e) = endCall (recordAbort (s.charged v e)) := settle_giveUp h0 hwhy
    rw [hends, endCall, recordAbort, State.emit, State.charged, Result.recordAbort]
    simp only [List.append_assoc]
    rfl
  case again =>
    have ha : abrt v = true := hv
    have hrepeat : settle true (s.charged v e) = { s.charged v e with phase := .wBuild } := settle_repeat h0
    rw [hstep, ha, hrepeat]
  case next =>
    have ha : abrt v = false := hv
    rw [hstep, ha, settle_nextByte (by exact hkeep) (by exact hi)]
    rfl
  case last =>
    have ha : abrt v = false := hv
    rw [hstep, ha, settle_lastByte (by exact hkeep) (by exact hi)]
    rfl

/-! ### Starting calls (R111, R130) -/

/-- Buffers of which `n` counts nothing are passed over, each counted in `callNo`. -/
theorem startCall_passed {passed : List (List Byte)} (h : ∀ c ∈ passed, countOf c = 0)
    (later : List (List Byte)) (s : State) :
    ∃ b n i, startCall (passed ++ later) s = startCall later { s with
      callNo := s.callNo + BitVec.ofNat 3 passed.length, buf := b, n := n, idx := i } := by
  induction passed generalizing s with
  | nil => exact ⟨s.buf, s.n, s.idx, by simp⟩
  | cons c passed ih =>
    obtain ⟨hc, hpassed⟩ := List.forall_mem_cons.1 h
    obtain ⟨b, n, i, hrest⟩ := ih hpassed { s with callNo := s.callNo + 1, buf := c, n := 0, idx := 0 }
    refine ⟨b, n, i, ?_⟩
    have hno : s.callNo + 1 + BitVec.ofNat 3 passed.length =
        s.callNo + BitVec.ofNat 3 (c :: passed).length := by
      rw [List.length_cons, BitVec.ofNat_add, BitVec.add_assoc, BitVec.add_comm (BitVec.ofNat 3 passed.length)]
      rfl
    rw [List.cons_append, startCall_skip hc, hrest, hno]

/-- Settles O29. -/
theorem callsRunInOrderToTheEnd : Obligations.CallsRunInOrderToTheEnd := by
  refine ⟨fun s passed later hpassed => ⟨⟨_, rfl, ?finished⟩, fun buf hbuf => ?started⟩, fun buf hfits => ?count⟩
  case finished =>
    obtain ⟨b, n, i, h⟩ := startCall_passed hpassed [] s
    rw [List.append_nil] at h
    rw [h]
    exact ⟨rfl, rfl, rfl, rfl, rfl, rfl, rfl, rfl⟩
  case started =>
    obtain ⟨b, n, i, h⟩ := startCall_passed hpassed (buf :: later) s
    rw [h, startCall_buffer hbuf]
    rfl
  case count => exact ⟨countOf_toNat hfits, countOf_eq_zero_iff hfits⟩

/-- Settles O30: `n` holds the length of every buffer that fits, and never more than 65535. -/
theorem callsGoThroughTheirWholeBuffers : Obligations.CallsGoThroughTheirWholeBuffers := by
  refine ⟨fun buf => ⟨callBytes_eq, List.take_prefix _ _, ?_⟩, fun p i hw ht hi => ?_⟩
  · rw [callBytes_length]
    exact Nat.le_of_lt_succ (countOf buf).isLt
  · have hfits := callsOf_fits (p := p) ⟨hw, Nat.succ_le_succ ht⟩ hi
    exact (List.map_congr_left fun c hc => callBytes_eq (hfits c hc)).trans (List.map_id' _)

/-! ### The accesses of a step (R93, R111) -/

/-- An event that is a register access or a delay. -/
def Event.isBusy (e : Event) : Bool := e.isAccess || e.isDelay

/-- The events of one step: listed accesses, and at most one access or delay. -/
def StepEvents (p : Params) (es : List Event) : Prop :=
  (∀ e ∈ es, e.listedAccess p) ∧ es.countP Event.isBusy ≤ 1

/-- Events that are neither access nor delay do not count. -/
theorem StepEvents.append_quiet {p : Params} {es later : List Event} (h : StepEvents p es)
    (hq : ∀ e ∈ later, e.isBusy = false ∧ e.listedAccess p) : StepEvents p (es ++ later) := by
  obtain ⟨hlisted, hcount⟩ := h
  have hnone : later.countP Event.isBusy = 0 := List.countP_eq_zero.2 fun e he => by simp [(hq e he).1]
  refine ⟨fun e he => (List.mem_append.1 he).elim (hlisted e) fun he => (hq e he).2, ?_⟩
  rw [List.countP_append, hnone]
  exact hcount

theorem stepEvents_nil (p : Params) : StepEvents p [] := ⟨nofun, Nat.zero_le _⟩

theorem stepEvents_singleton {p : Params} {e : Event} (h : e.listedAccess p) : StepEvents p [e] :=
  ⟨fun _ he => List.mem_singleton.1 he ▸ h, List.countP_le_length⟩

theorem quiet_doneEvents (p : Params) (s : State) :
    ∀ e ∈ s.doneEvents, e.isBusy = false ∧ e.listedAccess p := by
  intro e he
  rw [mem_doneEvents he]
  exact ⟨rfl, trivial⟩

theorem WriteReport.quiet {c : Bool} {s t : State} {diags : List Event} (h : WriteReport c s t diags)
    (p : Params) : ∀ e ∈ diags, e.isBusy = false ∧ e.listedAccess p := by
  cases h with
  | none => nofun
  | gaveUp =>
    intro e he
    rw [List.mem_singleton.1 he]
    exact ⟨rfl, trivial⟩

/-- Every word written to DATA_CMD carries a byte and perhaps the stop flag (R75). -/
theorem listedAccess_word {s : State} (h : s.WordIsCurrent) (p : Params) :
    (Event.wr .dataCmd s.word).listedAccess p := by
  obtain ⟨b, -, hw⟩ := h
  have hb := b.isLt
  rw [Event.listedAccess, hw, toNat_fifoWord]
  cases decide (s.idx + 1 = s.n) with
  | false => exact .inl (by rw [Bool.toNat_false]; omega)
  | true => exact .inr (by rw [Bool.toNat_true]; omega)

theorem WriteAccess.listed {s : State} {access : Option Event} (h : WriteAccess s access) (hs : s.PhaseInv)
    (p : Params) : StepEvents p access.toList := by
  cases h with
  | build => exact stepEvents_nil p
  | status => exact stepEvents_singleton (.inl rfl)
  | word hp =>
    obtain ⟨-, hword⟩ := (phaseInv_wIssue hp).1 hs
    exact stepEvents_singleton (listedAccess_word hword p)
  | pace => exact stepEvents_singleton trivial
  | raw => exact stepEvents_singleton (.inr rfl)

theorem InitStep.listed {s t : State} (h : InitStep s t) : ∃ es, t.hist = s.hist ++ es ∧ StepEvents s.par es := by
  cases h with
  | i1 => exact ⟨_, rfl, stepEvents_singleton rfl⟩
  | i2 => exact ⟨_, rfl, stepEvents_singleton (.inl rfl)⟩
  | i3 => exact ⟨_, rfl, stepEvents_singleton rfl⟩
  | i4 => exact ⟨_, rfl, stepEvents_singleton rfl⟩
  | i5 =>
    refine ⟨[.wr .enable 0x00000001] ++ [.done 0x00000000], List.append_assoc _ _ _,
      (stepEvents_singleton (e := .wr .enable 0x00000001) (.inr rfl)).append_quiet ?_⟩
    intro e he
    rw [List.mem_singleton.1 he]
    exact ⟨rfl, trivial⟩

theorem exec_listed {i : Instr} {s t : State} (hp : s.phase = .idle) (h : exec i s = .next t) (p : Params) :
    ∃ es, t.hist = s.hist ++ es ∧ StepEvents p es := by
  have hacc : StepEvents p [.acc i.op i.payload.length i.payload] := stepEvents_singleton trivial
  by_cases hi : i = .init
  · subst hi
    rw [exec_init hp] at h
    cases h
    exact ⟨_, rfl, hacc⟩
  · cases (exec_calls hp hi).symm.trans h
    exact ⟨_, accepted_hist i s, hacc.append_quiet (quiet_doneEvents p _)⟩

theorem idleStep_listed {s t : State} (hp : s.phase = .idle) (h : idleStep s = .next t) (p : Params) :
    ∃ es, t.hist = s.hist ++ es ∧ StepEvents p es := by
  rcases idleStep_cases s with hw | ⟨o, later, i, -, -, hi⟩ | ⟨o, later, -, hj⟩
  · cases hw.symm.trans h
    exact ⟨[], (List.append_nil _).symm, stepEvents_nil p⟩
  · exact exec_listed (s := { s with host := later }) hp (hi.symm.trans h) p
  · cases hj.symm.trans h
    refine ⟨[.rej o.header, .done Result.refusedHeader.word], List.append_assoc _ _ _, ?_, Nat.zero_le 1⟩
    simp [Event.listedAccess]

/-- Settles O51: of each row, the access or delay of its phase, listed, and the reports behind it. -/
theorem stepsMakeAtMostOneListedAccess : Obligations.StepsMakeAtMostOneListedAccess := by
  rintro s t ⟨hphase, -⟩ hr h
  suffices hrow : ∃ es, t.hist = s.hist ++ es ∧ StepEvents s.par es by
    obtain ⟨es, hh, hlisted, hcount⟩ := hrow
    exact ⟨es, hh, hlisted, hcount⟩
  have same : ∃ es, s.hist = s.hist ++ es ∧ StepEvents s.par es :=
    ⟨[], (List.append_nil _).symm, stepEvents_nil _⟩
  rcases step_rows h with ⟨hrst, -⟩ | ⟨-, hp, hi⟩ | ⟨-, -, -, rfl⟩ | ⟨-, -, rfl⟩ | ⟨-, hi⟩ | ⟨-, charged, hw⟩
  · exact absurd (hrst.symm.trans hr) (by decide)
  · exact idleStep_listed hp hi s.par
  · exact same
  · exact same
  · exact hi.listed
  · obtain ⟨access, diags, hh, haccess, hreport⟩ := hw.hist_append
    have hquiet : ∀ e ∈ diags ++ t.doneEvents, e.isBusy = false ∧ e.listedAccess s.par := fun e he =>
      (List.mem_append.1 he).elim (hreport.quiet s.par e) (quiet_doneEvents s.par t e)
    exact ⟨_, hh, (haccess.listed hphase s.par).append_quiet hquiet⟩

end Sys2Proof.Machine
end

section
/-! SUPPORT. The reference environment (R65), runs under ENV_IDEAL and other scripts (R65, R104, R153), the words
of each command (R131 to R135), and an attempt from W_BUILD to W_CHECK (R112 c). -/

namespace Sys2Proof.Machine

/-! ### INIT twice (R101) -/

/-- Settles O17: both runs end with the registers at their INIT values, and each adds seven events. -/
theorem initIsIdempotentOnRegisters : Obligations.InitIsIdempotentOnRegisters := by
  intro s u v h hu hv
  obtain ⟨hready, -⟩ := ready_of_completes h hu
  have hv := completes_init hready hv
  have hu := completes_init h hu
  have hlength : v.hist.length = u.hist.length + 7 := by
    rw [hv, initDone_init_hist]
    simp [initEvents]
  have hpremise : ∀ s : State, (initDone { acceptHeader .init [] s with phase := .i1 }).BusPremise :=
    fun _ => ⟨rfl, rfl, rfl, rfl⟩
  refine ⟨?_, hu ▸ hpremise s, hv ▸ hpremise u, hlength⟩
  rw [hv, hu]
  rfl

/-! ### The words of a reference environment (R65 c, d) -/

/-- A move keeps the words on the bus followed by those in the FIFO. -/
theorem RefEnv.move_words (b : Bool) (r : RefEnv) (m : EnvMove) :
    (r.move b m).bus ++ (r.move b m).fifo = r.bus ++ r.fifo := by
  cases m with
  | drain =>
    cases b with
    | false => rfl
    | true => cases h : r.fifo <;> simp [RefEnv.move, h]
  | setAbrt => rfl
  | clearAbrt => rfl

theorem RefEnv.moves_words (b : Bool) (ms : List EnvMove) (r : RefEnv) :
    (ms.foldl (RefEnv.move b) r).bus ++ (ms.foldl (RefEnv.move b) r).fifo = r.bus ++ r.fifo := by
  induction ms generalizing r with
  | nil => rfl
  | cons m ms ih => exact (ih _).trans (RefEnv.move_words b r m)

theorem RefEnv.turn_words (b : Bool) (r : RefEnv) :
    (r.turn b).bus ++ (r.turn b).fifo = r.bus ++ r.fifo := by
  unfold RefEnv.turn
  split
  · rfl
  · exact RefEnv.moves_words b _ _

/-- ENABLE holds 1 exactly when the last value written to it is 1 (R65 d). -/
theorem enabled_eq_false {g : RegSet} (h : g.enable.get ≠ some 0x00000001) : g.enabled = false := by
  unfold RegSet.enabled
  unfold Stored.get at h
  cases hw : g.enable.written with
  | false => rfl
  | true =>
    rw [hw, if_pos rfl] at h
    simpa using fun hv => h (congrArg some hv)

/-- Settles O58: a turn is moves, each of which keeps the words, and none of which drains while disabled. -/
theorem referenceFifoDrainsInOrderWhileEnabled : Obligations.ReferenceFifoDrainsInOrderWhileEnabled := by
  intro s r henv
  refine ⟨r.turn s.regs.enabled, by rw [envTurn_env, henv]; rfl, RefEnv.turn_words _ r, fun hlow => ?_⟩
  rw [enabled_eq_false hlow]
  exact (RefEnv.turn_disabled r).symm

theorem RefEnv.offer_room {d : Nat} {r : RefEnv} (h : r.fifo.length < d) (w : Word) :
    r.offer d w = { r with fifo := r.fifo ++ [w] } := if_pos h

/-- Settles O57: after the turn each access is the environment's own answer. -/
theorem referenceEnvironmentAnswers : Obligations.ReferenceEnvironmentAnswers := by
  intro s r henv
  have he : s.env ≠ .absent := by simp [henv]
  have hturn : s.envTurn.env = .reference (r.turn s.regs.enabled) := by rw [envTurn_env, henv]; rfl
  refine ⟨_, hturn, ?status, ?raw, fun w hroom => ?offer, fun hr => ?reset⟩
  case status =>
    rw [regRead_status he, hturn]
    exact ⟨_, rfl, rfl⟩
  case raw =>
    rw [regRead_rawIntrStat he, hturn]
    exact ⟨_, rfl, rfl⟩
  case offer =>
    refine ⟨_, (r.turn s.regs.enabled).offer s.par.fifoDepth w, regWrite_dataCmd w he, by rw [hturn]; rfl, ?_⟩
    rw [RefEnv.offer_room hroom]
    exact ⟨rfl, rfl, rfl⟩
  case reset => exact ⟨_, _, step_rst hr, congrArg Env.afterReset henv, rfl, rfl, rfl⟩

/-- Behind the registers is a reference environment, with the words `ws` on its bus and then in its FIFO. -/
def Env.Carries (ws : List Word) (e : Env) : Prop := ∃ r, e = .reference r ∧ r.bus ++ r.fifo = ws

theorem Env.Carries.turn {ws : List Word} {e : Env} (h : e.Carries ws) (b : Bool) : (e.turn b).Carries ws := by
  obtain ⟨r, rfl, hr⟩ := h
  exact ⟨_, rfl, (RefEnv.turn_words b r).trans hr⟩

theorem Env.Carries.readStatus {ws : List Word} {e e' : Env} {d : Nat} {v : Word} (h : e.Carries ws)
    (he : e.readStatus d = (v, e')) :
    e'.Carries ws ∧ (tfnf v = true → ∃ r, e' = .reference r ∧ r.fifo.length < d) := by
  obtain ⟨r, rfl, hr⟩ := h
  cases he
  refine ⟨⟨r, rfl, hr⟩, fun hv => ⟨r, rfl, ?_⟩⟩
  by_contra hfull
  rw [if_neg hfull] at hv
  exact absurd hv (by decide)

theorem Env.Carries.readRaw {ws : List Word} {e e' : Env} {v : Word} (h : e.Carries ws)
    (he : e.readRaw = (v, e')) : e'.Carries ws := by
  obtain ⟨r, rfl, hr⟩ := h
  cases he
  exact ⟨r, rfl, hr⟩

/-- A word offered with room in the FIFO comes behind the others. -/
theorem Env.Carries.offer {ws : List Word} {r : RefEnv} {d : Nat} (h : (Env.reference r).Carries ws)
    (hroom : r.fifo.length < d) (b : Bool) (w : Word) :
    (((Env.reference r).turn b).offer d w).Carries (ws ++ [w]) := by
  obtain ⟨r', hr', hr⟩ := h
  cases hr'
  have hroom' := Nat.lt_of_le_of_lt (RefEnv.turn_fifo_le b r) hroom
  refine ⟨_, rfl, ?_⟩
  rw [RefEnv.offer_room hroom', ← hr, ← RefEnv.turn_words b r, List.append_assoc]

/-- State `a` occurs in a clean run from `s`: the reference environment carries the words of before and those
offered since, and at W_ISSUE its FIFO has room. -/
def Carrying (s a : State) (ws : List Word) : Prop :=
  a.par = s.par ∧ ∃ es, a.hist = s.hist ++ es ∧ a.env.Carries (ws ++ dataWords es) ∧
    (a.phase = .wIssue → ∃ r, a.env = .reference r ∧ r.fifo.length < s.par.fifoDepth)

theorem startCall_ne_wIssue (calls : List (List Byte)) (s : State) : (startCall calls s).phase ≠ .wIssue := by
  rcases startCall_cases calls s with ⟨hp, -⟩ | ⟨hp, -⟩ <;> simp [hp]

theorem Carrying.step {s a b : State} {ws : List Word} (h : Carrying s a ws) (hret : a.retries = 3)
    (hrow : WriteStep false a b) : Carrying s b ws := by
  obtain ⟨hpar, es, hes, hcarry, hroom⟩ := h
  obtain ⟨access, hnew, haccess, -⟩ := hrow.hist_of_clean hret
  refine ⟨hrow.frame.1.trans hpar, es ++ (access.toList ++ b.doneEvents), by rw [hnew, hes, List.append_assoc], ?_⟩
  have hwords : dataWords (es ++ (access.toList ++ b.doneEvents)) = dataWords es ++ a.offers := by
    rw [dataWords_append, dataWords_append, haccess.dataWords, dataWords_doneEvents, List.append_nil]
  rw [hwords]
  have hturn := hcarry.turn a.regs.enabled
  have quiet (hp : a.phase ≠ .wIssue) : dataWords es ++ a.offers = dataWords es := by
    rw [State.offers, if_neg hp, List.append_nil]
  cases hrow with
  | build hp => exact ⟨by rwa [quiet (by simp [hp])], nofun⟩
  | pollFree hp he hv =>
    obtain ⟨hcarry', hfree⟩ := hturn.readStatus he
    rw [quiet (by simp [hp]), ← hpar]
    exact ⟨hcarry', fun _ => hfree hv⟩
  | pollFull hp he =>
    obtain ⟨hcarry', -⟩ := hturn.readStatus he
    rw [quiet (by simp [hp])]
    exact ⟨hcarry', fun h => absurd (hp.symm.trans h) nofun⟩
  | issue hp =>
    obtain ⟨r, hr, hlt⟩ := hroom hp
    rw [hr] at hcarry
    rw [State.offers, if_pos hp, ← List.append_assoc, envTurn_env, hr, hpar]
    exact ⟨hcarry.offer hlt _ _, nofun⟩
  | pace hp => exact ⟨by rwa [quiet (by simp [hp])], nofun⟩
  | zeroGiveUp _ _ _ hr => exact absurd (hret.symm.trans hr) (by decide)
  | nextByte hp he =>
    rw [quiet (by simp [hp])]
    exact ⟨hturn.readRaw he, nofun⟩
  | lastByte hp he =>
    rw [quiet (by simp [hp]), endCall_env]
    exact ⟨hturn.readRaw he, fun h => absurd h (startCall_ne_wIssue _ _)⟩

theorem carrying_accepted {s : State} {r : RefEnv} (henv : s.env = .reference r) (i : Instr) :
    Carrying s (accepted i s) (r.bus ++ r.fifo) := by
  refine ⟨startCall_par _ _, _, accepted_hist i s, ?_, fun h => absurd h (startCall_ne_wIssue _ _)⟩
  rw [dataWords_append, dataWords_doneEvents, accepted, startCall_env, acceptHeader_env, henv]
  exact ⟨r, rfl, (List.append_nil _).symm⟩

/-- Settles O59: INIT takes turns and offers no word; of any other clean command every row keeps the words and
offers one only where the poll found room. -/
theorem referenceBusCarriesTheWordsOfACleanCommand :
    Obligations.ReferenceBusCarriesTheWordsOfACleanCommand := by
  intro i s u r h henv hu hclean
  suffices hcarry : u.env.Carries (r.bus ++ r.fifo ++ dataWords (newEvents s u)) from hcarry
  by_cases hi : i = .init
  · subst hi
    have hbefore : s.env.Carries (r.bus ++ r.fifo) := ⟨r, henv, rfl⟩
    rw [newEvents_init h hu, dataWords_init, List.append_nil, completes_init h hu]
    exact ((((hbefore.turn _).turn _).turn _).turn _).turn _
  · obtain ⟨-, es, hes, hcarry, -⟩ : Carrying s u (r.bus ++ r.fifo) :=
      (cleanRun_of_completes h hi hu hclean).keeps (P := fun a => Carrying s a (r.bus ++ r.fifo))
        (carrying_accepted henv i) fun _ _ _ hret hcar hrow => hcar.step hret hrow
    rwa [newEvents_of_hist hes]

/-! ### Runs under ENV_IDEAL (R65) -/

/-- What the current attempt has added to the history under ENV_IDEAL. -/
def State.idealSoFar (s : State) : List Event :=
  match s.phase with
  | .wIssue => [.rd .status 0x2]
  | .wPace => [.rd .status 0x2, .wr .dataCmd s.word]
  | .wCheck => [.rd .status 0x2, .wr .dataCmd s.word, .delay s.par.paceN]
  | .idle | .i1 | .i2 | .i3 | .i4 | .i5 | .wBuild | .wPoll | .fault => []

/-- The events of whole bytes under ENV_IDEAL. -/
def idealBytes (p : Params) (ws : List Word) : List Event := ws.flatMap (idealByteTrace p)

theorem idealBytes_append (p : Params) (ws ws' : List Word) :
    idealBytes p (ws ++ ws') = idealBytes p ws ++ idealBytes p ws' := by
  simp [idealBytes]

/-- State `a` occurs in the run of command `i` accepted in `s` under ENV_IDEAL: no retry is consumed, and the
history is that of whole bytes and of the attempt under way. -/
structure Ideal (i : Instr) (s a : State) : Prop where
  env   : a.env = .script [] []
  par   : a.par = s.par
  run   : CleanRun (accepted i s) a
  three : a.phase.writes = true → a.retries = 3
  hist  : ∃ ws, a.hist = s.hist ++ ([.acc i.op i.payload.length i.payload] ++
    (idealBytes s.par ws ++ (a.idealSoFar ++ a.doneEvents)))

theorem startCall_idealSoFar (calls : List (List Byte)) (s : State) : (startCall calls s).idealSoFar = [] := by
  rcases startCall_cases calls s with ⟨hp, -⟩ | ⟨hp, -⟩ <;> rw [State.idealSoFar, hp]

/-- What a row does under ENV_IDEAL: it consumes no retry and adds the next event of the byte's trace. -/
theorem WriteStep.ideal {c : Bool} {s t : State} (h : WriteStep c s t) (he : s.env = .script [] [])
    (hret : s.retries = 3) :
    c = false ∧ t.env = .script [] [] ∧ ∃ later ws, t.hist = s.hist ++ later ∧
      s.idealSoFar ++ later = idealBytes s.par ws ++ (t.idealSoFar ++ t.doneEvents) := by
  have status {v : Word} {e : Env} (hread : s.envTurn.env.readStatus s.par.fifoDepth = (v, e)) :
      v = 0x2 ∧ e = .script [] [] := by
    rw [envTurn_env, he] at hread
    cases hread
    exact ⟨rfl, rfl⟩
  have raw {v : Word} {e : Env} (hread : s.envTurn.env.readRaw = (v, e)) : v = 0x0 ∧ e = .script [] [] := by
    rw [envTurn_env, he] at hread
    cases hread
    exact ⟨rfl, rfl⟩
  have hturn : s.envTurn.env = .script [] [] := by
    rw [envTurn_env, he]
    rfl
  have hfree : tfnf 0x2 = true := by decide
  have hclear : abrt 0x0 = false := by decide
  have soFar {l : List Event} (hl : s.idealSoFar = l) {l' l'' : List Event} (h : l ++ l' = l'') :
      s.idealSoFar ++ l' = l'' := hl ▸ h
  cases h with
  | build hp => exact ⟨rfl, he, [], [], (List.append_nil _).symm, soFar (l := []) (by rw [State.idealSoFar, hp]) rfl⟩
  | pollFree hp hread =>
    obtain ⟨rfl, rfl⟩ := status hread
    exact ⟨rfl, rfl, _, [], rfl, soFar (l := []) (by rw [State.idealSoFar, hp]) rfl⟩
  | pollFull hp hread hv | pollTimeout hp hread hv =>
    obtain ⟨rfl, -⟩ := status hread
    exact absurd (hfree.symm.trans hv) (by decide)
  | issue hp =>
    exact ⟨rfl, by rw [hturn]; rfl, _, [], rfl, soFar (by rw [State.idealSoFar, hp]) rfl⟩
  | pace hp => exact ⟨rfl, hturn, _, [], rfl, soFar (by rw [State.idealSoFar, hp]) rfl⟩
  | abortGiveUp hp hread hv | abortRepeat hp hread hv =>
    obtain ⟨rfl, -⟩ := raw hread
    exact absurd (hclear.symm.trans hv) (by decide)
  | zeroGiveUp _ _ _ hr => exact absurd (hret.symm.trans hr) (by decide)
  | nextByte hp hread =>
    obtain ⟨rfl, rfl⟩ := raw hread
    exact ⟨rfl, rfl, _, [s.word], rfl, soFar (by rw [State.idealSoFar, hp]) rfl⟩
  | lastByte hp hread =>
    obtain ⟨rfl, rfl⟩ := raw hread
    refine ⟨rfl, endCall_env _, _, [s.word], (endCall_hist _).trans (List.append_assoc _ _ _),
      soFar (by rw [State.idealSoFar, hp]) ?_⟩
    rw [endCall, startCall_idealSoFar]
    rfl

theorem Ideal.step {i : Instr} {s a b : State} {c : Bool} (h : Ideal i s a) (hrow : WriteStep c a b) :
    Ideal i s b := by
  obtain ⟨henv, hpar, hrun, hthree, ws, hws⟩ := h
  have hret := hthree hrow.writes
  obtain ⟨rfl, henv', later, ws', hlater, hbytes⟩ := hrow.ideal henv hret
  refine ⟨henv', hrow.frame.1.trans hpar, hrun.tail hrow, hrow.three_tries hret, ws ++ ws', ?_⟩
  rw [hpar] at hbytes
  rw [hlater, hws, doneEvents_of_writes hrow.writes, List.append_nil, idealBytes_append]
  simp only [List.append_assoc]
  rw [hbytes]

theorem ideal_accepted {i : Instr} {s : State} (he : s.env = .script [] []) : Ideal i s (accepted i s) := by
  refine ⟨by rw [accepted, startCall_env, acceptHeader_env, he], startCall_par _ _, .refl,
    (untouched_startCall _ _).1, [], ?_⟩
  rw [accepted_hist, accepted, startCall_idealSoFar]
  rfl

theorem dataWords_idealBytes (p : Params) (ws : List Word) : dataWords (idealBytes p ws) = ws := by
  induction ws with
  | nil => rfl
  | cons w ws ih => exact congrArg (w :: ·) ih

theorem idealTrace_eq (p : Params) (calls : List (List Byte)) :
    idealTrace p calls = idealBytes p (wordsOf calls) := by
  simp [idealTrace, idealBytes, wordsOf, List.flatMap_assoc, List.flatMap_map]

/-- Settles O37: the command completes, every row adds the next event of a byte's trace, and the bytes are those
of the words the command has to offer. -/
theorem idealRunsHaveTheWrittenHistory : Obligations.IdealRunsHaveTheWrittenHistory := by
  intro i s hp hr he hi
  obtain ⟨k, u, -, hu, hrun⟩ := command_completes (i := i) (s := s) ⟨hp, hr, by simp [he]⟩ hi
  have hidle := completes_phase ⟨k, hu⟩
  obtain ⟨henv, hpar, hclean, -, ws, hws⟩ : Ideal i s u :=
    hrun.keeps (phaseInv_accepted i s) (ideal_accepted he) fun _ _ _ _ hideal hrow => hideal.step hrow
  obtain ⟨es, hes, hwords, hres, -⟩ : CleanlyUnderway i s u :=
    hclean.keeps (cleanlyUnderway_accepted i s) fun _ _ ha hret hfar hrow => hfar.step ha hret hrow
  have hsoFar : u.idealSoFar = [] := by rw [State.idealSoFar, hidle]
  rw [hsoFar, doneEvents_of_idle hidle, hres, Result.word_clear] at hws
  have hall : ws = wordsOf (callsOf s.par i) := by
    obtain rfl := List.append_cancel_left (hes.symm.trans hws)
    rw [wordsLeft_idle hidle, List.append_nil, dataWords_append, dataWords_append, dataWords_idealBytes] at hwords
    exact (List.append_nil ws).symm.trans hwords
  refine ⟨u, ⟨k, hu⟩, henv, hres, ?_⟩
  rw [hws, idealTrace_eq, hall]
  simp

/-! ### The words of each command (R131 to R135) -/

theorem bufferWords_concat (bs : List Byte) (b : Byte) :
    bufferWords (bs ++ [b]) = bs.map (fifoWord · false) ++ [fifoWord b true] := by
  induction bs with
  | nil => rfl
  | cons x bs ih =>
    cases bs with
    | nil => rfl
    | cons y bs => exact congrArg (fifoWord x false :: ·) ih

theorem bufferWords_cons (b : Byte) {bs : List Byte} (h : bs ≠ []) :
    bufferWords (b :: bs) = fifoWord b false :: bufferWords bs := by
  obtain ⟨x, xs, rfl⟩ := List.exists_cons_of_ne_nil h
  rfl

theorem bufferWords_replicate (n : Nat) (b : Byte) :
    bufferWords (List.replicate (n + 1) b) = List.replicate n (fifoWord b false) ++ [fifoWord b true] := by
  rw [List.replicate_succ', bufferWords_concat, List.map_replicate]

theorem callBytes_singleton (b : Byte) : callBytes [b] = [b] := callBytes_eq (payloadFits_singleton b)

/-- The words of a frame: the slave-address byte and the control byte, each with the stop flag, then the bytes. -/
theorem wordsOf_frame (a ctl : Byte) {bs : List Byte} (h : payloadFits bs) :
    wordsOf [[a], [ctl], bs] = [fifoWord a true, fifoWord ctl true] ++ bufferWords bs := by
  rw [wordsOf_cons, wordsOf_cons, wordsOf_cons, callBytes_singleton, callBytes_singleton, callBytes_eq h]
  simp [bufferWords, wordsOf]

theorem words_of_clean {i : Instr} {s u : State} (h : s.Ready) (hclean : Clean (newEvents s u))
    (hu : Completes i s u) : dataWords (newEvents s u) = wordsOf (callsOf s.par i) :=
  (cleanCommandOffersExactlyItsWords i s u h hu hclean).1

/-- Settles O38. -/
theorem frameWordsOfSendCommandAndSendData : Obligations.FrameWordsOfSendCommandAndSendData := by
  intro s u b bs hfits h hclean
  have frame (ctl : Byte) : wordsOf [[s.par.addrByte], [ctl], bs ++ [b]] =
      [fifoWord s.par.addrByte true, fifoWord ctl true] ++ bs.map (fifoWord · false) ++ [fifoWord b true] := by
    rw [wordsOf_frame _ _ hfits, bufferWords_concat, List.append_assoc]
  have empty (ctl : Byte) : wordsOf [[s.par.addrByte], [ctl], []] =
      [fifoWord s.par.addrByte true, fifoWord ctl true] := wordsOf_frame _ _ (Nat.zero_le _)
  have hcmd : fifoWord 0x00 true = 0x200 := by decide
  have hdata : fifoWord 0x40 true = 0x240 := by decide
  refine ⟨fun hu => ?_, fun hu => ?_, fun hu => ?_, fun hu => ?_⟩
  · rw [words_of_clean h hclean hu, callsOf, frame, hcmd]
  · rw [words_of_clean h hclean hu, callsOf, frame, hdata]
  · rw [words_of_clean h hclean hu, callsOf, empty, hcmd]
  · rw [words_of_clean h hclean hu, callsOf, empty, hdata]

theorem wordsOf_singleton {b : List Byte} (h : payloadFits b) : wordsOf [b] = bufferWords b := by
  rw [wordsOf_cons, callBytes_eq h]
  exact List.append_nil _

/-- The words of CLEAR_DISPLAY: the frame of the window, then the frame of the blank bytes. -/
theorem wordsOf_clearDisplay (p : Params) (h : payloadFits p.windowCmds) :
    wordsOf (callsOf p .clearDisplay) = [fifoWord p.addrByte true, 0x200] ++ bufferWords p.windowCmds ++
      [fifoWord p.addrByte true, 0x240] ++ List.replicate 511 0x0FF ++ [0x2FF] := by
  have hcmd : fifoWord 0x00 true = 0x200 := by decide
  have hdata : fifoWord 0x40 true = 0x240 := by decide
  have hblank : fifoWord 0xFF false = 0x0FF := by decide
  have hlast : fifoWord 0xFF true = 0x2FF := by decide
  have hfits : payloadFits (List.replicate (511 + 1) (0xFF : Byte)) := by
    rw [payloadFits, List.length_replicate, Config.lenMax]
    decide
  have hsplit : callsOf p .clearDisplay = [[p.addrByte], [0x00], p.windowCmds] ++
      [[p.addrByte], [0x40], List.replicate (511 + 1) 0xFF] := rfl
  rw [hsplit, wordsOf_append, wordsOf_frame _ _ h, wordsOf_frame _ _ hfits, bufferWords_replicate, hcmd, hdata,
    hblank, hlast]
  simp only [List.append_assoc]

/-- Settles O39. -/
theorem wordsOfTheDisplayCommands : Obligations.WordsOfTheDisplayCommands := by
  intro s u h hclean
  refine ⟨fun hu => ?init, fun hw hu => ?clear, fun text hlen hu => ?text⟩
  case init =>
    have hne : s.par.initCmds.toList ≠ [] := fun hnil => by
      have := s.par.initCmds.length_toList
      rw [hnil] at this
      cases this
    have hwords : dataWords (newEvents s u) = bufferWords (0x00 :: s.par.initCmds.toList) :=
      (words_of_clean h hclean hu).trans (wordsOf_singleton (payloadFits_initDisplay s.par))
    refine ⟨hwords.trans (bufferWords_cons 0x00 hne), ?_⟩
    rw [hwords, bufferWords_length, length_initDisplay]
  case clear =>
    have hwords := (words_of_clean h hclean hu).trans (wordsOf_clearDisplay s.par hw)
    refine ⟨hwords, ?_⟩
    rw [hwords]
    simp only [List.length_append, List.length_cons, List.length_nil, List.length_replicate, bufferWords_length]
    omega
  case text =>
    have hfits : payloadFits (0x40 :: text.take s.par.textMax) := by
      rw [payloadFits, length_displayText]
      exact hlen
    have hwords : dataWords (newEvents s u) = bufferWords (0x40 :: text.take s.par.textMax) :=
      (words_of_clean h hclean hu).trans (wordsOf_singleton hfits)
    refine ⟨hwords, ?_⟩
    rw [hwords, bufferWords_length, length_displayText]

/-! ### Polls under a script (R104) -/

theorem step_poll_script {s : State} {v : Word} {vs raw : List Word} (hp : s.phase = .wPoll) (hr : s.rst = false)
    (he : s.env = .script (v :: vs) raw) :
    step s = .next (pollResult v
      { s with env := .script vs raw, hist := s.hist ++ [Event.rd .status v] }) :=
  step_poll hp hr (by simp [he]) (by rw [envTurn_env, he]; rfl)

/-- Full reads that leave the poll counter above 0 cost only a count each. -/
theorem poll_fulls {full rest raw : List Word} : ∀ {s : State}, s.phase = .wPoll → s.rst = false →
    (∀ w ∈ full, w.getLsbD 1 = false) → full.length < s.pollCnt.toNat → s.env = .script (full ++ rest) raw →
    runSteps full.length s = .next { s with
      pollCnt := s.pollCnt - BitVec.ofNat 4 full.length, env := .script rest raw
      hist := s.hist ++ full.map (.rd .status) } := by
  induction full with
  | nil =>
    intro s hp hr hfull hlt he
    rw [List.nil_append] at he
    simp [← he]
  | cons w full ih =>
    intro s hp hr hfull hlt he
    obtain ⟨hw, hfull⟩ := List.forall_mem_cons.1 hfull
    rw [List.length_cons] at hlt ⊢
    have hcnt : s.pollCnt ≠ 1 := by
      intro h
      rw [h] at hlt
      simp at hlt
    have hone : (s.pollCnt - 1).toNat = s.pollCnt.toNat - 1 := by bv_omega
    have hstep : step s = .next { s with
        pollCnt := s.pollCnt - 1, env := .script (full ++ rest) raw
        hist := s.hist ++ [Event.rd .status w] } :=
      (step_poll_script hp hr he).trans (congrArg _ (pollResult_full hw hcnt))
    have hrun := ih (s := { s with
      pollCnt := s.pollCnt - 1, env := .script (full ++ rest) raw
      hist := s.hist ++ [Event.rd .status w] }) hp hr hfull (by rw [hone]; omega) rfl
    have hsub : s.pollCnt - 1 - BitVec.ofNat 4 full.length = s.pollCnt - BitVec.ofNat 4 (full.length + 1) := by
      rw [BitVec.ofNat_add, BitVec.sub_sub, BitVec.add_comm]
      rfl
    rw [runSteps_succ _ hstep, hrun, ← hsub]
    simp only [List.map_cons, List.append_assoc, List.singleton_append]

/-- Settles O31: at most nine full reads only count, and the tenth in a row costs the retry. -/
theorem nineFullPollsAreFreeTenCostOneRetry : Obligations.NineFullPollsAreFreeTenCostOneRetry := by
  intro s full rest raw v hp hr hcnt hfull
  refine ⟨fun hlen hv he => ?nine, fun hlen he => ?ten⟩
  case nine =>
    have hfulls := poll_fulls hp hr hfull (by rw [hcnt]; exact Nat.lt_succ_of_le hlen) he
    rw [runSteps_add 1 hfulls, runSteps_succ 0 (step_poll_script (by exact hp) (by exact hr) rfl),
      pollResult_free hv]
    exact ⟨_, rfl, rfl⟩
  case ten =>
    obtain ⟨nine, w, rfl⟩ : ∃ nine w, full = nine ++ [w] :=
      ⟨_, _, (List.dropLast_append_getLast (by rintro rfl; cases hlen)).symm⟩
    have hnine : nine.length = 9 := by simpa using hlen
    have hw : w.getLsbD 1 = false := hfull w (by simp)
    rw [List.append_assoc] at he
    have hfulls := poll_fulls hp hr (fun x hx => hfull x (List.mem_append_left _ hx))
      (by rw [hcnt, hnine]; decide) he
    have hone : s.pollCnt - BitVec.ofNat 4 nine.length = 1 := by rw [hcnt, hnine]; rfl
    rw [hnine] at hfulls
    rw [runSteps_add 1 hfulls, runSteps_succ 0 (step_poll_script (by exact hp) (by exact hr) rfl),
      pollResult_timeout hw (by rw [hcnt]; rfl)]
    simp

end Sys2Proof.Machine
end

section
/-! SUPPORT. What no step outside reset looks at: the history, the display state and the past (R20 f, R35),
outside INIT the storage registers (R114, R174), and the other bits of what is read (R76). -/

namespace Sys2Proof.Machine

/-! ### A state with other storage registers, history, past and display state -/

/-- `s` with other contents of what the block does not look at. -/
def State.disguised (s : State) (g : RegSet) (h : List Event) (p : List Epoch) (d : Disp) : State :=
  { s with regs := g, hist := h, past := p, disp := d }

theorem startCall_disguised (calls : List (List Byte)) (g : RegSet) (h : List Event) (p : List Epoch) (d : Disp) :
    ∀ s : State, startCall calls (s.disguised g h p d) = (startCall calls s).disguised g
      (h ++ (startCall calls s).doneEvents) p ((startCall calls s).dispAfter d) := by
  induction calls with
  | nil => exact fun s => rfl
  | cons buf later ih =>
    intro s
    by_cases hn : countOf buf = 0
    · rw [startCall_skip hn, startCall_skip hn]
      exact ih { s with callNo := s.callNo + 1, buf := buf, n := 0, idx := 0 }
    · rw [startCall_buffer hn, startCall_buffer hn, State.doneEvents, if_neg nofun, List.append_nil]
      rfl

theorem endCall_disguised (s : State) (g : RegSet) (h : List Event) (p : List Epoch) (d : Disp) :
    endCall (s.disguised g h p d) =
      (endCall s).disguised g (h ++ (endCall s).doneEvents) p ((endCall s).dispAfter d) :=
  startCall_disguised s.calls g h p d { s with callNo := s.callNo + 1 }

theorem recordAbort_disguised (s : State) (g : RegSet) (h : List Event) (p : List Epoch) (d : Disp) :
    recordAbort (s.disguised g h p d) =
      (recordAbort s).disguised g (h ++ [.diag s.callNo s.idx s.cause]) p d := rfl

@[simp] theorem givesUp_disguised (aborted : Bool) (s : State) (g : RegSet) (h : List Event) (p : List Epoch)
    (d : Disp) : givesUp aborted (s.disguised g h p d) = givesUp aborted s := rfl

theorem settle_disguised (aborted : Bool) (s : State) :
    ∃ (es : List Event) (f : Disp → Disp), ∀ g h p d,
      settle aborted (s.disguised g h p d) = (settle aborted s).disguised g (h ++ es) p (f d) := by
  rcases settle_cases aborted s with ⟨hg, hs⟩ | ⟨hg, rfl, hs⟩ | ⟨hg, rfl, hi, hs⟩ | ⟨hg, rfl, hi, hs⟩
  · refine ⟨[.diag s.callNo s.idx s.cause] ++ (settle aborted s).doneEvents, (settle aborted s).dispAfter,
      fun g h p d => ?_⟩
    rw [settle, if_pos (by exact hg), hs, recordAbort_disguised, endCall_disguised, List.append_assoc]
  · refine ⟨[], id, fun g h p d => ?_⟩
    rw [settle, if_neg (by simpa using hg), hs, List.append_nil]
    rfl
  · refine ⟨(settle false s).doneEvents, (settle false s).dispAfter, fun g h p d => ?_⟩
    rw [settle, if_neg (by simpa using hg), if_neg nofun, if_pos (by exact hi), hs, endCall_disguised]
  · refine ⟨[], id, fun g h p d => ?_⟩
    rw [settle, if_neg (by simpa using hg), if_neg nofun, if_neg (by exact hi), hs, List.append_nil]
    rfl

theorem settle_hist_prefix (aborted : Bool) (s : State) : s.hist <+: (settle aborted s).hist := by
  obtain ⟨es, f, hsettle⟩ := settle_disguised aborted s
  exact ⟨es, congrArg State.hist (hsettle s.regs s.hist s.past s.disp).symm⟩

theorem pollResult_disguised (v : Word) (s : State) (g : RegSet) (h : List Event) (p : List Epoch) (d : Disp) :
    pollResult v (s.disguised g h p d) = (pollResult v s).disguised g h p d := by
  rcases pollResult_cases v s with ⟨hv, hs⟩ | ⟨hv, hc, hs⟩ | ⟨hv, hc, hs⟩ <;> rw [hs]
  · exact pollResult_free hv _
  · exact pollResult_timeout hv hc
  · exact pollResult_full hv hc

/-! ### Acceptance -/

/-- `F` leads from `s` to `t` whatever the disguise: the events are the same, and the display state changes by one
function of itself. -/
def LeadsTo (F : State → Host.Outcome State Fault Refusal) (s t : State) : Prop :=
  ∃ (es : List Event) (f : Disp → Disp), ∀ g h p d, F (s.disguised g h p d) = .next (t.disguised g (h ++ es) p (f d))

theorem exec_leadsTo {i : Instr} {s t : State} (h : exec i s = .next t) : LeadsTo (exec i) s t := by
  by_cases hp : s.phase = .idle
  · by_cases hi : i = .init
    · subst hi
      cases (exec_init hp).symm.trans h
      exact ⟨[.acc .init 0 []], id, fun g h p d => exec_init hp⟩
    · cases (exec_calls hp hi).symm.trans h
      refine ⟨[.acc i.op i.payload.length i.payload] ++ (accepted i s).doneEvents, (accepted i s).dispAfter,
        fun g h p d => (exec_calls (s := s.disguised g h p d) hp hi).trans ?_⟩
      rw [← List.append_assoc]
      exact congrArg _ (startCall_disguised _ g _ p d (acceptHeader i.op i.payload s))
  · cases (exec_busy i hp).symm.trans h
    exact ⟨[], id, fun g h p d => by rw [exec_busy i (by exact hp), List.append_nil]; rfl⟩

/-- What is fetched from a disguised state. -/
def Fetched.disguised (g : RegSet) (h : List Event) (p : List Epoch) (d : Disp) : Fetched → Fetched
  | .wait => .wait
  | .run i s => .run i (s.disguised g h p d)
  | .illegal w s => .illegal w (s.disguised g h p d)

theorem fetch_disguised (s : State) (g : RegSet) (h : List Event) (p : List Epoch) (d : Disp) :
    fetch (s.disguised g h p d) = (fetch s).disguised g h p d := by
  have hhost : (s.disguised g h p d).host = s.host := rfl
  rw [fetch, fetch, hhost]
  cases s.host with
  | nil => rfl
  | cons o later =>
    dsimp only
    cases decode o with
    | ok i => rfl
    | error e => cases e <;> rfl

theorem idleStep_leadsTo {s t : State} (h : idleStep s = .next t) : LeadsTo idleStep s t := by
  simp only [LeadsTo, idleStep, fetch_disguised]
  rw [idleStep] at h
  cases hf : fetch s with
  | wait =>
    rw [hf] at h
    cases h
    exact ⟨[], id, fun g h p d => by rw [List.append_nil]; rfl⟩
  | run i q =>
    rw [hf] at h
    exact exec_leadsTo h
  | illegal w q =>
    rw [hf] at h
    cases h
    exact ⟨[.rej w] ++ [.done Result.refusedHeader.word], id, fun g h p d => by rw [← List.append_assoc]; rfl⟩

/-! ### Steps -/

/-- The phases of INIT. -/
def Phase.configures : Phase → Bool
  | .i1 | .i2 | .i3 | .i4 | .i5 => true
  | .idle | .wBuild | .wPoll | .wIssue | .wPace | .wCheck | .fault => false

/-- Outside reset and the phases of INIT the step is the same behind every disguise in which the environment's turn
is the same. -/
theorem step_disguised {s t : State} (hr : s.rst = false) (hp : s.phase.configures = false) (h : step s = .next t) :
    ∃ (es : List Event) (f : Disp → Disp), ∀ g, s.env.turn g.enabled = s.env.turn s.regs.enabled →
      ∀ h p d, step (s.disguised g h p d) = .next (t.disguised g (h ++ es) p (f d)) := by
  by_cases hfault : s.phase.accesses = true ∧ s.env = .absent
  · obtain ⟨hacc, he⟩ := hfault
    cases (step_absent hr hacc he).symm.trans h
    exact ⟨[], id, fun g _ h p d => by
      rw [step_absent (by exact hr) (by exact hacc) (by exact he), List.append_nil]
      rfl⟩
  have present (hacc : s.phase.accesses = true) : s.env ≠ .absent := fun he => hfault ⟨hacc, he⟩
  cases hphase : s.phase with
  | idle =>
    obtain ⟨es, f, hidle⟩ := idleStep_leadsTo ((step_idle hr hphase).symm.trans h)
    exact ⟨es, f, fun g _ h p d => (step_idle (s := s.disguised g h p d) hr hphase).trans (hidle g h p d)⟩
  | i1 | i2 | i3 | i4 | i5 =>
    rw [hphase] at hp
    cases hp
  | wBuild =>
    rw [step_wBuild hr hphase] at h
    cases hb : s.buf[s.idx.toNat]? with
    | none => rw [buildStep, hb] at h; cases h
    | some b =>
      cases (buildStep_byte hb).symm.trans h
      refine ⟨[], id, fun g _ h p d => ?_⟩
      rw [step_wBuild (by exact hr) (by exact hphase), List.append_nil]
      exact buildStep_byte hb
  | wPoll =>
    have he := present (by rw [hphase]; rfl)
    obtain ⟨v, e, hread⟩ : ∃ v e, s.envTurn.env.readStatus s.par.fifoDepth = (v, e) := ⟨_, _, rfl⟩
    cases (step_poll hphase hr he hread).symm.trans h
    refine ⟨[.rd .status v], id, fun g hturn h p d => ?_⟩
    have hsame : (s.disguised g h p d).envTurn.env = s.envTurn.env := hturn
    rw [step_poll (v := v) (e := e) (by exact hphase) (by exact hr) (by exact he) (by rw [hsame]; exact hread)]
    exact congrArg _ (pollResult_disguised v (s.polled v e) g _ p d)
  | wIssue =>
    have he := present (by rw [hphase]; rfl)
    cases ((step_wIssue hr hphase).trans (issueStep_present he)).symm.trans h
    refine ⟨[.wr .dataCmd s.word], id, fun g hturn h p d => ?_⟩
    have hsame : (s.disguised g h p d).envTurn.env = s.envTurn.env := hturn
    rw [step_wIssue (by exact hr) (by exact hphase), issueStep_present (by exact he), hsame]
    rfl
  | wPace =>
    cases ((step_wPace hr hphase).trans (paceStep_next s)).symm.trans h
    refine ⟨[.delay s.par.paceN], id, fun g hturn h p d => ?_⟩
    have hsame : (s.disguised g h p d).envTurn.env = s.envTurn.env := hturn
    rw [step_wPace (by exact hr) (by exact hphase), paceStep_next, hsame]
    rfl
  | wCheck =>
    have he := present (by rw [hphase]; rfl)
    obtain ⟨v, e, hread⟩ : ∃ v e, s.envTurn.env.readRaw = (v, e) := ⟨_, _, rfl⟩
    cases (step_check hphase hr he hread).symm.trans h
    obtain ⟨es, f, hsettle⟩ := settle_disguised (abrt v) (s.charged v e)
    refine ⟨[.rd .rawIntrStat v] ++ es, f, fun g hturn h p d => ?_⟩
    have hsame : (s.disguised g h p d).envTurn.env = s.envTurn.env := hturn
    rw [step_check (v := v) (e := e) (by exact hphase) (by exact hr) (by exact he) (by rw [hsame]; exact hread),
      ← List.append_assoc]
    exact congrArg _ (hsettle g _ p d)
  | fault =>
    cases (step_fault hr hphase).symm.trans h
    exact ⟨[], id, fun g _ h p d => by rw [step_fault (by exact hr) (by exact hphase), List.append_nil]; rfl⟩

/-- Settles O54: without a reference environment the turn never looks at the registers. -/
theorem storageRegistersNeverSteerTheBlock : Obligations.StorageRegistersNeverSteerTheBlock := by
  intro s t g hr henv h1 h2 h3 h4 h5 h
  have hp : s.phase.configures = false := by
    cases hphase : s.phase with
    | i1 => exact absurd hphase h1
    | i2 => exact absurd hphase h2
    | i3 => exact absurd hphase h3
    | i4 => exact absurd hphase h4
    | i5 => exact absurd hphase h5
    | idle | wBuild | wPoll | wIssue | wPace | wCheck | fault => rfl
  have hturn (b : Bool) : s.env.turn b = s.env := by
    cases he : s.env with
    | reference r => exact absurd he (henv r)
    | oracle k => rfl
    | script status raw => rfl
    | absent => rfl
  obtain ⟨es, f, hstep⟩ := step_disguised hr hp h
  have hself := h.symm.trans (hstep s.regs rfl s.hist s.past s.disp)
  have hother := hstep g ((hturn _).trans (hturn _).symm) s.hist s.past s.disp
  injection hself with hself
  rw [hself]
  exact hother

/-- A row of INIT writes its register whatever the disguise. -/
theorem initStep_disguised {r : Reg} {v : Word} {q : Phase} {s t : State} (he : s.env ≠ .absent)
    (hr : r = .funcsel ∨ r = .ctrl ∨ r = .tar ∨ r = .enable) (ht : initStep r v q s = .next t)
    (h : List Event) (p : List Epoch) (d : Disp) :
    initStep r v q (s.disguised s.regs h p d) = .next (t.disguised t.regs (h ++ [.wr r v]) p d) := by
  cases (initStep_present r v q he hr).symm.trans ht
  exact initStep_present (s := s.disguised s.regs h p d) r v q he hr

theorem step_disguised_init {s t : State} (hr : s.rst = false) (hp : s.phase.configures = true)
    (ht : step s = .next t) :
    ∃ es : List Event, ∀ h p d, step (s.disguised s.regs h p d) = .next (t.disguised t.regs (h ++ es) p d) := by
  by_cases he : s.env = .absent
  · have hacc : s.phase.accesses = true := by
      cases hphase : s.phase with
      | i1 | i2 | i3 | i4 | i5 => rfl
      | idle | wBuild | wPoll | wIssue | wPace | wCheck | fault =>
        rw [hphase] at hp
        cases hp
    cases (step_absent hr hacc he).symm.trans ht
    refine ⟨[], fun h p d => ?_⟩
    rw [step_absent (by exact hr) (by exact hacc) (by exact he), List.append_nil]
    rfl
  cases hphase : s.phase with
  | i1 => exact ⟨_, fun h p d => (step_i1 (s := s.disguised s.regs h p d) hr hphase).trans
      (initStep_disguised he (by simp) ((step_i1 hr hphase).symm.trans ht) h p d)⟩
  | i2 => exact ⟨_, fun h p d => (step_i2 (s := s.disguised s.regs h p d) hr hphase).trans
      (initStep_disguised he (by simp) ((step_i2 hr hphase).symm.trans ht) h p d)⟩
  | i3 => exact ⟨_, fun h p d => (step_i3 (s := s.disguised s.regs h p d) hr hphase).trans
      (initStep_disguised he (by simp) ((step_i3 hr hphase).symm.trans ht) h p d)⟩
  | i4 => exact ⟨_, fun h p d => (step_i4 (s := s.disguised s.regs h p d) hr hphase).trans
      (initStep_disguised he (by simp) ((step_i4 hr hphase).symm.trans ht) h p d)⟩
  | i5 =>
    cases ((step_i5 hr hphase).trans (initLast_present he)).symm.trans ht
    refine ⟨[.wr .enable 0x00000001] ++ [.done 0x00000000], fun h p d => ?_⟩
    rw [step_i5 (by exact hr) (by exact hphase), initLast_present (by exact he), ← List.append_assoc]
    rfl
  | idle | wBuild | wPoll | wIssue | wPace | wCheck | fault =>
    rw [hphase] at hp
    cases hp

/-- Settles O55: the same step behind the disguise, of which the storage registers are none. -/
theorem historyAndDisplayStateAreNeverRead : Obligations.HistoryAndDisplayStateAreNeverRead := by
  intro s t h p d hr ht
  have hstep : ∃ (es : List Event) (f : Disp → Disp), ∀ h p d,
      step (s.disguised s.regs h p d) = .next (t.disguised t.regs (h ++ es) p (f d)) := by
    cases hp : s.phase.configures with
    | true =>
      obtain ⟨es, hinit⟩ := step_disguised_init hr hp ht
      exact ⟨es, id, hinit⟩
    | false =>
      obtain ⟨es, f, hrow⟩ := step_disguised hr hp ht
      have hself := ht.symm.trans (hrow s.regs rfl s.hist s.past s.disp)
      injection hself with hself
      refine ⟨es, f, fun h p d => (hrow s.regs rfl h p d).trans ?_⟩
      rw [congrArg State.regs hself]
      rfl
  obtain ⟨es, f, hstep⟩ := hstep
  have hself := ht.symm.trans (hstep s.hist s.past s.disp)
  injection hself with hself
  refine ⟨_, hstep h p d, ?_⟩
  rw [newEvents_of_hist (congrArg State.hist hself)]
  rfl

/-! ### The other bits of what is read (R76) -/

theorem pollResult_congr {v w : Word} (h : tfnf v = tfnf w) (s : State) : pollResult v s = pollResult w s := by
  rw [pollResult, pollResult, h]

theorem with_hist_of_disguised {t : State} {g : RegSet} {h : List Event} {p : List Epoch} {d : Disp}
    (ht : t = t.disguised g h p d) (h' : List Event) : t.disguised g h' p d = { t with hist := h' } := by
  rw [ht]
  rfl

theorem charged_disguised {v w : Word} (h : abrt v = abrt w) (s : State) (e : Env) :
    s.charged w e = (s.charged v e).disguised s.regs (s.hist ++ [.rd .rawIntrStat w]) s.past s.disp := by
  rw [State.charged, State.charged, h]
  rfl

/-- Settles O56: the read enters the outcome by that bit alone, and the event only the history. -/
theorem otherBitsOfReadValuesAreIgnored : Obligations.OtherBitsOfReadValuesAreIgnored := by
  intro s t v w vs raw hr
  refine ⟨fun ⟨hp, hvw, ht⟩ => ?poll, fun ⟨hp, hvw, ht⟩ => ?check⟩
  case poll =>
    have hstep (x : Word) : step { s with env := .script (x :: vs) raw } =
        .next (pollResult x (s.polled x (.script vs raw))) := step_poll hp hr nofun rfl
    have hall (h : List Event) := pollResult_disguised v (s.polled v (.script vs raw)) s.regs h s.past s.disp
    cases (hstep v).symm.trans ht
    have hself : pollResult v (s.polled v (.script vs raw)) = (pollResult v (s.polled v (.script vs raw))).disguised
        s.regs (s.hist ++ [Event.rd .status v]) s.past s.disp := hall (s.hist ++ [Event.rd .status v])
    refine ⟨[], congrArg State.hist hself, (hstep w).trans (congrArg _ ?_)⟩
    rw [← pollResult_congr hvw]
    exact (hall (s.hist ++ [.rd .status w])).trans (with_hist_of_disguised hself _)
  case check =>
    have hstep (x : Word) : step { s with env := .script raw (x :: vs) } =
        .next (settle (abrt x) (s.charged x (.script raw vs))) := step_check hp hr nofun rfl
    obtain ⟨es, f, hsettle⟩ := settle_disguised (abrt v) (s.charged v (.script raw vs))
    have hall (h : List Event) := hsettle s.regs h s.past s.disp
    cases (hstep v).symm.trans ht
    have hself : settle (abrt v) (s.charged v (.script raw vs)) =
        (settle (abrt v) (s.charged v (.script raw vs))).disguised s.regs
          (s.hist ++ [Event.rd .rawIntrStat v] ++ es) s.past (f s.disp) := hall (s.hist ++ [Event.rd .rawIntrStat v])
    refine ⟨es, (congrArg State.hist hself).trans (List.append_assoc _ _ _), (hstep w).trans (congrArg _ ?_)⟩
    have habrt : abrt v = abrt w := hvw
    rw [charged_disguised habrt, ← habrt, hall, List.append_assoc]
    exact with_hist_of_disguised hself _

end Sys2Proof.Machine
end

section
/-! SUPPORT. One attempt at a byte, from W_BUILD to W_CHECK, at any environment (R112 c) and under a script (R153). -/

namespace Sys2Proof.Machine

/-! ### The shape of an attempt (R103 to R106) -/

/-- What no phase of an attempt before its settlement changes. -/
structure SameByte (s t : State) : Prop where
  par    : t.par = s.par
  calls  : t.calls = s.calls
  callNo : t.callNo = s.callNo
  buf    : t.buf = s.buf
  n      : t.n = s.n
  idx    : t.idx = s.idx
  res    : t.res = s.res
  rst    : t.rst = s.rst

theorem SameByte.trans {s t u : State} (h : SameByte s t) (h' : SameByte t u) : SameByte s u :=
  ⟨h'.par.trans h.par, h'.calls.trans h.calls, h'.callNo.trans h.callNo, h'.buf.trans h.buf, h'.n.trans h.n,
    h'.idx.trans h.idx, h'.res.trans h.res, h'.rst.trans h.rst⟩

/-- One read of STATUS ends the poll, unless the counter is above 1, when it may go on with the counter reduced. -/
theorem step_poll_ends_or_counts {s : State} (hp : s.phase = .wPoll) (hr : s.rst = false) (he : s.env ≠ .absent) :
    ∃ v t, step s = .next t ∧ t.hist = s.hist ++ [.rd .status v] ∧ SameByte s t ∧ t.env ≠ .absent ∧
      (t.phase = .wIssue ∨ (s.pollCnt ≠ 1 ∧ t.phase = .wPoll ∧ t.pollCnt = s.pollCnt - 1)) := by
  obtain ⟨v, e, hread⟩ : ∃ v e, s.envTurn.env.readStatus s.par.fifoDepth = (v, e) := ⟨_, _, rfl⟩
  have henv := readStatus_snd_ne_absent he hread
  refine ⟨v, _, step_poll hp hr he hread, ?_⟩
  rcases pollResult_cases v (s.polled v e) with ⟨-, hres⟩ | ⟨-, -, hres⟩ | ⟨-, hcnt, hres⟩ <;> rw [hres]
  · exact ⟨rfl, ⟨rfl, rfl, rfl, rfl, rfl, rfl, rfl, rfl⟩, henv, .inl rfl⟩
  · exact ⟨rfl, ⟨rfl, rfl, rfl, rfl, rfl, rfl, rfl, rfl⟩, henv, .inl rfl⟩
  · exact ⟨rfl, ⟨rfl, rfl, rfl, rfl, rfl, rfl, rfl, rfl⟩, henv, .inr ⟨hcnt, hp, rfl⟩⟩

/-- A poll is at least one read of STATUS and at most as many as its counter says, and nothing else. -/
theorem poll_to_wIssue {n : Nat} : ∀ {s : State}, s.pollCnt.toNat = n + 1 → s.phase = .wPoll → s.rst = false →
    s.env ≠ .absent → ∃ (reads : List Word) (t : State), runSteps reads.length s = .next t ∧ t.phase = .wIssue ∧
      1 ≤ reads.length ∧ reads.length ≤ n + 1 ∧ t.hist = s.hist ++ reads.map (.rd .status) ∧
      SameByte s t ∧ t.env ≠ .absent := by
  induction n with
  | zero =>
    intro s hcnt hp hr he
    obtain ⟨v, t, hstep, hhist, hsame, henv, hissue | ⟨hne, -⟩⟩ := step_poll_ends_or_counts hp hr he
    · exact ⟨[v], t, runSteps_succ 0 hstep, hissue, Nat.le_refl 1, Nat.le_refl 1, hhist, hsame, henv⟩
    · exact absurd (BitVec.eq_of_toNat_eq hcnt) hne
  | succ n ih =>
    intro s hcnt hp hr he
    obtain ⟨v, t, hstep, hhist, hsame, henv, hissue | ⟨-, hpoll, hless⟩⟩ := step_poll_ends_or_counts hp hr he
    · exact ⟨[v], t, runSteps_succ 0 hstep, hissue, Nat.le_refl 1, Nat.succ_pos _, hhist, hsame, henv⟩
    · have hcnt' : t.pollCnt.toNat = n + 1 := by
        rw [hless]
        bv_omega
      obtain ⟨reads, u, hrun, hissue, -, hmost, hhist', hsame', henv'⟩ :=
        ih hcnt' hpoll (hsame.rst.trans hr) henv
      refine ⟨v :: reads, u, (runSteps_succ _ hstep).trans hrun, hissue, Nat.succ_pos _, Nat.succ_le_succ hmost, ?_,
        hsame.trans hsame', henv'⟩
      rw [hhist', hhist, List.append_assoc]
      rfl

/-- After the poll come the word and the delay. -/
theorem wIssue_to_wCheck {s : State} (hp : s.phase = .wIssue) (hr : s.rst = false) (he : s.env ≠ .absent) :
    ∃ t, runSteps 2 s = .next t ∧ t.phase = .wCheck ∧ SameByte s t ∧ t.env ≠ .absent ∧
      t.hist = s.hist ++ [.wr .dataCmd t.word, .delay s.par.paceN] := by
  have hissue := (step_wIssue hr hp).trans (issueStep_present he)
  have henv := (WriteStep.issue hp).env_ne_absent he
  exact ⟨_, (runSteps_succ 1 hissue).trans
      (runSteps_succ 0 ((step_wPace (by exact hr) rfl).trans (paceStep_next _))), rfl,
    ⟨rfl, rfl, rfl, rfl, rfl, rfl, rfl, rfl⟩, Env.turn_ne_absent henv _, List.append_assoc _ _ _⟩

/-- Settles O32: the byte is there under the invariant; then the poll, the word, the delay, and the check. -/
theorem attemptHasOneWordOneDelayOneCheck : Obligations.AttemptHasOneWordOneDelayOneCheck := by
  intro s hinv hp hr he
  obtain ⟨hcall, -⟩ := (phaseInv_wBuild hp).1 hinv.1
  obtain ⟨b, hb⟩ := hcall.byte
  have hbuild := (step_wBuild hr hp).trans (buildStep_byte hb)
  obtain ⟨reads, q, hpoll, hissue, hleast, hmost, hreads, hsame, henv⟩ := poll_to_wIssue (n := 9) rfl rfl hr he
    (s := { s with word := fifoWord b (s.idx + 1 == s.n), pollCnt := Config.pollInit, phase := .wPoll })
  obtain ⟨t, hrun, hcheck, hsame', henv', hhist⟩ := wIssue_to_wCheck hissue (hsame.rst.trans hr) henv
  obtain ⟨-, -, -, hbuf, -, hidx, -, hrst⟩ := hsame.trans hsame'
  obtain ⟨v, e, hread⟩ : ∃ v e, t.envTurn.env.readRaw = (v, e) := ⟨_, _, rfl⟩
  have hsettle := step_check hcheck (hrst.trans hr) henv' hread
  refine ⟨t, _, reads.length + 2 + 1, reads, v,
    (runSteps_succ _ hbuild).trans ((runSteps_add 2 hpoll).trans hrun), hcheck, hsettle, hleast, hmost, rfl, ?_,
    ?_, hbuf, hidx⟩
  · rw [hhist, hreads, hsame.par]
  · exact settle_hist_prefix (abrt v) (t.charged v e)

/-! ### An aborted attempt under a script (R153) -/

theorem envTurn_script {s : State} {status raw : List Word} (he : s.env = .script status raw) :
    s.envTurn.env = s.env := by
  rw [envTurn_env, he]
  rfl

/-- The state after each row of an attempt whose poll is free at once, under a script. -/
def State.built (s : State) (w : Word) : State := { s with
  word := w, pollCnt := Config.pollInit, phase := .wPoll }
def State.freed (s : State) : State := { s with hist := s.hist ++ [.rd .status 0x2], phase := .wIssue }
def State.issued (s : State) : State := { s with hist := s.hist ++ [.wr .dataCmd s.word], phase := .wPace }
def State.paced (s : State) : State := { s with hist := s.hist ++ [.delay s.par.paceN], phase := .wCheck }

theorem step_poll_script_free {s : State} {raw : List Word} (hp : s.phase = .wPoll) (hr : s.rst = false)
    (he : s.env = .script [] raw) : step s = .next s.freed := by
  have hread : s.envTurn.env.readStatus s.par.fifoDepth = (0x2, s.env) := by rw [envTurn_script he, he]; rfl
  rw [step_poll hp hr (by simp [he]) hread, pollResult_free (by decide)]
  rfl

theorem step_issue_script {s : State} {status raw : List Word} (hp : s.phase = .wIssue) (hr : s.rst = false)
    (he : s.env = .script status raw) : step s = .next s.issued := by
  have hoffer : s.envTurn.env.offer s.par.fifoDepth s.word = s.env := by rw [envTurn_script he, he]; rfl
  rw [step_wIssue hr hp, issueStep_present (by simp [he]), hoffer, State.issued]

theorem step_pace_script {s : State} {status raw : List Word} (hp : s.phase = .wPace) (hr : s.rst = false)
    (he : s.env = .script status raw) : step s = .next s.paced := by
  rw [step_wPace hr hp, paceStep_next, envTurn_script he, State.paced]

theorem step_check_script {s : State} {status raw : List Word} {v : Word} (hp : s.phase = .wCheck)
    (hr : s.rst = false) (he : s.env = .script status (v :: raw)) :
    step s = .next (settle (abrt v) (s.charged v (.script status raw))) :=
  step_check hp hr (by simp [he]) (by rw [envTurn_script he, he]; rfl)

/-- The events of an attempt whose poll is free at once, with `v` read from RAW_INTR_STAT. -/
def attemptEvents (p : Params) (w v : Word) : List Event :=
  [.rd .status 0x2, .wr .dataCmd w, .delay p.paceN, .rd .rawIntrStat v]

/-- The state of an attempt charged with the abort read in `v`, before S6. -/
def State.aborted (s : State) (w v : Word) (raw : List Word) : State := { s with
  word := w, pollCnt := Config.pollInit, env := .script [] raw
  hist := s.hist ++ attemptEvents s.par w v
  retries := satdec s.retries, cause := .txAborted, phase := .wCheck }

/-- At the start of an attempt at byte `b`, with word `w`, the script never full and `raw` to come. -/
structure Attempting (s : State) (b : Byte) (w : Word) (raw : List Word) : Prop where
  phase : s.phase = .wBuild
  rst   : s.rst = false
  byte  : s.buf[s.idx.toNat]? = some b
  word  : fifoWord b (decide (s.idx + 1 = s.n)) = w
  env   : s.env = .script [] raw

theorem attempt_aborted {s : State} {b : Byte} {w v : Word} {raw : List Word} (h : Attempting s b w (v :: raw))
    (hv : abrt v = true) : runSteps 5 s = .next (settle true (s.aborted w v raw)) := by
  obtain ⟨hp, hr, hb, hw, he⟩ := h
  have hbuild : step s = .next (s.built w) := by
    rw [step_wBuild hr hp, buildStep_byte hb, beq_eq_decide, hw]
    rfl
  have hpoll : step (s.built w) = .next (s.built w).freed := step_poll_script_free rfl hr he
  have hissue : step (s.built w).freed = .next (s.built w).freed.issued := step_issue_script rfl hr he
  have hpace : step (s.built w).freed.issued = .next (s.built w).freed.issued.paced := step_pace_script rfl hr he
  have hcheck := step_check_script (s := (s.built w).freed.issued.paced) rfl hr he
  have hcharged : (s.built w).freed.issued.paced.charged v (.script [] raw) = s.aborted w v raw := by
    simp [State.charged, chargedRetries, chargedCause, hv, State.aborted, attemptEvents, State.built, State.freed,
      State.issued, State.paced]
  rw [runSteps_succ 4 hbuild, runSteps_succ 3 hpoll, runSteps_succ 2 hissue, runSteps_succ 1 hpace,
    runSteps_succ 0 hcheck, runSteps_zero, hcharged, hv]

/-- While a retry is left the byte is attempted again. -/
theorem attempt_again {s : State} {b : Byte} {w v : Word} {raw : List Word} (h : Attempting s b w (v :: raw))
    (hv : abrt v = true) (hret : satdec s.retries ≠ 0) :
    ∃ t, runSteps 5 s = .next t ∧ Attempting t b w raw ∧ SameByte s t ∧ t.retries = satdec s.retries ∧
      t.hist = s.hist ++ attemptEvents s.par w v :=
  ⟨_, (attempt_aborted h hv).trans (congrArg _ (settle_repeat (s := s.aborted w v raw) hret)),
    ⟨rfl, h.rst, h.byte, h.word, rfl⟩, ⟨rfl, rfl, rfl, rfl, rfl, rfl, rfl, rfl⟩, rfl, rfl⟩

/-- Without one the call is given up, and as the last of its command ends it with the report of its first abort. -/
theorem attempt_givenUp {s : State} {b : Byte} {w v : Word} {raw : List Word} (h : Attempting s b w (v :: raw))
    (hv : abrt v = true) (hret : satdec s.retries = 0) (hfail : s.res.fail = false) (hcalls : s.calls = []) :
    ∃ t, runSteps 5 s = .next t ∧ t.phase = .idle ∧
      t.res = { s.res with fail := true, cause := .txAborted, call := s.callNo, idx := s.idx } ∧
      t.hist = s.hist ++ (attemptEvents s.par w v ++ [.diag s.callNo s.idx .txAborted, .done t.res.word]) := by
  have hidle : (endCall (recordAbort (s.aborted w v raw))).phase = .idle := by
    have hnone : (recordAbort (s.aborted w v raw)).calls = [] := hcalls
    rw [endCall, hnone]
    rfl
  refine ⟨_, (attempt_aborted h hv).trans (congrArg _ (settle_giveUp (s := s.aborted w v raw) hret (.inl rfl))),
    hidle, (endCall_res _).trans (Result.recordAbort_of_not_fail hfail _ _ _), ?_⟩
  rw [endCall_recordAbort_hist, doneEvents_of_idle hidle, ← List.append_assoc s.hist]
  rfl

/-- Settles O33: the first two aborts leave a retry and the byte is offered again, the third leaves none. -/
theorem threeAbortsGiveTheCallUp : Obligations.ThreeAbortsGiveTheCallUp := by
  intro s b a₁ a₂ a₃ raw hp hr hret hfail hb hcalls h₁ h₂ h₃ he
  obtain ⟨s₁, hrun₁, hat₁, hsame₁, hret₁, hhist₁⟩ := attempt_again ⟨hp, hr, hb, rfl, he⟩ h₁ (by rw [hret]; decide)
  rw [hret] at hret₁
  obtain ⟨s₂, hrun₂, hat₂, hsame₂, hret₂, hhist₂⟩ := attempt_again hat₁ h₂ (by rw [hret₁]; decide)
  rw [hret₁] at hret₂
  have hsame := hsame₁.trans hsame₂
  obtain ⟨t, hrun₃, hidle, hres, hhist₃⟩ :=
    attempt_givenUp hat₂ h₃ (by rw [hret₂]; rfl) (hsame.res ▸ hfail) (hsame.calls.trans hcalls)
  rw [hsame.callNo, hsame.idx] at hres hhist₃
  rw [hhist₂, hhist₁, List.append_assoc, List.append_assoc] at hhist₃
  have hnew := newEvents_of_hist hhist₃
  refine ⟨t, ?_, hidle, by rw [hres], by rw [hres], by rw [hres], by rw [hres], ?_, ?_⟩
  · exact (runSteps_add 10 hrun₁).trans ((runSteps_add 5 hrun₂).trans hrun₃)
  · rw [hnew]
    rfl
  · rw [hnew]
    rfl

end Sys2Proof.Machine
end
